-- ==== Sys2Proof/Word.lean ====
section
/-! DEFINITION. The bit-vector types of YuCPU (00_scope.md R6 to R8). -/

namespace Sys2Proof

/-- A byte is 8 bits (R7). -/
abbrev Byte := BitVec 8

/-- A word is 16 bits, the width of every register and of the data path (R6 XLEN, R7). -/
abbrev Word := BitVec 16

/-- A 4-bit field: the register nibble of the meta byte (R94) or the AD nibble of a long address (R99). -/
abbrev Nibble := BitVec 4

/-- A bus address as the CPU produces it: 20 bits (R6 ADDR_WIDTH, R59). -/
abbrev Addr := BitVec 20

end Sys2Proof
end

