-- ==== Sys2Proof/Syntax.lean ====
section
/-! DEFINITION. The syntax of YuCPU: mnemonics, addressing modes, operand forms, width codes, and the one
inductive `Instr` with one constructor for each row of spec/opcode_table.json (30_encoding.md R90 to R109). -/

namespace Sys2Proof

/-- The 32 mnemonics in the order of R93. -/
inductive Opcode where
  | mov | ld | ldb | psh | pop | st | stl | sth
  | cmp | beq | bgt | blt | bof | bne | jmp | jsr
  | add | sub | ret | hlt | nop | int | rei | and
  | or | xor | lsh | rsh | mul | mod | bge | ble
  deriving DecidableEq, Repr

/-- The addressing modes held in bits 7:6 of the opcode byte (R92). -/
inductive Mode where
  | immediate | register | direct | discard
  deriving DecidableEq, Repr

/-- The width code of the meta byte's bits 3:2 (R99): `byte` is 00, `word` is 01, `long` is 10, `none` is 11. -/
inductive Width where
  | byte | word | long | none
  deriving DecidableEq, Repr

/-- The operand forms of R101. -/
inductive Form where
  /-- `OP rA, imm` -/
  | ri
  /-- `OP rA, rB` -/
  | rr
  /-- `OP rA, $addr` -/
  | rd
  /-- `OP rA` -/
  | r
  /-- `OP imm` -/
  | i
  /-- `OP $addr` -/
  | d
  /-- `OP` -/
  | n
  deriving DecidableEq, Repr

/-- One constructor for each row of the opcode table. `a` is the register nibble of the meta byte, `b` the second
register's data byte; both stay raw indices, because an index above 8 is a legal encoding whose executor faults
(R105, R336). A 20-bit address is the AD nibble `ad` and the low word `lo` (R103). -/
inductive Instr where
  /-- `MOV rA, rB`, form RR, length 3: `01000000 AAAA0000 BBBBBBBB` (R140). -/
  | movRr (a : Nibble) (b : Byte)
  /-- `LD rA, imm`, form RI, length 3: `00000001 AAAA0000 iiiiiiii` (R143). -/
  | ldRi8 (a : Nibble) (imm : Byte)
  /-- `LD rA, imm`, form RI, length 4: `00000001 AAAA0100 iiiiiiii iiiiiiii` (R143). -/
  | ldRi16 (a : Nibble) (imm : Word)
  /-- `LD rA, rB`, form RR, length 3: `01000001 AAAA0000 BBBBBBBB` (R144). -/
  | ldRr (a : Nibble) (b : Byte)
  /-- `LD rA, $addr`, form RD, length 3: `10000001 AAAA0000 dddddddd` (R145). -/
  | ldRd8 (a : Nibble) (addr : Byte)
  /-- `LD rA, $addr`, form RD, length 4: `10000001 AAAA0100 dddddddd dddddddd` (R145). -/
  | ldRd16 (a : Nibble) (addr : Word)
  /-- `LD rA, $addr`, form RD, length 5: `10000001 AAAA1000 0000aaaa dddddddd dddddddd` (R145). -/
  | ldRd20 (a : Nibble) (ad : Nibble) (lo : Word)
  /-- `LDB rA, rB`, form RR, length 3: `01000010 AAAA0000 BBBBBBBB` (R148). -/
  | ldbRr (a : Nibble) (b : Byte)
  /-- `LDB rA, $addr`, form RD, length 3: `10000010 AAAA0000 dddddddd` (R149). -/
  | ldbRd8 (a : Nibble) (addr : Byte)
  /-- `LDB rA, $addr`, form RD, length 4: `10000010 AAAA0100 dddddddd dddddddd` (R149). -/
  | ldbRd16 (a : Nibble) (addr : Word)
  /-- `LDB rA, $addr`, form RD, length 5: `10000010 AAAA1000 0000aaaa dddddddd dddddddd` (R149). -/
  | ldbRd20 (a : Nibble) (ad : Nibble) (lo : Word)
  /-- `PSH imm`, form I, length 3: `00000011 00000000 iiiiiiii` (R172). -/
  | pshI8 (imm : Byte)
  /-- `PSH imm`, form I, length 4: `00000011 00000100 iiiiiiii iiiiiiii` (R172). -/
  | pshI16 (imm : Word)
  /-- `PSH rA`, form R, length 2: `01000011 AAAA1100` (R173). -/
  | pshR (a : Nibble)
  /-- `PSH $addr`, form D, length 3: `10000011 00000000 dddddddd` (R174). -/
  | pshD8 (addr : Byte)
  /-- `PSH $addr`, form D, length 4: `10000011 00000100 dddddddd dddddddd` (R174). -/
  | pshD16 (addr : Word)
  /-- `PSH $addr`, form D, length 5: `10000011 00001000 0000aaaa dddddddd dddddddd` (R174). -/
  | pshD20 (ad : Nibble) (lo : Word)
  /-- `POP rA`, form R, length 2: `01000100 AAAA1100` (R177). -/
  | popR (a : Nibble)
  /-- `ST rA, rB`, form RR, length 3: `01000101 AAAA0000 BBBBBBBB` (R152). -/
  | stRr (a : Nibble) (b : Byte)
  /-- `ST rA, $addr`, form RD, length 3: `10000101 AAAA0000 dddddddd` (R153). -/
  | stRd8 (a : Nibble) (addr : Byte)
  /-- `ST rA, $addr`, form RD, length 4: `10000101 AAAA0100 dddddddd dddddddd` (R153). -/
  | stRd16 (a : Nibble) (addr : Word)
  /-- `ST rA, $addr`, form RD, length 5: `10000101 AAAA1000 0000aaaa dddddddd dddddddd` (R153). -/
  | stRd20 (a : Nibble) (ad : Nibble) (lo : Word)
  /-- `STL rA, rB`, form RR, length 3: `01000110 AAAA0000 BBBBBBBB` (R156). -/
  | stlRr (a : Nibble) (b : Byte)
  /-- `STL rA, $addr`, form RD, length 3: `10000110 AAAA0000 dddddddd` (R157). -/
  | stlRd8 (a : Nibble) (addr : Byte)
  /-- `STL rA, $addr`, form RD, length 4: `10000110 AAAA0100 dddddddd dddddddd` (R157). -/
  | stlRd16 (a : Nibble) (addr : Word)
  /-- `STL rA, $addr`, form RD, length 5: `10000110 AAAA1000 0000aaaa dddddddd dddddddd` (R157). -/
  | stlRd20 (a : Nibble) (ad : Nibble) (lo : Word)
  /-- `STH rA, rB`, form RR, length 3: `01000111 AAAA0000 BBBBBBBB` (R160). -/
  | sthRr (a : Nibble) (b : Byte)
  /-- `STH rA, $addr`, form RD, length 3: `10000111 AAAA0000 dddddddd` (R161). -/
  | sthRd8 (a : Nibble) (addr : Byte)
  /-- `STH rA, $addr`, form RD, length 4: `10000111 AAAA0100 dddddddd dddddddd` (R161). -/
  | sthRd16 (a : Nibble) (addr : Word)
  /-- `STH rA, $addr`, form RD, length 5: `10000111 AAAA1000 0000aaaa dddddddd dddddddd` (R161). -/
  | sthRd20 (a : Nibble) (ad : Nibble) (lo : Word)
  /-- `CMP rA, imm`, form RI, length 3: `00001000 AAAA0000 iiiiiiii` (R200). -/
  | cmpRi8 (a : Nibble) (imm : Byte)
  /-- `CMP rA, imm`, form RI, length 4: `00001000 AAAA0100 iiiiiiii iiiiiiii` (R200). -/
  | cmpRi16 (a : Nibble) (imm : Word)
  /-- `CMP rA, rB`, form RR, length 3: `01001000 AAAA0000 BBBBBBBB` (R200). -/
  | cmpRr (a : Nibble) (b : Byte)
  /-- `BEQ $addr`, form D, length 3: `10001001 00000000 dddddddd` (R262). -/
  | beqD8 (addr : Byte)
  /-- `BEQ $addr`, form D, length 4: `10001001 00000100 dddddddd dddddddd` (R262). -/
  | beqD16 (addr : Word)
  /-- `BEQ $addr`, form D, length 5: `10001001 00001000 0000aaaa dddddddd dddddddd` (R262). -/
  | beqD20 (ad : Nibble) (lo : Word)
  /-- `BGT $addr`, form D, length 3: `10001010 00000000 dddddddd` (R263). -/
  | bgtD8 (addr : Byte)
  /-- `BGT $addr`, form D, length 4: `10001010 00000100 dddddddd dddddddd` (R263). -/
  | bgtD16 (addr : Word)
  /-- `BGT $addr`, form D, length 5: `10001010 00001000 0000aaaa dddddddd dddddddd` (R263). -/
  | bgtD20 (ad : Nibble) (lo : Word)
  /-- `BLT $addr`, form D, length 3: `10001011 00000000 dddddddd` (R264). -/
  | bltD8 (addr : Byte)
  /-- `BLT $addr`, form D, length 4: `10001011 00000100 dddddddd dddddddd` (R264). -/
  | bltD16 (addr : Word)
  /-- `BLT $addr`, form D, length 5: `10001011 00001000 0000aaaa dddddddd dddddddd` (R264). -/
  | bltD20 (ad : Nibble) (lo : Word)
  /-- `BOF $addr`, form D, length 3: `10001100 00000000 dddddddd` (R265). -/
  | bofD8 (addr : Byte)
  /-- `BOF $addr`, form D, length 4: `10001100 00000100 dddddddd dddddddd` (R265). -/
  | bofD16 (addr : Word)
  /-- `BOF $addr`, form D, length 5: `10001100 00001000 0000aaaa dddddddd dddddddd` (R265). -/
  | bofD20 (ad : Nibble) (lo : Word)
  /-- `BNE $addr`, form D, length 3: `10001101 00000000 dddddddd` (R266). -/
  | bneD8 (addr : Byte)
  /-- `BNE $addr`, form D, length 4: `10001101 00000100 dddddddd dddddddd` (R266). -/
  | bneD16 (addr : Word)
  /-- `BNE $addr`, form D, length 5: `10001101 00001000 0000aaaa dddddddd dddddddd` (R266). -/
  | bneD20 (ad : Nibble) (lo : Word)
  /-- `JMP $addr`, form D, length 3: `10001110 00000000 dddddddd` (R270). -/
  | jmpD8 (addr : Byte)
  /-- `JMP $addr`, form D, length 4: `10001110 00000100 dddddddd dddddddd` (R270). -/
  | jmpD16 (addr : Word)
  /-- `JMP $addr`, form D, length 5: `10001110 00001000 0000aaaa dddddddd dddddddd` (R270). -/
  | jmpD20 (ad : Nibble) (lo : Word)
  /-- `JSR $addr`, form D, length 3: `10001111 00000000 dddddddd` (R272). -/
  | jsrD8 (addr : Byte)
  /-- `JSR $addr`, form D, length 4: `10001111 00000100 dddddddd dddddddd` (R272). -/
  | jsrD16 (addr : Word)
  /-- `JSR $addr`, form D, length 5: `10001111 00001000 0000aaaa dddddddd dddddddd` (R272). -/
  | jsrD20 (ad : Nibble) (lo : Word)
  /-- `ADD rA, imm`, form RI, length 3: `00010000 AAAA0000 iiiiiiii` (R205). -/
  | addRi8 (a : Nibble) (imm : Byte)
  /-- `ADD rA, imm`, form RI, length 4: `00010000 AAAA0100 iiiiiiii iiiiiiii` (R205). -/
  | addRi16 (a : Nibble) (imm : Word)
  /-- `ADD rA, rB`, form RR, length 3: `01010000 AAAA0000 BBBBBBBB` (R205). -/
  | addRr (a : Nibble) (b : Byte)
  /-- `SUB rA, imm`, form RI, length 3: `00010001 AAAA0000 iiiiiiii` (R208). -/
  | subRi8 (a : Nibble) (imm : Byte)
  /-- `SUB rA, imm`, form RI, length 4: `00010001 AAAA0100 iiiiiiii iiiiiiii` (R208). -/
  | subRi16 (a : Nibble) (imm : Word)
  /-- `SUB rA, rB`, form RR, length 3: `01010001 AAAA0000 BBBBBBBB` (R208). -/
  | subRr (a : Nibble) (b : Byte)
  /-- `RET`, form N, length 2: `11010010 00001100` (R275). -/
  | retN
  /-- `HLT`, form N, length 2: `11010011 00001100` (R300). -/
  | hltN
  /-- `NOP`, form N, length 2: `11010100 00001100` (R302). -/
  | nopN
  /-- `INT imm`, form I, length 3: `00010101 00000000 iiiiiiii` (R305). -/
  | intI8 (imm : Byte)
  /-- `INT imm`, form I, length 4: `00010101 00000100 iiiiiiii iiiiiiii` (R305). -/
  | intI16 (imm : Word)
  /-- `REI`, form N, length 2: `11010110 00001100` (R310). -/
  | reiN
  /-- `AND rA, imm`, form RI, length 3: `00010111 AAAA0000 iiiiiiii` (R215). -/
  | andRi8 (a : Nibble) (imm : Byte)
  /-- `AND rA, imm`, form RI, length 4: `00010111 AAAA0100 iiiiiiii iiiiiiii` (R215). -/
  | andRi16 (a : Nibble) (imm : Word)
  /-- `AND rA, rB`, form RR, length 3: `01010111 AAAA0000 BBBBBBBB` (R215). -/
  | andRr (a : Nibble) (b : Byte)
  /-- `OR rA, imm`, form RI, length 3: `00011000 AAAA0000 iiiiiiii` (R218). -/
  | orRi8 (a : Nibble) (imm : Byte)
  /-- `OR rA, imm`, form RI, length 4: `00011000 AAAA0100 iiiiiiii iiiiiiii` (R218). -/
  | orRi16 (a : Nibble) (imm : Word)
  /-- `OR rA, rB`, form RR, length 3: `01011000 AAAA0000 BBBBBBBB` (R218). -/
  | orRr (a : Nibble) (b : Byte)
  /-- `XOR rA, imm`, form RI, length 3: `00011001 AAAA0000 iiiiiiii` (R221). -/
  | xorRi8 (a : Nibble) (imm : Byte)
  /-- `XOR rA, imm`, form RI, length 4: `00011001 AAAA0100 iiiiiiii iiiiiiii` (R221). -/
  | xorRi16 (a : Nibble) (imm : Word)
  /-- `XOR rA, rB`, form RR, length 3: `01011001 AAAA0000 BBBBBBBB` (R221). -/
  | xorRr (a : Nibble) (b : Byte)
  /-- `LSH rA, imm`, form RI, length 3: `00011010 AAAA0000 iiiiiiii` (R225). -/
  | lshRi8 (a : Nibble) (imm : Byte)
  /-- `LSH rA, imm`, form RI, length 4: `00011010 AAAA0100 iiiiiiii iiiiiiii` (R225). -/
  | lshRi16 (a : Nibble) (imm : Word)
  /-- `LSH rA, rB`, form RR, length 3: `01011010 AAAA0000 BBBBBBBB` (R225). -/
  | lshRr (a : Nibble) (b : Byte)
  /-- `RSH rA, imm`, form RI, length 3: `00011011 AAAA0000 iiiiiiii` (R228). -/
  | rshRi8 (a : Nibble) (imm : Byte)
  /-- `RSH rA, imm`, form RI, length 4: `00011011 AAAA0100 iiiiiiii iiiiiiii` (R228). -/
  | rshRi16 (a : Nibble) (imm : Word)
  /-- `RSH rA, rB`, form RR, length 3: `01011011 AAAA0000 BBBBBBBB` (R228). -/
  | rshRr (a : Nibble) (b : Byte)
  /-- `MUL rA, imm`, form RI, length 3: `00011100 AAAA0000 iiiiiiii` (R235). -/
  | mulRi8 (a : Nibble) (imm : Byte)
  /-- `MUL rA, imm`, form RI, length 4: `00011100 AAAA0100 iiiiiiii iiiiiiii` (R235). -/
  | mulRi16 (a : Nibble) (imm : Word)
  /-- `MUL rA, rB`, form RR, length 3: `01011100 AAAA0000 BBBBBBBB` (R235). -/
  | mulRr (a : Nibble) (b : Byte)
  /-- `MOD rA, imm`, form RI, length 3: `00011101 AAAA0000 iiiiiiii` (R240). -/
  | modRi8 (a : Nibble) (imm : Byte)
  /-- `MOD rA, imm`, form RI, length 4: `00011101 AAAA0100 iiiiiiii iiiiiiii` (R240). -/
  | modRi16 (a : Nibble) (imm : Word)
  /-- `MOD rA, rB`, form RR, length 3: `01011101 AAAA0000 BBBBBBBB` (R240). -/
  | modRr (a : Nibble) (b : Byte)
  /-- `BGE $addr`, form D, length 3: `10011110 00000000 dddddddd` (R267). -/
  | bgeD8 (addr : Byte)
  /-- `BGE $addr`, form D, length 4: `10011110 00000100 dddddddd dddddddd` (R267). -/
  | bgeD16 (addr : Word)
  /-- `BGE $addr`, form D, length 5: `10011110 00001000 0000aaaa dddddddd dddddddd` (R267). -/
  | bgeD20 (ad : Nibble) (lo : Word)
  /-- `BLE $addr`, form D, length 3: `10011111 00000000 dddddddd` (R268). -/
  | bleD8 (addr : Byte)
  /-- `BLE $addr`, form D, length 4: `10011111 00000100 dddddddd dddddddd` (R268). -/
  | bleD16 (addr : Word)
  /-- `BLE $addr`, form D, length 5: `10011111 00001000 0000aaaa dddddddd dddddddd` (R268). -/
  | bleD20 (ad : Nibble) (lo : Word)
  deriving DecidableEq, Repr

end Sys2Proof
end

