-- ==== Sys2Proof/Config.lean ====
section
/-! DEFINITION. What an implementation fixes: the parameters of R6. Their reference numbers stand in Decode.lean.
No result of an instruction is left open by the spec, so there is no free value here. -/

namespace Sys2Proof

/-- The parameters `OPCODE_NUM` and `MODE_NUM` of R6: a number for each mnemonic and each addressing mode. The
decoder and the encoder take one as an argument. -/
structure Numbering where
  opcode : Opcode → BitVec 6
  mode : Mode → BitVec 2

/-- Two mnemonics, or two modes, never share a number: what makes the bit-pack of R91 injective (R117). -/
def Numbering.Injective (N : Numbering) : Prop :=
  Function.Injective N.opcode ∧ Function.Injective N.mode

/-- What a byte of a device's storage reads as when nothing lists it. The spec gives no initial contents and makes
them the host's (R63, I13); DESIGN CHOICE, unsafe for a claim from the reset state: log entry 3. -/
def Config.unlistedByte : Byte := 0

/-- `IVT_BASE` of R6: the bus address of interrupt vector 0. -/
def Config.ivtBase : Nat := 0x00000

/-- The reference map's RAM is 0x00000 to 0x043FF and its ROM 0x04400 to 0x0FFFF (R62, D29). DESIGN CHOICE: log
entry 2. -/
def Config.ramFirst : Addr := 0x00000

def Config.ramLast : Addr := 0x043FF

def Config.romFirst : Addr := 0x04400

def Config.romLast : Addr := 0x0FFFF

end Sys2Proof
end

