-- ==== Sys2Proof/WellFormed.lean ====
section
/-! DEFINITION. Well-formed instructions: every register index an instruction names is one of 0..8 (R20, R105).
An ill-formed instruction still has an encoding and decodes; its executor faults (R336). -/

namespace Sys2Proof

/-- The register nibble `A` of an instruction whose form has one (R101). -/
def Instr.regA : Instr → Option Nibble
  | .movRr a _ | .ldRi8 a _ | .ldRi16 a _ | .ldRr a _ | .ldRd8 a _ | .ldRd16 a _ | .ldRd20 a _ _ | .ldbRr a _
  | .ldbRd8 a _ | .ldbRd16 a _ | .ldbRd20 a _ _ | .pshR a | .popR a | .stRr a _ | .stRd8 a _ | .stRd16 a _
  | .stRd20 a _ _ | .stlRr a _ | .stlRd8 a _ | .stlRd16 a _ | .stlRd20 a _ _ | .sthRr a _ | .sthRd8 a _
  | .sthRd16 a _ | .sthRd20 a _ _ | .cmpRi8 a _ | .cmpRi16 a _ | .cmpRr a _ | .addRi8 a _ | .addRi16 a _
  | .addRr a _ | .subRi8 a _ | .subRi16 a _ | .subRr a _ | .andRi8 a _ | .andRi16 a _ | .andRr a _ | .orRi8 a _
  | .orRi16 a _ | .orRr a _ | .xorRi8 a _ | .xorRi16 a _ | .xorRr a _ | .lshRi8 a _ | .lshRi16 a _ | .lshRr a _
  | .rshRi8 a _ | .rshRi16 a _ | .rshRr a _ | .mulRi8 a _ | .mulRi16 a _ | .mulRr a _ | .modRi8 a _
  | .modRi16 a _ | .modRr a _ => some a
  | .pshI8 _ | .pshI16 _ | .pshD8 _ | .pshD16 _ | .pshD20 _ _ | .beqD8 _ | .beqD16 _ | .beqD20 _ _ | .bgtD8 _
  | .bgtD16 _ | .bgtD20 _ _ | .bltD8 _ | .bltD16 _ | .bltD20 _ _ | .bofD8 _ | .bofD16 _ | .bofD20 _ _ | .bneD8 _
  | .bneD16 _ | .bneD20 _ _ | .jmpD8 _ | .jmpD16 _ | .jmpD20 _ _ | .jsrD8 _ | .jsrD16 _ | .jsrD20 _ _ | .retN
  | .hltN | .nopN | .intI8 _ | .intI16 _ | .reiN | .bgeD8 _ | .bgeD16 _ | .bgeD20 _ _ | .bleD8 _ | .bleD16 _
  | .bleD20 _ _ => none

/-- The second register's data byte `B`, in form RR (R101). -/
def Instr.regB : Instr → Option Byte
  | .movRr _ b | .ldRr _ b | .ldbRr _ b | .stRr _ b | .stlRr _ b | .sthRr _ b | .cmpRr _ b | .addRr _ b
  | .subRr _ b | .andRr _ b | .orRr _ b | .xorRr _ b | .lshRr _ b | .rshRr _ b | .mulRr _ b | .modRr _ b => some b
  | .ldRi8 _ _ | .ldRi16 _ _ | .ldRd8 _ _ | .ldRd16 _ _ | .ldRd20 _ _ _ | .ldbRd8 _ _ | .ldbRd16 _ _
  | .ldbRd20 _ _ _ | .pshI8 _ | .pshI16 _ | .pshR _ | .pshD8 _ | .pshD16 _ | .pshD20 _ _ | .popR _ | .stRd8 _ _
  | .stRd16 _ _ | .stRd20 _ _ _ | .stlRd8 _ _ | .stlRd16 _ _ | .stlRd20 _ _ _ | .sthRd8 _ _ | .sthRd16 _ _
  | .sthRd20 _ _ _ | .cmpRi8 _ _ | .cmpRi16 _ _ | .beqD8 _ | .beqD16 _ | .beqD20 _ _ | .bgtD8 _ | .bgtD16 _
  | .bgtD20 _ _ | .bltD8 _ | .bltD16 _ | .bltD20 _ _ | .bofD8 _ | .bofD16 _ | .bofD20 _ _ | .bneD8 _ | .bneD16 _
  | .bneD20 _ _ | .jmpD8 _ | .jmpD16 _ | .jmpD20 _ _ | .jsrD8 _ | .jsrD16 _ | .jsrD20 _ _ | .addRi8 _ _
  | .addRi16 _ _ | .subRi8 _ _ | .subRi16 _ _ | .retN | .hltN | .nopN | .intI8 _ | .intI16 _ | .reiN
  | .andRi8 _ _ | .andRi16 _ _ | .orRi8 _ _ | .orRi16 _ _ | .xorRi8 _ _ | .xorRi16 _ _ | .lshRi8 _ _
  | .lshRi16 _ _ | .rshRi8 _ _ | .rshRi16 _ _ | .mulRi8 _ _ | .mulRi16 _ _ | .modRi8 _ _ | .modRi16 _ _
  | .bgeD8 _ | .bgeD16 _ | .bgeD20 _ _ | .bleD8 _ | .bleD16 _ | .bleD20 _ _ => none

/-- Every register index of the instruction names a register (R20: no index outside 0..8 does). -/
def Instr.WellFormed (i : Instr) : Bool :=
  i.regA.all (fun a => decide (a.toNat ≤ 8)) && i.regB.all (fun b => decide (b.toNat ≤ 8))

end Sys2Proof
end

