-- ==== Sys2Proof/Decode.lean ====
section
/-! DEFINITION. The decoder and the encoder of YuCPU (30_encoding.md R90 to R110, R122), both over a numbering of
mnemonics and modes (R6). The decoder is total and rejects by name: InvalidOpcode, BadForm, or bytes that run out. -/

namespace Sys2Proof

/-! ## The reference numbering -/

/-- The reference opcode numbers of R93 (D1). -/
def Config.opcodeNum : Opcode → BitVec 6
  | .mov => 0x00 | .ld => 0x01 | .ldb => 0x02 | .psh => 0x03
  | .pop => 0x04 | .st => 0x05 | .stl => 0x06 | .sth => 0x07
  | .cmp => 0x08 | .beq => 0x09 | .bgt => 0x0A | .blt => 0x0B
  | .bof => 0x0C | .bne => 0x0D | .jmp => 0x0E | .jsr => 0x0F
  | .add => 0x10 | .sub => 0x11 | .ret => 0x12 | .hlt => 0x13
  | .nop => 0x14 | .int => 0x15 | .rei => 0x16 | .and => 0x17
  | .or => 0x18 | .xor => 0x19 | .lsh => 0x1A | .rsh => 0x1B
  | .mul => 0x1C | .mod => 0x1D | .bge => 0x1E | .ble => 0x1F

/-- The reference mode numbers of R92 (D2). -/
def Config.modeNum : Mode → BitVec 2
  | .immediate => 0 | .register => 1 | .direct => 2 | .discard => 3

/-- The numbering the machine's own step uses: the spec's reference values (R92, R93, its D1 and D2). UNVERIFIED of the
hardware, unsafe for a claim about concrete bytes: log entry 1. -/
def Config.numbering : Numbering := ⟨Config.opcodeNum, Config.modeNum⟩

/-! ## Byte order (R53, R65: big-endian) -/

/-- `[hi, lo]` (R7): the word whose bits 15:8 are `hi` and bits 7:0 are `lo`. -/
def wordOfBytes (hi lo : Byte) : Word := hi ++ lo

/-- Bits 15:8 of a word. -/
def hiByte (w : Word) : Byte := w.extractLsb' 8 8

/-- Bits 7:0 of a word. -/
def loByte (w : Word) : Byte := w.extractLsb' 0 8

/-! ## Fields of the opcode word (R91, R94) -/

/-- The opcode byte of an opcode word is its high byte (R65, R100). -/
def opcodeByteOf (ir : Word) : Byte := hiByte ir

/-- The register nibble `A`, bits 7:4 (R94). -/
def nibbleOf (ir : Word) : Nibble := ir.extractLsb' 4 4

/-- The reserved meta bits 1:0 (R94). -/
def reservedOf (ir : Word) : BitVec 2 := ir.extractLsb' 0 2

/-- The width code's value in the meta byte (R99). -/
def Width.bits : Width → BitVec 2
  | .byte => 0b00 | .word => 0b01 | .long => 0b10 | .none => 0b11

/-- The width code `W`, bits 3:2 (R94, R99). -/
def widthOf (ir : Word) : Width :=
  let w := ir.extractLsb' 2 2
  if w = 0b00 then .byte else if w = 0b01 then .word else if w = 0b10 then .long else .none

/-- The instruction length the width code fixes (R99). -/
def Width.length : Width → Nat
  | .byte => 3 | .word => 4 | .long => 5 | .none => 2

/-- The opcode byte of a mnemonic and a mode: the mode in bits 7:6, the number in bits 5:0 (R91). -/
def Numbering.opcodeByte (N : Numbering) (op : Opcode) (m : Mode) : Byte := N.mode m ++ N.opcode op

/-- The meta byte: nibble, width code, two zero bits (R94, R122). -/
def metaByte (a : Nibble) (w : Width) : Byte := a ++ (w.bits ++ 0#2)

/-! ## The opcode table (R101, R106) -/

/-- What an opcode-table entry makes of its operands: the form of R101, with one constructor of `Instr` for each
width code the form allows (`byte`, `word`, `long` in that order). -/
inductive Shape where
  | rr (mk : Nibble → Byte → Instr)
  | ri (mk8 : Nibble → Byte → Instr) (mk16 : Nibble → Word → Instr)
  | rd (mk8 : Nibble → Byte → Instr) (mk16 : Nibble → Word → Instr) (mk20 : Nibble → Nibble → Word → Instr)
  | r (mk : Nibble → Instr)
  | i (mk8 : Byte → Instr) (mk16 : Word → Instr)
  | d (mk8 : Byte → Instr) (mk16 : Word → Instr) (mk20 : Nibble → Word → Instr)
  | n (mk : Instr)

/-- One entry of R106: a legal (opcode, mode) pair and its shape. -/
structure Row where
  op : Opcode
  mode : Mode
  shape : Shape

/-- R106's rows for MOV, LD, LDB, PSH, POP, ST, STL, STH. -/
def rowsDataMovement : List Row := [
  ⟨.mov, .register, .rr .movRr⟩,
  ⟨.ld, .immediate, .ri .ldRi8 .ldRi16⟩,
  ⟨.ld, .register, .rr .ldRr⟩,
  ⟨.ld, .direct, .rd .ldRd8 .ldRd16 .ldRd20⟩,
  ⟨.ldb, .register, .rr .ldbRr⟩,
  ⟨.ldb, .direct, .rd .ldbRd8 .ldbRd16 .ldbRd20⟩,
  ⟨.psh, .immediate, .i .pshI8 .pshI16⟩,
  ⟨.psh, .register, .r .pshR⟩,
  ⟨.psh, .direct, .d .pshD8 .pshD16 .pshD20⟩,
  ⟨.pop, .register, .r .popR⟩,
  ⟨.st, .register, .rr .stRr⟩,
  ⟨.st, .direct, .rd .stRd8 .stRd16 .stRd20⟩,
  ⟨.stl, .register, .rr .stlRr⟩,
  ⟨.stl, .direct, .rd .stlRd8 .stlRd16 .stlRd20⟩,
  ⟨.sth, .register, .rr .sthRr⟩,
  ⟨.sth, .direct, .rd .sthRd8 .sthRd16 .sthRd20⟩]

/-- R106's rows for CMP, ADD, SUB, AND, OR, XOR, LSH, RSH, MUL, MOD. -/
def rowsArithLogic : List Row := [
  ⟨.cmp, .immediate, .ri .cmpRi8 .cmpRi16⟩,
  ⟨.cmp, .register, .rr .cmpRr⟩,
  ⟨.add, .immediate, .ri .addRi8 .addRi16⟩,
  ⟨.add, .register, .rr .addRr⟩,
  ⟨.sub, .immediate, .ri .subRi8 .subRi16⟩,
  ⟨.sub, .register, .rr .subRr⟩,
  ⟨.and, .immediate, .ri .andRi8 .andRi16⟩,
  ⟨.and, .register, .rr .andRr⟩,
  ⟨.or, .immediate, .ri .orRi8 .orRi16⟩,
  ⟨.or, .register, .rr .orRr⟩,
  ⟨.xor, .immediate, .ri .xorRi8 .xorRi16⟩,
  ⟨.xor, .register, .rr .xorRr⟩,
  ⟨.lsh, .immediate, .ri .lshRi8 .lshRi16⟩,
  ⟨.lsh, .register, .rr .lshRr⟩,
  ⟨.rsh, .immediate, .ri .rshRi8 .rshRi16⟩,
  ⟨.rsh, .register, .rr .rshRr⟩,
  ⟨.mul, .immediate, .ri .mulRi8 .mulRi16⟩,
  ⟨.mul, .register, .rr .mulRr⟩,
  ⟨.mod, .immediate, .ri .modRi8 .modRi16⟩,
  ⟨.mod, .register, .rr .modRr⟩]

/-- R106's rows for BEQ, BGT, BLT, BOF, BNE, BGE, BLE, JMP, JSR, RET. -/
def rowsControl : List Row := [
  ⟨.beq, .direct, .d .beqD8 .beqD16 .beqD20⟩,
  ⟨.bgt, .direct, .d .bgtD8 .bgtD16 .bgtD20⟩,
  ⟨.blt, .direct, .d .bltD8 .bltD16 .bltD20⟩,
  ⟨.bof, .direct, .d .bofD8 .bofD16 .bofD20⟩,
  ⟨.bne, .direct, .d .bneD8 .bneD16 .bneD20⟩,
  ⟨.jmp, .direct, .d .jmpD8 .jmpD16 .jmpD20⟩,
  ⟨.jsr, .direct, .d .jsrD8 .jsrD16 .jsrD20⟩,
  ⟨.ret, .discard, .n .retN⟩,
  ⟨.bge, .direct, .d .bgeD8 .bgeD16 .bgeD20⟩,
  ⟨.ble, .direct, .d .bleD8 .bleD16 .bleD20⟩]

/-- R106's rows for HLT, NOP, INT, REI. -/
def rowsSystem : List Row := [
  ⟨.hlt, .discard, .n .hltN⟩,
  ⟨.nop, .discard, .n .nopN⟩,
  ⟨.int, .immediate, .i .intI8 .intI16⟩,
  ⟨.rei, .discard, .n .reiN⟩]

/-- The 50 legal (opcode, mode) pairs of R106. -/
def opcodeTable : List Row := rowsDataMovement ++ rowsArithLogic ++ rowsControl ++ rowsSystem

/-- The form of an entry (R101). -/
def Shape.form : Shape → Form
  | .rr _ => .rr | .ri _ _ => .ri | .rd _ _ _ => .rd | .r _ => .r | .i _ _ => .i | .d _ _ _ => .d | .n _ => .n

/-- The width codes a form allows (R101, column "legal W"). -/
def Form.legalWidth : Form → Width → Bool
  | .ri, .byte | .ri, .word | .i, .byte | .i, .word => true
  | .rr, .byte => true
  | .rd, .byte | .rd, .word | .rd, .long | .d, .byte | .d, .word | .d, .long => true
  | .r, .none | .n, .none => true
  | .ri, .long | .ri, .none | .i, .long | .i, .none => false
  | .rr, .word | .rr, .long | .rr, .none => false
  | .rd, .none | .d, .none => false
  | .r, .byte | .r, .word | .r, .long | .n, .byte | .n, .word | .n, .long => false

/-- The forms whose register nibble must be 0 (R101, R107). -/
def Form.nibbleUnused : Form → Bool
  | .i | .d | .n => true
  | .ri | .rr | .rd | .r => false

/-- The opcode-table lookup (R108): the entry whose (mode, number) pair is the opcode byte. -/
def lookup (N : Numbering) (b : Byte) : Option Row :=
  opcodeTable.find? (fun row => N.opcodeByte row.op row.mode == b)

/-! ## The decode latches (R31) and the decoder -/

/-- The decode latches of the current tick (R31): the opcode word, the operand data, the AD nibble and the
instruction's length (the source's `is`; the spec gives it no width, so a Nat: log entry 11). -/
structure Latches where
  ir : Word
  dr : Word
  ad : Nibble
  len : Nat
  deriving DecidableEq, Repr

/-- The latches between ticks (R31, R37, D27). -/
def Latches.clear : Latches := ⟨0, 0, 0, 0⟩

/-- R99, W = 00: one operand byte, zero-extended. -/
def Latches.ofByte (ir : Word) (b : Byte) : Latches := ⟨ir, b.setWidth 16, 0, 3⟩

/-- R99, W = 01: an operand word. -/
def Latches.ofWord (ir w : Word) : Latches := ⟨ir, w, 0, 4⟩

/-- R99, W = 10: the AD byte's low nibble and a word. -/
def Latches.ofLong (ir : Word) (t : Byte) (w : Word) : Latches := ⟨ir, w, t.extractLsb' 0 4, 5⟩

/-- R99, W = 11: no operand. -/
def Latches.ofNone (ir : Word) : Latches := ⟨ir, 0, 0, 2⟩

/-- The AD byte's upper nibble, `adhi` of R100, which must be 0 (R107). -/
def adHigh (t : Byte) : Nibble := t.extractLsb' 4 4

/-- Why a decode fails. `truncated` is raised only by `decode` on a list that is too short; the machine fetches the
bytes it needs. -/
inductive DecodeReject where
  /-- `DecodeError(InvalidOpcode, ir[15:8])` of R108. -/
  | invalidOpcode (opcode : Byte)
  /-- `DecodeError(BadForm, ir)` of R107. -/
  | badForm (ir : Word)
  | truncated
  deriving DecidableEq, Repr

/-- `CheckForm` of R107. -/
def checkForm (f : Form) (ir : Word) (adhi : Nibble) : Bool :=
  f.legalWidth (widthOf ir) && decide (reservedOf ir = 0)
    && (!f.nibbleUnused || decide (nibbleOf ir = 0))
    && (decide (widthOf ir ≠ .long) || decide (adhi = 0))

/-- The instruction an entry makes of the latches, with the operands of R101 to R103; `none` for a width code the
form does not allow. -/
def Shape.build (sh : Shape) (l : Latches) : Option Instr :=
  let a := nibbleOf l.ir
  let b := loByte l.dr
  match sh, widthOf l.ir with
  | .rr mk, .byte => some (mk a b)
  | .ri mk8 _, .byte => some (mk8 a b)
  | .ri _ mk16, .word => some (mk16 a l.dr)
  | .rd mk8 _ _, .byte => some (mk8 a b)
  | .rd _ mk16 _, .word => some (mk16 a l.dr)
  | .rd _ _ mk20, .long => some (mk20 a l.ad l.dr)
  | .r mk, .none => some (mk a)
  | .i mk8 _, .byte => some (mk8 b)
  | .i _ mk16, .word => some (mk16 l.dr)
  | .d mk8 _ _, .byte => some (mk8 b)
  | .d _ mk16 _, .word => some (mk16 l.dr)
  | .d _ _ mk20, .long => some (mk20 l.ad l.dr)
  | .n mk, .none => some mk
  | _, _ => none

/-- The decode of latched words (R107, R108, R110): lookup first, then the form checks. -/
def decodeLatches (N : Numbering) (l : Latches) (adhi : Nibble) : Except DecodeReject Instr :=
  match lookup N (opcodeByteOf l.ir) with
  | none => .error (.invalidOpcode (opcodeByteOf l.ir))
  | some row =>
    if checkForm row.shape.form l.ir adhi then
      match row.shape.build l with
      | some i => .ok i
      | none => .error (.badForm l.ir)
    else .error (.badForm l.ir)

/-- The latches and `adhi` that an instruction's bytes give, with the bytes after it (R90, R99, R100); `none` when
the bytes run out. -/
def latchBytes : List Byte → Option (Latches × Nibble × List Byte)
  | b0 :: b1 :: rest =>
    let ir := wordOfBytes b0 b1
    match widthOf ir, rest with
    | .byte, b :: tl => some (.ofByte ir b, 0, tl)
    | .word, hi :: lo :: tl => some (.ofWord ir (wordOfBytes hi lo), 0, tl)
    | .long, t :: hi :: lo :: tl => some (.ofLong ir t (wordOfBytes hi lo), adHigh t, tl)
    | .none, tl => some (.ofNone ir, 0, tl)
    | _, _ => none
  | _ => none

/-- The decoder on bytes, first byte at the lowest address: the instruction and the bytes after it. -/
def decodeWith (N : Numbering) (bs : List Byte) : Except DecodeReject (Instr × List Byte) :=
  match latchBytes bs with
  | none => .error .truncated
  | some (l, adhi, tl) => (decodeLatches N l adhi).map (fun i => (i, tl))

/-- The machine's decoder: the reference numbering (R92, R93). -/
def decode (bs : List Byte) : Except DecodeReject (Instr × List Byte) := decodeWith Config.numbering bs

/-! ## The encoder (R91, R94, R99, R122) -/

/-- The pieces of an encoding: what the opcode byte, the meta byte and the operand bytes are made of. -/
structure Parts where
  op : Opcode
  mode : Mode
  width : Width
  nibble : Nibble
  operand : List Byte

def Parts.rr (op : Opcode) (a : Nibble) (b : Byte) : Parts := ⟨op, .register, .byte, a, [b]⟩

def Parts.ri8 (op : Opcode) (a : Nibble) (v : Byte) : Parts := ⟨op, .immediate, .byte, a, [v]⟩

def Parts.ri16 (op : Opcode) (a : Nibble) (v : Word) : Parts := ⟨op, .immediate, .word, a, [hiByte v, loByte v]⟩

def Parts.rd8 (op : Opcode) (a : Nibble) (v : Byte) : Parts := ⟨op, .direct, .byte, a, [v]⟩

def Parts.rd16 (op : Opcode) (a : Nibble) (v : Word) : Parts := ⟨op, .direct, .word, a, [hiByte v, loByte v]⟩

def Parts.rd20 (op : Opcode) (a ad : Nibble) (lo : Word) : Parts :=
  ⟨op, .direct, .long, a, [ad.setWidth 8, hiByte lo, loByte lo]⟩

def Parts.r (op : Opcode) (a : Nibble) : Parts := ⟨op, .register, .none, a, []⟩

def Parts.i8 (op : Opcode) (v : Byte) : Parts := ⟨op, .immediate, .byte, 0, [v]⟩

def Parts.i16 (op : Opcode) (v : Word) : Parts := ⟨op, .immediate, .word, 0, [hiByte v, loByte v]⟩

def Parts.d8 (op : Opcode) (v : Byte) : Parts := ⟨op, .direct, .byte, 0, [v]⟩

def Parts.d16 (op : Opcode) (v : Word) : Parts := ⟨op, .direct, .word, 0, [hiByte v, loByte v]⟩

def Parts.d20 (op : Opcode) (ad : Nibble) (lo : Word) : Parts :=
  ⟨op, .direct, .long, 0, [ad.setWidth 8, hiByte lo, loByte lo]⟩

def Parts.n (op : Opcode) : Parts := ⟨op, .discard, .none, 0, []⟩

/-- The pieces of an instruction's encoding, one line for each row of the table. -/
def Instr.parts : Instr → Parts
  | .movRr a b => .rr .mov a b
  | .ldRi8 a imm => .ri8 .ld a imm
  | .ldRi16 a imm => .ri16 .ld a imm
  | .ldRr a b => .rr .ld a b
  | .ldRd8 a addr => .rd8 .ld a addr
  | .ldRd16 a addr => .rd16 .ld a addr
  | .ldRd20 a ad lo => .rd20 .ld a ad lo
  | .ldbRr a b => .rr .ldb a b
  | .ldbRd8 a addr => .rd8 .ldb a addr
  | .ldbRd16 a addr => .rd16 .ldb a addr
  | .ldbRd20 a ad lo => .rd20 .ldb a ad lo
  | .pshI8 imm => .i8 .psh imm
  | .pshI16 imm => .i16 .psh imm
  | .pshR a => .r .psh a
  | .pshD8 addr => .d8 .psh addr
  | .pshD16 addr => .d16 .psh addr
  | .pshD20 ad lo => .d20 .psh ad lo
  | .popR a => .r .pop a
  | .stRr a b => .rr .st a b
  | .stRd8 a addr => .rd8 .st a addr
  | .stRd16 a addr => .rd16 .st a addr
  | .stRd20 a ad lo => .rd20 .st a ad lo
  | .stlRr a b => .rr .stl a b
  | .stlRd8 a addr => .rd8 .stl a addr
  | .stlRd16 a addr => .rd16 .stl a addr
  | .stlRd20 a ad lo => .rd20 .stl a ad lo
  | .sthRr a b => .rr .sth a b
  | .sthRd8 a addr => .rd8 .sth a addr
  | .sthRd16 a addr => .rd16 .sth a addr
  | .sthRd20 a ad lo => .rd20 .sth a ad lo
  | .cmpRi8 a imm => .ri8 .cmp a imm
  | .cmpRi16 a imm => .ri16 .cmp a imm
  | .cmpRr a b => .rr .cmp a b
  | .beqD8 addr => .d8 .beq addr
  | .beqD16 addr => .d16 .beq addr
  | .beqD20 ad lo => .d20 .beq ad lo
  | .bgtD8 addr => .d8 .bgt addr
  | .bgtD16 addr => .d16 .bgt addr
  | .bgtD20 ad lo => .d20 .bgt ad lo
  | .bltD8 addr => .d8 .blt addr
  | .bltD16 addr => .d16 .blt addr
  | .bltD20 ad lo => .d20 .blt ad lo
  | .bofD8 addr => .d8 .bof addr
  | .bofD16 addr => .d16 .bof addr
  | .bofD20 ad lo => .d20 .bof ad lo
  | .bneD8 addr => .d8 .bne addr
  | .bneD16 addr => .d16 .bne addr
  | .bneD20 ad lo => .d20 .bne ad lo
  | .jmpD8 addr => .d8 .jmp addr
  | .jmpD16 addr => .d16 .jmp addr
  | .jmpD20 ad lo => .d20 .jmp ad lo
  | .jsrD8 addr => .d8 .jsr addr
  | .jsrD16 addr => .d16 .jsr addr
  | .jsrD20 ad lo => .d20 .jsr ad lo
  | .addRi8 a imm => .ri8 .add a imm
  | .addRi16 a imm => .ri16 .add a imm
  | .addRr a b => .rr .add a b
  | .subRi8 a imm => .ri8 .sub a imm
  | .subRi16 a imm => .ri16 .sub a imm
  | .subRr a b => .rr .sub a b
  | .retN => .n .ret
  | .hltN => .n .hlt
  | .nopN => .n .nop
  | .intI8 imm => .i8 .int imm
  | .intI16 imm => .i16 .int imm
  | .reiN => .n .rei
  | .andRi8 a imm => .ri8 .and a imm
  | .andRi16 a imm => .ri16 .and a imm
  | .andRr a b => .rr .and a b
  | .orRi8 a imm => .ri8 .or a imm
  | .orRi16 a imm => .ri16 .or a imm
  | .orRr a b => .rr .or a b
  | .xorRi8 a imm => .ri8 .xor a imm
  | .xorRi16 a imm => .ri16 .xor a imm
  | .xorRr a b => .rr .xor a b
  | .lshRi8 a imm => .ri8 .lsh a imm
  | .lshRi16 a imm => .ri16 .lsh a imm
  | .lshRr a b => .rr .lsh a b
  | .rshRi8 a imm => .ri8 .rsh a imm
  | .rshRi16 a imm => .ri16 .rsh a imm
  | .rshRr a b => .rr .rsh a b
  | .mulRi8 a imm => .ri8 .mul a imm
  | .mulRi16 a imm => .ri16 .mul a imm
  | .mulRr a b => .rr .mul a b
  | .modRi8 a imm => .ri8 .mod a imm
  | .modRi16 a imm => .ri16 .mod a imm
  | .modRr a b => .rr .mod a b
  | .bgeD8 addr => .d8 .bge addr
  | .bgeD16 addr => .d16 .bge addr
  | .bgeD20 ad lo => .d20 .bge ad lo
  | .bleD8 addr => .d8 .ble addr
  | .bleD16 addr => .d16 .ble addr
  | .bleD20 ad lo => .d20 .ble ad lo

/-- The bytes of an instruction under a numbering. -/
def encodeWith (N : Numbering) (i : Instr) : List Byte :=
  N.opcodeByte i.parts.op i.parts.mode :: metaByte i.parts.nibble i.parts.width :: i.parts.operand

/-- The machine's encoding of an instruction (R92, R93). -/
def encode (i : Instr) : List Byte := encodeWith Config.numbering i

/-- The length in bytes, as its width code fixes it (R90, R99). -/
def Instr.length (i : Instr) : Nat := i.parts.width.length

/-- Bits `lo + 7` down to `lo` of a table word. -/
def tableByte (w lo : Nat) : Byte := BitVec.ofNat 8 (w >>> lo)

/-- The bytes of an instruction given as one number, bit 0 the least significant bit of its first 16-bit word (the
opcode word, big-endian: opcode byte in bits 15:8, as spec/opcode_table.json numbers it), later words' bits counting
on from bit 16, bits at `nbits` and above 0. An operand word is laid out big-endian, a lone operand byte is bits
23:16 (log entry 13). Always five bytes, the longest instruction's. -/
def tableBytes (nbits w : Nat) : List Byte :=
  let v := w % 2 ^ nbits
  let b0 := tableByte v 8
  let b1 := tableByte v 0
  match widthOf (wordOfBytes b0 b1) with
  | .byte => [b0, b1, tableByte v 16, tableByte v 24, tableByte v 32]
  | .word => [b0, b1, tableByte v 24, tableByte v 16, tableByte v 32]
  | .long => [b0, b1, tableByte v 16, tableByte v 32, tableByte v 24]
  | .none => [b0, b1, tableByte v 16, tableByte v 24, tableByte v 32]

/-- The instruction the machine's decoder reads from a table word. -/
def decodeTableWord (nbits w : Nat) : Option Instr :=
  match decode (tableBytes nbits w) with
  | .ok (i, _) => some i
  | .error _ => none

end Sys2Proof
end

