-- ==== Sys2Proof/Machine/State.lean ====
section
/-! DEFINITION. The state of YuCPU as plain data (10_state.md R20 to R37, 20_memory.md R50 to R63, 60_exceptions.md
R330, R362, R364), the reasons a step stops, and the state after reset. -/

namespace Sys2Proof.Machine

/-- The nine registers by name; decoder indices 0..8 in this order (R20). -/
inductive Reg where
  | r1 | r2 | r3 | r4 | r5 | r6 | pc | sp | bp
  deriving DecidableEq, Repr

/-- The register file (R20 to R23). -/
structure Regs where
  r1 : Word
  r2 : Word
  r3 : Word
  r4 : Word
  r5 : Word
  r6 : Word
  pc : Word
  sp : Word
  bp : Word
  deriving DecidableEq, Repr

/-- The five flags (R24): zero, overflow, less, greater, long form. -/
structure Flags where
  z : Bool
  o : Bool
  l : Bool
  g : Bool
  d : Bool
  deriving DecidableEq, Repr

/-- The interrupt-request latch (R30): numbers are 0..254. -/
structure Irq where
  pending : Bool
  number : Fin 255
  deriving DecidableEq, Repr

/-- Bytes by bus address: strictly rising addresses, no entry that an unlisted address would read as. -/
abbrev Memory := List Host.Cell

/-- The kinds of device (R52). `custom` carries the readable and writable bits of a device of another kind. -/
inductive DeviceKind where
  | rom
  | ram
  | display
  | custom (readable writable : Bool)
  deriving DecidableEq, Repr

/-- A bus device (R50, R53): its kind, its inclusive range, and its own storage, keyed by bus address. -/
structure Device where
  kind : DeviceKind
  first : Addr
  last : Addr
  cells : Memory
  deriving DecidableEq, Repr

/-- An input event of the host's FIFO (R364); the spec gives a key no width. -/
inductive KeyEvent where
  | down (key : Nat)
  | up (key : Nat)
  deriving DecidableEq, Repr

/-- What the bus answers when it does not serve an access (R56, R57). -/
inductive BusError where
  /-- No device claims the address (R56). -/
  | noDevices
  /-- A write to a device that cannot be written (R51). -/
  | readOnly
  /-- A read of a device that cannot be read (R51). -/
  | writeOnly
  /-- A word access at a device's last byte (R54). -/
  | straddle
  deriving DecidableEq, Repr

/-- The fault kinds of R330 with their information. Each ends the run (R331) as the spec says, so each is safe. -/
inductive Fault where
  /-- `BusError(kind, address)`: raised by any fetch, load, store, push, pop or vector read that the bus does not
  serve (R58); the address is the one the CPU passed. Safe: the spec's own stop. -/
  | bus (kind : BusError) (address : Nat)
  /-- `DecodeError(InvalidOpcode, opcode byte)`: raised by decode (R108). Safe: the spec's own stop. -/
  | invalidOpcode (opcode : Byte)
  /-- `DecodeError(BadForm, opcode word)`: raised by decode (R107). Safe: the spec's own stop. -/
  | badForm (ir : Word)
  /-- `ExecutionFault(InvalidRegister, index)`: raised by every executor with a register operand (R105, R336).
  Safe: the spec's own stop. -/
  | invalidRegister (index : Nat)
  /-- `ExecutionFault(StackUnderflow, sp)`: raised by POP, RET, REI (R171). Safe: the spec's own stop. -/
  | stackUnderflow (sp : Word)
  /-- `ExecutionFault(DivideByZero)`: raised by MOD (R240). Safe: the spec's own stop. -/
  | divideByZero
  /-- `ExecutionFault(StackOverflow, sp)`: raised by PSH, JSR and interrupt entry (R170). Safe: the spec's own stop. -/
  | stackOverflow (sp : Word)
  /-- `ExecutionFault(PcOverflow, pc)`: raised by every advancing executor and by JSR (R115, R272). Safe: the spec's
  own stop. -/
  | pcOverflow (pc : Word)
  /-- `ExecutionFault(TargetOutOfRange, 20-bit target)`: raised by branches, JMP and JSR (R260). Safe: the spec's
  own stop. -/
  | targetOutOfRange (target : Addr)
  /-- `ExecutionFault(ShiftOverflow, amount)`: raised by LSH and RSH (R225, R228). Safe: the spec's own stop. -/
  | shiftOverflow (amount : Word)
  /-- `ExecutionFault(InvalidInterrupt, number)`: raised by INT (R305). Safe: the spec's own stop. -/
  | invalidInterrupt (number : Word)
  deriving DecidableEq, Repr

/-- Why an instruction has no meaning in the model. -/
inductive Refusal where
  /-- Raised only by an arm of `exec` whose instruction is not modelled yet; no arm is left. Safe. -/
  | notModelled (mnemonic : String)
  deriving DecidableEq, Repr

/-- Everything the spec gives the machine. -/
structure State where
  /-- R20 to R23 -/
  regs : Regs
  /-- R24 -/
  flags : Flags
  /-- R29 -/
  running : Bool
  /-- R30 -/
  irq : Irq
  /-- R31 -/
  latches : Latches
  /-- R32 -/
  fault : Option Fault
  /-- The bus's device list in probe order (R55, R60), each device with its storage. -/
  devices : List Device
  /-- The host's queue of pending input events, oldest first (R364). -/
  input : List KeyEvent
  /-- The host's stop flag, checked once per tick by the run loop (R362). -/
  stopRequested : Bool
  deriving DecidableEq, Repr

/-- The register file at reset: all zero (R37). -/
def Regs.zero : Regs := ⟨0, 0, 0, 0, 0, 0, 0, 0, 0⟩

/-- The flags at reset: all zero (R37). -/
def Flags.zero : Flags := ⟨false, false, false, false, false⟩

/-- The reference map of R62 with nothing listed: RAM, then ROM. -/
def referenceDevices : List Device :=
  [⟨.ram, Config.ramFirst, Config.ramLast, []⟩, ⟨.rom, Config.romFirst, Config.romLast, []⟩]

/-- The machine right after reset (R37, R380): every value the table of R37 gives. The device list is the parameter
`DEVICES`, here the reference map (log entry 2); the PC is the reset value 0, before the host installs `ENTRY_PC`
(log entry 4); the input queue and the stop flag are the host's (log entries 8 and 9). -/
def State.reset : State where
  regs := Regs.zero
  flags := Flags.zero
  running := true
  irq := ⟨false, 0⟩
  latches := Latches.clear
  fault := none
  devices := referenceDevices
  input := []
  stopRequested := false

end Sys2Proof.Machine
end

