-- ==== Sys2Proof/Machine/Bus.lean ====
section
/-! DEFINITION. The device bus (20_memory.md R50 to R61): a device's storage, the device contract, the arbiter, and the
CPU's memory primitives (R10, R58). Bus addresses are Nats here; the CPU forms them from 20-bit or 16-bit values
without wrap-around (R59). -/

namespace Sys2Proof.Machine

/-! ## A device's storage -/

/-- The canonical form: strictly rising addresses, no entry equal to what an unlisted address reads as. -/
abbrev Memory.wf (m : Memory) : Prop :=
  m.Pairwise (fun c c' => c.1 < c'.1) ∧ ∀ c ∈ m, c.2 ≠ Config.unlistedByte

/-- The byte at an address. The search ends at the first higher address, so it is a sorted list's lookup and still one
value on any list. -/
def Memory.read : Memory → Nat → Byte
  | [], _ => Config.unlistedByte
  | (k, b) :: m, a => if a < k then Config.unlistedByte else if k = a then b else Memory.read m a

/-- Put a byte in front of higher addresses; a byte that an unlisted address reads as is not listed. -/
def Memory.cons (a : Nat) (v : Byte) (m : Memory) : Memory :=
  if v = Config.unlistedByte then m else (a, v) :: m

/-- Store a byte at an address, keeping the canonical form. Of a list that is out of order, the entries at or below
`a` that follow it are dropped, so that the read laws hold of every list. -/
def Memory.write : Memory → Nat → Byte → Memory
  | [], a, v => Memory.cons a v []
  | (k, b) :: m, a, v =>
    if a < k then Memory.cons a v ((k, b) :: m)
    else if k = a then Memory.cons a v (m.dropWhile (fun c => decide (c.1 ≤ a)))
    else (k, b) :: Memory.write m a v

/-! ## The device contract (R50 to R54) -/

/-- Whether the kind can be read (R52). -/
def DeviceKind.readable : DeviceKind → Bool
  | .rom | .ram | .display => true
  | .custom r _ => r

/-- Whether the kind can be written (R52). -/
def DeviceKind.writable : DeviceKind → Bool
  | .ram | .display => true
  | .rom => false
  | .custom _ w => w

/-- `name`, a diagnostic that changes no state (R50). DESIGN CHOICE (log entry 23): the spec gives `name` no value; the
four strings are the model's. -/
def DeviceKind.name : DeviceKind → String
  | .rom => "ROM"
  | .ram => "RAM"
  | .display => "display"
  | .custom _ _ => "custom"

/-- `memory-dump`, a diagnostic that changes no state (R50). DESIGN CHOICE (log entry 23): the spec calls its result any
value (I4); the model gives the listed bytes, which leave out every byte that reads as an unlisted one. -/
def Device.dump (d : Device) : List Host.Cell := d.cells

/-- The answers of a device operation (R51, R54). -/
inductive Answer (α : Type) where
  | notMyAddress
  | readOnly
  | writeOnly
  | straddle
  | ok (value : α)
  deriving DecidableEq, Repr

/-- The device claims the address: it is inside the inclusive range (R50, R51). -/
def Device.owns (d : Device) (a : Nat) : Bool := decide (d.first.toNat ≤ a) && decide (a ≤ d.last.toNat)

/-- The stored word at `a`, high byte first (R53). -/
def Device.wordAt (d : Device) (a : Nat) : Word := wordOfBytes (d.cells.read a) (d.cells.read (a + 1))

/-- The device with a byte stored at `a` (R53). -/
def Device.putByte (d : Device) (a : Nat) (v : Byte) : Device := { d with cells := d.cells.write a v }

/-- The device with a word stored at `a`, high byte first (R53). -/
def Device.putWord (d : Device) (a : Nat) (v : Word) : Device :=
  { d with cells := (d.cells.write a (hiByte v)).write (a + 1) (loByte v) }

/-- `read_byte` (R51, R53). -/
def Device.readByte (d : Device) (a : Nat) : Answer Byte :=
  if d.owns a then
    if d.kind.readable then .ok (d.cells.read a) else .writeOnly
  else .notMyAddress

/-- `read` (R51, R53, R54). The permission answer comes before `Straddle`: log entry 6. -/
def Device.readWord (d : Device) (a : Nat) : Answer Word :=
  if d.owns a then
    if d.kind.readable then
      if a = d.last.toNat then .straddle else .ok (d.wordAt a)
    else .writeOnly
  else .notMyAddress

/-- `write_byte` (R51, R53): the device after the store. -/
def Device.writeByte (d : Device) (a : Nat) (v : Byte) : Answer Device :=
  if d.owns a then
    if d.kind.writable then .ok (d.putByte a v) else .readOnly
  else .notMyAddress

/-- `write` (R51, R53, R54): the device after the store; no byte is written where it answers otherwise. -/
def Device.writeWord (d : Device) (a : Nat) (v : Word) : Answer Device :=
  if d.owns a then
    if d.kind.writable then
      if a = d.last.toNat then .straddle else .ok (d.putWord a v)
    else .readOnly
  else .notMyAddress

/-! ## The arbiter (R55, R56) -/

/-- `BusOp` for the two reads: probe in insertion order, first answer other than `NotMyAddress` wins. -/
def busRead {α : Type} (op : Device → Answer α) : List Device → Except BusError α
  | [] => .error .noDevices
  | d :: ds =>
    match op d with
    | .notMyAddress => busRead op ds
    | .readOnly => .error .readOnly
    | .writeOnly => .error .writeOnly
    | .straddle => .error .straddle
    | .ok v => .ok v

/-- `BusOp` for the two writes: the answering device is replaced by what it has become, every other is unchanged. -/
def busWrite (op : Device → Answer Device) : List Device → Except BusError (List Device)
  | [] => .error .noDevices
  | d :: ds =>
    match op d with
    | .notMyAddress => (busWrite op ds).map (fun ds' => d :: ds')
    | .readOnly => .error .readOnly
    | .writeOnly => .error .writeOnly
    | .straddle => .error .straddle
    | .ok d' => .ok (d' :: ds)

/-- The device that answers for an address: the first that claims it (R55, R56). -/
def arbitrate (ds : List Device) (a : Nat) : Option Device := ds.find? (fun d => d.owns a)

/-- Store a byte in the device that answers for the address, whatever its kind: the host's filling of a device before
the run (R63, R382), no operation of the CPU. An address no device claims is left out. -/
def pokeByte : List Device → Nat → Byte → List Device
  | [], _, _ => []
  | d :: ds, a, v => if d.owns a then d.putByte a v :: ds else d :: pokeByte ds a v

/-- `pokeByte` for a run of bytes from an address up. -/
def pokeBytes (ds : List Device) (a : Nat) : List Byte → List Device
  | [] => ds
  | b :: bs => pokeBytes (pokeByte ds a b) (a + 1) bs

/-! ## The CPU's memory primitives (R10, R58) -/

/-- A bus error becomes the fault that carries the address the CPU passed (R58). -/
def busFault {α : Type} (a : Nat) : Except BusError α → Except Fault α
  | .ok v => .ok v
  | .error k => .error (.bus k a)

/-- `MemRead(a, 1)`. -/
def memReadByte (a : Nat) (s : State) : Except Fault Byte :=
  busFault a (busRead (fun d => d.readByte a) s.devices)

/-- `MemRead(a, 2)`. -/
def memReadWord (a : Nat) (s : State) : Except Fault Word :=
  busFault a (busRead (fun d => d.readWord a) s.devices)

/-- `MemWrite(a, 1, v)`. -/
def memWriteByte (a : Nat) (v : Byte) (s : State) : Except Fault State :=
  (busFault a (busWrite (fun d => d.writeByte a v) s.devices)).map (fun ds => { s with devices := ds })

/-- `MemWrite(a, 2, v)`. -/
def memWriteWord (a : Nat) (v : Word) (s : State) : Except Fault State :=
  (busFault a (busWrite (fun d => d.writeWord a v) s.devices)).map (fun ds => { s with devices := ds })

end Sys2Proof.Machine
end

