-- ==== Sys2Proof/Machine/Flags.lean ====
section
/-! DEFINITION. Every flag computation of the spec: the flags word (R27), CMP's three flags (R200), the overflow flag
of ADD, SUB and MUL (R205, R208, R235), and the branch conditions (R262 to R268). -/

namespace Sys2Proof.Machine

/-- The flags as one word (R27): bit 0 Z, bit 1 O, bit 2 L, bit 3 G, bit 4 D, the rest 0. -/
def flagsWord (f : Flags) : Word :=
  BitVec.ofNat 16 (f.z.toNat + 2 * f.o.toNat + 4 * f.l.toNat + 8 * f.g.toNat + 16 * f.d.toNat)

/-- The flags a popped word restores (R27, R310): bits 15:5 are ignored. -/
def flagsOfWord (w : Word) : Flags :=
  ⟨w.getLsbD 0, w.getLsbD 1, w.getLsbD 2, w.getLsbD 3, w.getLsbD 4⟩

/-- CMP of `x` with `y`, unsigned (R200): Z, L and G written, O and D unchanged. -/
def compareFlags (x y : Word) (f : Flags) : Flags :=
  { f with
    z := decide (x = y)
    l := decide (x.toNat < y.toNat)
    g := decide (y.toNat < x.toNat) }

/-- The overflow flag and nothing else. -/
def withOverflow (o : Bool) (f : Flags) : Flags := { f with o := o }

/-- ADD's unsigned carry out (R205). -/
def addOverflow (x y : Word) : Bool := decide (0xFFFF < x.toNat + y.toNat)

/-- SUB's unsigned borrow (R208). -/
def subOverflow (x y : Word) : Bool := decide (x.toNat < y.toNat)

/-- MUL's lost high half (R235). -/
def mulOverflow (x y : Word) : Bool := decide (0xFFFF < x.toNat * y.toNat)

/-- BEQ (R262). -/
def condEq (f : Flags) : Bool := f.z

/-- BGT (R263). -/
def condGt (f : Flags) : Bool := f.g

/-- BLT (R264). -/
def condLt (f : Flags) : Bool := f.l

/-- BOF (R265). -/
def condOverflow (f : Flags) : Bool := f.o

/-- BNE (R266). -/
def condNe (f : Flags) : Bool := !f.z

/-- BGE (R267). -/
def condGe (f : Flags) : Bool := f.g || f.z

/-- BLE (R268). -/
def condLe (f : Flags) : Bool := f.l || f.z

end Sys2Proof.Machine
end

