-- ==== Sys2Proof/Machine/Ops.lean ====
section
/-! DEFINITION. The named operations over registers and memory: register access, `advance` (R115), the stack
primitives (R170, R171), fetch and decode (R100, R107, R108), interrupt entry and the return from it (R340, R310), and
the parts of a tick around an executor (R111). -/

namespace Sys2Proof.Machine

/-! ## Registers (R9, R20) -/

/-- The register a decoder index names; no index above 8 names one (R20). -/
def Reg.ofIndex (n : Nat) : Option Reg :=
  match n with
  | 0 => some .r1
  | 1 => some .r2
  | 2 => some .r3
  | 3 => some .r4
  | 4 => some .r5
  | 5 => some .r6
  | 6 => some .pc
  | 7 => some .sp
  | 8 => some .bp
  | _ => none

/-- `x[i]` (R9). -/
def Regs.get (r : Regs) : Reg → Word
  | .r1 => r.r1
  | .r2 => r.r2
  | .r3 => r.r3
  | .r4 => r.r4
  | .r5 => r.r5
  | .r6 => r.r6
  | .pc => r.pc
  | .sp => r.sp
  | .bp => r.bp

/-- `x[i] <- v` (R9). -/
def Regs.set (r : Regs) (x : Reg) (v : Word) : Regs :=
  match x with
  | .r1 => { r with r1 := v }
  | .r2 => { r with r2 := v }
  | .r3 => { r with r3 := v }
  | .r4 => { r with r4 := v }
  | .r5 => { r with r5 := v }
  | .r6 => { r with r6 := v }
  | .pc => { r with pc := v }
  | .sp => { r with sp := v }
  | .bp => { r with bp := v }

def State.getReg (s : State) (x : Reg) : Word := s.regs.get x

def State.setReg (s : State) (x : Reg) (v : Word) : State := { s with regs := s.regs.set x v }

def State.setFlags (s : State) (f : Flags) : State := { s with flags := f }

def State.setRunning (s : State) (b : Bool) : State := { s with running := b }

def State.setIrq (s : State) (q : Irq) : State := { s with irq := q }

def State.setLatches (s : State) (l : Latches) : State := { s with latches := l }

def State.setDevices (s : State) (ds : List Device) : State := { s with devices := ds }

def State.setFault (s : State) (k : Option Fault) : State := { s with fault := k }

def State.setInput (s : State) (q : List KeyEvent) : State := { s with input := q }

def State.setStopRequested (s : State) (b : Bool) : State := { s with stopRequested := b }

/-- `advance()` (R115): the PC moves past the instruction and does not wrap. -/
def advance (len : Nat) (s : State) : Except Fault State :=
  if 0xFFFF < s.regs.pc.toNat + len then .error (.pcOverflow s.regs.pc)
  else .ok (s.setReg .pc (s.regs.pc + BitVec.ofNat 16 len))

/-! ## The stack (R170, R171) -/

/-- `Push(v)`: write, then SP grows by 2. -/
def push (v : Word) (s : State) : Except Fault State :=
  if 0xFFFD < s.regs.sp.toNat then .error (.stackOverflow s.regs.sp)
  else do
    let s' ← memWriteWord s.regs.sp.toNat v s
    .ok (s'.setReg .sp (s.regs.sp + 2))

/-- `Push` of each word in turn. -/
def pushAll : List Word → State → Except Fault State
  | [], s => .ok s
  | v :: vs, s => do
    let s' ← push v s
    pushAll vs s'

/-- `Pop()`: SP shrinks by 2, then the read. The state is the one whose SP has shrunk. -/
def pop (s : State) : Except Fault (Word × State) :=
  if s.regs.sp.toNat < 2 then .error (.stackUnderflow s.regs.sp)
  else do
    let s' := s.setReg .sp (s.regs.sp - 2)
    let v ← memReadWord s'.regs.sp.toNat s'
    .ok (v, s')

/-- `x[i] <- Pop()` for each register in turn. -/
def popRegs : List Reg → State → Except Fault State
  | [], s => .ok s
  | x :: xs, s => do
    let (v, s') ← pop s
    popRegs xs (s'.setReg x v)

/-! ## Taking an interrupt and returning from it -/

/-- The registers interrupt entry saves, in the order it pushes them (R340). -/
def savedRegs : List Reg := [.r1, .r2, .r3, .r4, .r5, .r6]

/-- The words of an interrupt frame from its lowest address up: R1 to R6, the flags word, the return PC (R345). -/
def interruptFrame (s : State) : List Word :=
  savedRegs.map s.getReg ++ [flagsWord s.flags, s.regs.pc]

/-- The bus address of IVT slot `n` (R340). -/
def vectorAddr (n : Fin 255) : Nat := Config.ivtBase + 2 * n.val

/-- The latch is cleared (R30, R340, R341; as T110 and T111 have it, both of its parts: log entry 5). -/
def State.clearIrq (s : State) : State := s.setIrq ⟨false, 0⟩

/-- `InterruptDispatch` (R340): read the vector; a zero vector drops the request (R341); otherwise push the frame and
go to the vector. The latch is cleared in both cases. -/
def interruptDispatch (s : State) : Except Fault State := do
  let v ← memReadWord (vectorAddr s.irq.number) s
  if v = 0 then .ok s.clearIrq
  else do
    let s' ← pushAll (interruptFrame s) s
    .ok (s'.setReg .pc v).clearIrq

/-- REI's effect, the reverse of interrupt entry (R310): PC, the flags word, then R6 down to R1. -/
def returnFromInterrupt (s : State) : Except Fault State := do
  let (ret, s1) ← pop s
  let (w, s2) ← pop (s1.setReg .pc ret)
  popRegs savedRegs.reverse (s2.setFlags (flagsOfWord w))

/-! ## Fetch and decode (R100, R107, R108) -/

/-- The state with the latches of a fetch, and the D flag its width code gives (R100, R104). -/
def State.latched (s : State) (l : Latches) : State :=
  { s with
    latches := l
    flags := { s.flags with d := decide (widthOf l.ir = .long) } }

/-- `Fetch()` (R100): the opcode word at PC, then the operand bytes its width code asks for; the second part of the
answer is `adhi`. -/
def fetch (s : State) : Except Fault (State × Nibble) := do
  let p := s.regs.pc.toNat
  let ir ← memReadWord p s
  match widthOf ir with
  | .byte => do
    let b ← memReadByte (p + 2) s
    .ok (s.latched (.ofByte ir b), 0)
  | .word => do
    let w ← memReadWord (p + 2) s
    .ok (s.latched (.ofWord ir w), 0)
  | .long => do
    let t ← memReadByte (p + 2) s
    let w ← memReadWord (p + 3) s
    .ok (s.latched (.ofLong ir t w), adHigh t)
  | .none => .ok (s.latched (.ofNone ir), 0)

/-- A rejected decode is the fault of its name (R107, R108). The machine never decodes a list that runs out, so
`truncated` does not occur; it is given the fault of an unknown opcode byte. -/
def rejectFault : DecodeReject → Fault
  | .invalidOpcode b => .invalidOpcode b
  | .badForm ir => .badForm ir
  | .truncated => .invalidOpcode 0

/-- The lookup and the form checks on latched words (R107, R108), a rejection being its fault. -/
def decodeFault (r : Except DecodeReject Instr) : Except Fault Instr :=
  match r with
  | .ok i => .ok i
  | .error k => .error (rejectFault k)

/-- Steps 2 to 4 of a tick (R111) under a numbering (R6): the latched state and the instruction. -/
def fetchDecode (N : Numbering) (s : State) : Except Fault (State × Instr) := do
  let (s', adhi) ← fetch s
  let i ← decodeFault (decodeLatches N s'.latches adhi)
  .ok (s', i)

/-! ## Around an executor (R111) -/

/-- What an executor answers: the next state or the fault it raised (R11). -/
def outcome : Except Fault State → Host.Outcome State Fault Refusal
  | .ok s => .next s
  | .error k => .fault k

/-- Step 6 of a tick: the decode latches are cleared (R31, R111). -/
def State.clearLatches (s : State) : State := s.setLatches Latches.clear

/-- The end of a tick: a next state has its latches cleared, a fault ends the tick where it was raised (R111). -/
def endTick : Host.Outcome State Fault Refusal → Host.Outcome State Fault Refusal
  | .next s => .next s.clearLatches
  | .fault k => .fault k
  | .refused r => .refused r

/-- The state with bytes stored where its next tick fetches, and nothing that keeps that tick from fetching: no
recorded fault, running, no pending request. -/
def State.placeForFetch (s : State) (bs : List Byte) : State :=
  { s with
    devices := pokeBytes s.devices s.regs.pc.toNat bs
    fault := none
    running := true
    irq := { s.irq with pending := false } }

end Sys2Proof.Machine
end

