-- ==== Sys2Proof/Machine/Operands.lean ====
section
/-! DEFINITION. Every operand form of R101: register fields (R105), second operands (41_arith_logic.md), places in memory
(R103 and register-indirect), and control targets (R260). Each carries the length its width code gives (R99). -/

namespace Sys2Proof.Machine

/-- The check of a register index (R105, R336): above 8 it raises InvalidRegister. -/
def regIndex (n : Nat) : Except Fault Reg :=
  match Reg.ofIndex n with
  | some x => .ok x
  | none => .error (.invalidRegister n)

/-- An 8-bit immediate is zero-extended (R102). -/
def imm8 (v : Byte) : Word := v.setWidth 16

/-- `zext_20` of a byte (R103, W = 00). -/
def ea8 (v : Byte) : Addr := v.setWidth 20

/-- `zext_20` of a word (R59, R103, W = 01). -/
def ea16 (v : Word) : Addr := v.setWidth 20

/-- The long address, AD nibble above the low word (R103, W = 10). -/
def ea20 (ad : Nibble) (lo : Word) : Addr := ad ++ lo

/-! ## Second operands: an immediate or a register -/

inductive Src where
  | imm8 (v : Byte)
  | imm16 (v : Word)
  | reg (b : Byte)
  deriving DecidableEq, Repr

/-- The length of an instruction with this second operand (R99, R101). -/
def Src.len : Src → Nat
  | .imm8 _ => 3
  | .imm16 _ => 4
  | .reg _ => 3

/-- The operand's value (R101, R102); a register index is checked first (R105). -/
def Src.value (y : Src) (s : State) : Except Fault Word :=
  match y with
  | .imm8 v => .ok (Machine.imm8 v)
  | .imm16 v => .ok v
  | .reg b => (regIndex b.toNat).map s.getReg

/-! ## Places in memory: direct, long, or register-indirect -/

inductive Place where
  | abs8 (v : Byte)
  | abs16 (v : Word)
  | abs20 (ad : Nibble) (lo : Word)
  | ind (b : Byte)
  deriving DecidableEq, Repr

/-- The length of an instruction with this place (R99, R101). -/
def Place.len : Place → Nat
  | .abs8 _ => 3
  | .abs16 _ => 4
  | .abs20 _ _ => 5
  | .ind _ => 3

/-- The bus address (R59, R103); a register index is checked first (R105). -/
def Place.addr (p : Place) (s : State) : Except Fault Addr :=
  match p with
  | .abs8 v => .ok (ea8 v)
  | .abs16 v => .ok (ea16 v)
  | .abs20 ad lo => .ok (ea20 ad lo)
  | .ind b => (regIndex b.toNat).map (fun x => ea16 (s.getReg x))

/-! ## Control targets -/

inductive Target where
  | abs8 (v : Byte)
  | abs16 (v : Word)
  | abs20 (ad : Nibble) (lo : Word)
  deriving DecidableEq, Repr

/-- The length of an instruction with this target (R99, R101). -/
def Target.len : Target → Nat
  | .abs8 _ => 3
  | .abs16 _ => 4
  | .abs20 _ _ => 5

/-- `Target()` (R260): the operand value; a long target above 0xFFFF faults. -/
def Target.value : Target → Except Fault Word
  | .abs8 v => .ok (v.setWidth 16)
  | .abs16 v => .ok v
  | .abs20 ad lo => if ad = 0 then .ok lo else .error (.targetOutOfRange (ea20 ad lo))

end Sys2Proof.Machine
end

