-- ==== Sys2Proof/Machine/ArithLogic.lean ====
section
/-! DEFINITION. Compare, arithmetic and logic (41_arith_logic.md): CMP, ADD, SUB, AND, OR, XOR, LSH, RSH, MUL, MOD. An
instruction is its effect on a register and a second operand, run by one shared operation. -/

namespace Sys2Proof.Machine

/-- The frame of the family: check A, then the second operand (B checked), then the effect, then `advance()`. -/
def withOperands (effect : Reg → Word → State → Except Fault State) (a : Nibble) (y : Src) (s : State) :
    Except Fault State := do
  let x ← regIndex a.toNat
  let v ← y.value s
  let s' ← effect x v s
  advance y.len s'

/-- R200: Z, L and G only. -/
def cmpEffect (x : Reg) (v : Word) (s : State) : Except Fault State :=
  .ok (s.setFlags (compareFlags (s.getReg x) v s.flags))

/-- R205: the sum modulo 2^16, O the carry out. -/
def addEffect (x : Reg) (v : Word) (s : State) : Except Fault State :=
  .ok ((s.setReg x (s.getReg x + v)).setFlags (withOverflow (addOverflow (s.getReg x) v) s.flags))

/-- R208: the difference modulo 2^16, O the borrow. -/
def subEffect (x : Reg) (v : Word) (s : State) : Except Fault State :=
  .ok ((s.setReg x (s.getReg x - v)).setFlags (withOverflow (subOverflow (s.getReg x) v) s.flags))

/-- R215 -/
def andEffect (x : Reg) (v : Word) (s : State) : Except Fault State :=
  .ok (s.setReg x (s.getReg x &&& v))

/-- R218 -/
def orEffect (x : Reg) (v : Word) (s : State) : Except Fault State :=
  .ok (s.setReg x (s.getReg x ||| v))

/-- R221 -/
def xorEffect (x : Reg) (v : Word) (s : State) : Except Fault State :=
  .ok (s.setReg x (s.getReg x ^^^ v))

/-- R225: an amount above 15 faults. -/
def lshEffect (x : Reg) (v : Word) (s : State) : Except Fault State :=
  if 15 < v.toNat then .error (.shiftOverflow v) else .ok (s.setReg x (s.getReg x <<< v.toNat))

/-- R228: zero fill; an amount above 15 faults. -/
def rshEffect (x : Reg) (v : Word) (s : State) : Except Fault State :=
  if 15 < v.toNat then .error (.shiftOverflow v) else .ok (s.setReg x (s.getReg x >>> v.toNat))

/-- R235: the low half of the unsigned product, O whether the high half is lost. -/
def mulEffect (x : Reg) (v : Word) (s : State) : Except Fault State :=
  .ok ((s.setReg x (s.getReg x * v)).setFlags (withOverflow (mulOverflow (s.getReg x) v) s.flags))

/-- R240: the unsigned remainder; a zero divisor faults. -/
def modEffect (x : Reg) (v : Word) (s : State) : Except Fault State :=
  if v = 0 then .error .divideByZero else .ok (s.setReg x (s.getReg x % v))

/-- CMP rA, imm, form RI, length 3 (R200). -/
def execCmpRi8 (a : Nibble) (imm : Byte) (s : State) : Host.Outcome State Fault Refusal :=
  outcome (withOperands cmpEffect a (.imm8 imm) s)

/-- CMP rA, imm, form RI, length 4 (R200). -/
def execCmpRi16 (a : Nibble) (imm : Word) (s : State) : Host.Outcome State Fault Refusal :=
  outcome (withOperands cmpEffect a (.imm16 imm) s)

/-- CMP rA, rB, form RR, length 3 (R200). -/
def execCmpRr (a : Nibble) (b : Byte) (s : State) : Host.Outcome State Fault Refusal :=
  outcome (withOperands cmpEffect a (.reg b) s)

/-- ADD rA, imm, form RI, length 3 (R205). -/
def execAddRi8 (a : Nibble) (imm : Byte) (s : State) : Host.Outcome State Fault Refusal :=
  outcome (withOperands addEffect a (.imm8 imm) s)

/-- ADD rA, imm, form RI, length 4 (R205). -/
def execAddRi16 (a : Nibble) (imm : Word) (s : State) : Host.Outcome State Fault Refusal :=
  outcome (withOperands addEffect a (.imm16 imm) s)

/-- ADD rA, rB, form RR, length 3 (R205). -/
def execAddRr (a : Nibble) (b : Byte) (s : State) : Host.Outcome State Fault Refusal :=
  outcome (withOperands addEffect a (.reg b) s)

/-- SUB rA, imm, form RI, length 3 (R208). -/
def execSubRi8 (a : Nibble) (imm : Byte) (s : State) : Host.Outcome State Fault Refusal :=
  outcome (withOperands subEffect a (.imm8 imm) s)

/-- SUB rA, imm, form RI, length 4 (R208). -/
def execSubRi16 (a : Nibble) (imm : Word) (s : State) : Host.Outcome State Fault Refusal :=
  outcome (withOperands subEffect a (.imm16 imm) s)

/-- SUB rA, rB, form RR, length 3 (R208). -/
def execSubRr (a : Nibble) (b : Byte) (s : State) : Host.Outcome State Fault Refusal :=
  outcome (withOperands subEffect a (.reg b) s)

/-- AND rA, imm, form RI, length 3 (R215). -/
def execAndRi8 (a : Nibble) (imm : Byte) (s : State) : Host.Outcome State Fault Refusal :=
  outcome (withOperands andEffect a (.imm8 imm) s)

/-- AND rA, imm, form RI, length 4 (R215). -/
def execAndRi16 (a : Nibble) (imm : Word) (s : State) : Host.Outcome State Fault Refusal :=
  outcome (withOperands andEffect a (.imm16 imm) s)

/-- AND rA, rB, form RR, length 3 (R215). -/
def execAndRr (a : Nibble) (b : Byte) (s : State) : Host.Outcome State Fault Refusal :=
  outcome (withOperands andEffect a (.reg b) s)

/-- OR rA, imm, form RI, length 3 (R218). -/
def execOrRi8 (a : Nibble) (imm : Byte) (s : State) : Host.Outcome State Fault Refusal :=
  outcome (withOperands orEffect a (.imm8 imm) s)

/-- OR rA, imm, form RI, length 4 (R218). -/
def execOrRi16 (a : Nibble) (imm : Word) (s : State) : Host.Outcome State Fault Refusal :=
  outcome (withOperands orEffect a (.imm16 imm) s)

/-- OR rA, rB, form RR, length 3 (R218). -/
def execOrRr (a : Nibble) (b : Byte) (s : State) : Host.Outcome State Fault Refusal :=
  outcome (withOperands orEffect a (.reg b) s)

/-- XOR rA, imm, form RI, length 3 (R221). -/
def execXorRi8 (a : Nibble) (imm : Byte) (s : State) : Host.Outcome State Fault Refusal :=
  outcome (withOperands xorEffect a (.imm8 imm) s)

/-- XOR rA, imm, form RI, length 4 (R221). -/
def execXorRi16 (a : Nibble) (imm : Word) (s : State) : Host.Outcome State Fault Refusal :=
  outcome (withOperands xorEffect a (.imm16 imm) s)

/-- XOR rA, rB, form RR, length 3 (R221). -/
def execXorRr (a : Nibble) (b : Byte) (s : State) : Host.Outcome State Fault Refusal :=
  outcome (withOperands xorEffect a (.reg b) s)

/-- LSH rA, imm, form RI, length 3 (R225). -/
def execLshRi8 (a : Nibble) (imm : Byte) (s : State) : Host.Outcome State Fault Refusal :=
  outcome (withOperands lshEffect a (.imm8 imm) s)

/-- LSH rA, imm, form RI, length 4 (R225). -/
def execLshRi16 (a : Nibble) (imm : Word) (s : State) : Host.Outcome State Fault Refusal :=
  outcome (withOperands lshEffect a (.imm16 imm) s)

/-- LSH rA, rB, form RR, length 3 (R225). -/
def execLshRr (a : Nibble) (b : Byte) (s : State) : Host.Outcome State Fault Refusal :=
  outcome (withOperands lshEffect a (.reg b) s)

/-- RSH rA, imm, form RI, length 3 (R228). -/
def execRshRi8 (a : Nibble) (imm : Byte) (s : State) : Host.Outcome State Fault Refusal :=
  outcome (withOperands rshEffect a (.imm8 imm) s)

/-- RSH rA, imm, form RI, length 4 (R228). -/
def execRshRi16 (a : Nibble) (imm : Word) (s : State) : Host.Outcome State Fault Refusal :=
  outcome (withOperands rshEffect a (.imm16 imm) s)

/-- RSH rA, rB, form RR, length 3 (R228). -/
def execRshRr (a : Nibble) (b : Byte) (s : State) : Host.Outcome State Fault Refusal :=
  outcome (withOperands rshEffect a (.reg b) s)

/-- MUL rA, imm, form RI, length 3 (R235). -/
def execMulRi8 (a : Nibble) (imm : Byte) (s : State) : Host.Outcome State Fault Refusal :=
  outcome (withOperands mulEffect a (.imm8 imm) s)

/-- MUL rA, imm, form RI, length 4 (R235). -/
def execMulRi16 (a : Nibble) (imm : Word) (s : State) : Host.Outcome State Fault Refusal :=
  outcome (withOperands mulEffect a (.imm16 imm) s)

/-- MUL rA, rB, form RR, length 3 (R235). -/
def execMulRr (a : Nibble) (b : Byte) (s : State) : Host.Outcome State Fault Refusal :=
  outcome (withOperands mulEffect a (.reg b) s)

/-- MOD rA, imm, form RI, length 3 (R240). -/
def execModRi8 (a : Nibble) (imm : Byte) (s : State) : Host.Outcome State Fault Refusal :=
  outcome (withOperands modEffect a (.imm8 imm) s)

/-- MOD rA, imm, form RI, length 4 (R240). -/
def execModRi16 (a : Nibble) (imm : Word) (s : State) : Host.Outcome State Fault Refusal :=
  outcome (withOperands modEffect a (.imm16 imm) s)

/-- MOD rA, rB, form RR, length 3 (R240). -/
def execModRr (a : Nibble) (b : Byte) (s : State) : Host.Outcome State Fault Refusal :=
  outcome (withOperands modEffect a (.reg b) s)

end Sys2Proof.Machine
end

