-- ==== Sys2Proof/Machine/Control.lean ====
section
/-! DEFINITION. Control transfer (42_control.md): BEQ, BGT, BLT, BOF, BNE, BGE, BLE, JMP, JSR, RET. -/

namespace Sys2Proof.Machine

/-- R261: the target is checked first, taken or not; a taken branch sets the PC, another advances. -/
def branch (cond : Flags → Bool) (t : Target) (s : State) : Except Fault State := do
  let v ← t.value
  if cond s.flags then .ok (s.setReg .pc v) else advance t.len s

/-- R270 -/
def jump (t : Target) (s : State) : Except Fault State := do
  let v ← t.value
  .ok (s.setReg .pc v)

/-- R272: the target, the return address (which must not pass 0xFFFF), the push, then the jump. -/
def callSub (t : Target) (s : State) : Except Fault State := do
  let v ← t.value
  if 0xFFFF < s.regs.pc.toNat + t.len then .error (.pcOverflow s.regs.pc)
  else do
    let s' ← push (s.regs.pc + BitVec.ofNat 16 t.len) s
    .ok (s'.setReg .pc v)

/-- R275: the popped word is the PC; no advance. -/
def returnSub (s : State) : Except Fault State := do
  let (v, s') ← pop s
  .ok (s'.setReg .pc v)

/-- BEQ $addr, form D, length 3 (R262). -/
def execBeqD8 (addr : Byte) (s : State) : Host.Outcome State Fault Refusal :=
  outcome (branch condEq (.abs8 addr) s)

/-- BEQ $addr, form D, length 4 (R262). -/
def execBeqD16 (addr : Word) (s : State) : Host.Outcome State Fault Refusal :=
  outcome (branch condEq (.abs16 addr) s)

/-- BEQ $addr, form D, length 5 (R262). -/
def execBeqD20 (ad : Nibble) (lo : Word) (s : State) : Host.Outcome State Fault Refusal :=
  outcome (branch condEq (.abs20 ad lo) s)

/-- BGT $addr, form D, length 3 (R263). -/
def execBgtD8 (addr : Byte) (s : State) : Host.Outcome State Fault Refusal :=
  outcome (branch condGt (.abs8 addr) s)

/-- BGT $addr, form D, length 4 (R263). -/
def execBgtD16 (addr : Word) (s : State) : Host.Outcome State Fault Refusal :=
  outcome (branch condGt (.abs16 addr) s)

/-- BGT $addr, form D, length 5 (R263). -/
def execBgtD20 (ad : Nibble) (lo : Word) (s : State) : Host.Outcome State Fault Refusal :=
  outcome (branch condGt (.abs20 ad lo) s)

/-- BLT $addr, form D, length 3 (R264). -/
def execBltD8 (addr : Byte) (s : State) : Host.Outcome State Fault Refusal :=
  outcome (branch condLt (.abs8 addr) s)

/-- BLT $addr, form D, length 4 (R264). -/
def execBltD16 (addr : Word) (s : State) : Host.Outcome State Fault Refusal :=
  outcome (branch condLt (.abs16 addr) s)

/-- BLT $addr, form D, length 5 (R264). -/
def execBltD20 (ad : Nibble) (lo : Word) (s : State) : Host.Outcome State Fault Refusal :=
  outcome (branch condLt (.abs20 ad lo) s)

/-- BOF $addr, form D, length 3 (R265). -/
def execBofD8 (addr : Byte) (s : State) : Host.Outcome State Fault Refusal :=
  outcome (branch condOverflow (.abs8 addr) s)

/-- BOF $addr, form D, length 4 (R265). -/
def execBofD16 (addr : Word) (s : State) : Host.Outcome State Fault Refusal :=
  outcome (branch condOverflow (.abs16 addr) s)

/-- BOF $addr, form D, length 5 (R265). -/
def execBofD20 (ad : Nibble) (lo : Word) (s : State) : Host.Outcome State Fault Refusal :=
  outcome (branch condOverflow (.abs20 ad lo) s)

/-- BNE $addr, form D, length 3 (R266). -/
def execBneD8 (addr : Byte) (s : State) : Host.Outcome State Fault Refusal :=
  outcome (branch condNe (.abs8 addr) s)

/-- BNE $addr, form D, length 4 (R266). -/
def execBneD16 (addr : Word) (s : State) : Host.Outcome State Fault Refusal :=
  outcome (branch condNe (.abs16 addr) s)

/-- BNE $addr, form D, length 5 (R266). -/
def execBneD20 (ad : Nibble) (lo : Word) (s : State) : Host.Outcome State Fault Refusal :=
  outcome (branch condNe (.abs20 ad lo) s)

/-- BGE $addr, form D, length 3 (R267). -/
def execBgeD8 (addr : Byte) (s : State) : Host.Outcome State Fault Refusal :=
  outcome (branch condGe (.abs8 addr) s)

/-- BGE $addr, form D, length 4 (R267). -/
def execBgeD16 (addr : Word) (s : State) : Host.Outcome State Fault Refusal :=
  outcome (branch condGe (.abs16 addr) s)

/-- BGE $addr, form D, length 5 (R267). -/
def execBgeD20 (ad : Nibble) (lo : Word) (s : State) : Host.Outcome State Fault Refusal :=
  outcome (branch condGe (.abs20 ad lo) s)

/-- BLE $addr, form D, length 3 (R268). -/
def execBleD8 (addr : Byte) (s : State) : Host.Outcome State Fault Refusal :=
  outcome (branch condLe (.abs8 addr) s)

/-- BLE $addr, form D, length 4 (R268). -/
def execBleD16 (addr : Word) (s : State) : Host.Outcome State Fault Refusal :=
  outcome (branch condLe (.abs16 addr) s)

/-- BLE $addr, form D, length 5 (R268). -/
def execBleD20 (ad : Nibble) (lo : Word) (s : State) : Host.Outcome State Fault Refusal :=
  outcome (branch condLe (.abs20 ad lo) s)

/-- JMP $addr, form D, length 3 (R270). -/
def execJmpD8 (addr : Byte) (s : State) : Host.Outcome State Fault Refusal :=
  outcome (jump (.abs8 addr) s)

/-- JMP $addr, form D, length 4 (R270). -/
def execJmpD16 (addr : Word) (s : State) : Host.Outcome State Fault Refusal :=
  outcome (jump (.abs16 addr) s)

/-- JMP $addr, form D, length 5 (R270). -/
def execJmpD20 (ad : Nibble) (lo : Word) (s : State) : Host.Outcome State Fault Refusal :=
  outcome (jump (.abs20 ad lo) s)

/-- JSR $addr, form D, length 3 (R272). -/
def execJsrD8 (addr : Byte) (s : State) : Host.Outcome State Fault Refusal :=
  outcome (callSub (.abs8 addr) s)

/-- JSR $addr, form D, length 4 (R272). -/
def execJsrD16 (addr : Word) (s : State) : Host.Outcome State Fault Refusal :=
  outcome (callSub (.abs16 addr) s)

/-- JSR $addr, form D, length 5 (R272). -/
def execJsrD20 (ad : Nibble) (lo : Word) (s : State) : Host.Outcome State Fault Refusal :=
  outcome (callSub (.abs20 ad lo) s)

/-- RET, form N, length 2 (R275). -/
def execRetN (s : State) : Host.Outcome State Fault Refusal :=
  outcome (returnSub s)

end Sys2Proof.Machine
end

