-- ==== Sys2Proof/Machine/DataMovement.lean ====
section
/-! DEFINITION. Data movement (40_data_movement.md): MOV, LD, LDB, ST, STL, STH, PSH, POP. Each shared operation is the
pseudocode of its rules; each instruction is one line over it. -/

namespace Sys2Proof.Machine

/-- R140: the source register is read, then the destination written, then the PC moves on. -/
def moveReg (a : Nibble) (b : Byte) (s : State) : Except Fault State := do
  let x ← regIndex a.toNat
  let y ← regIndex b.toNat
  advance 3 (s.setReg x (s.getReg y))

/-- R143: an immediate into a register. -/
def loadImm (len : Nat) (a : Nibble) (v : Word) (s : State) : Except Fault State := do
  let x ← regIndex a.toNat
  advance len (s.setReg x v)

/-- R144, R145: a word from memory into a register. -/
def loadWord (a : Nibble) (p : Place) (s : State) : Except Fault State := do
  let x ← regIndex a.toNat
  let ea ← p.addr s
  let v ← memReadWord ea.toNat s
  advance p.len (s.setReg x v)

/-- R148, R149: a byte from memory, zero-extended, into a register. -/
def loadByte (a : Nibble) (p : Place) (s : State) : Except Fault State := do
  let x ← regIndex a.toNat
  let ea ← p.addr s
  let v ← memReadByte ea.toNat s
  advance p.len (s.setReg x (v.setWidth 16))

/-- The write of R152 and R153, before `advance()`: the register checks, then a register's word, high byte first. -/
def putWordAt (a : Nibble) (p : Place) (s : State) : Except Fault State := do
  let x ← regIndex a.toNat
  let ea ← p.addr s
  memWriteWord ea.toNat (s.getReg x) s

/-- R152, R153: a register's word to memory. -/
def storeWord (a : Nibble) (p : Place) (s : State) : Except Fault State := do
  let s' ← putWordAt a p s
  advance p.len s'

/-- The write of R156, R157, R160 and R161, before `advance()`: the register checks, then one byte of a register;
`part` takes it from the word. -/
def putByteAt (part : Word → Byte) (a : Nibble) (p : Place) (s : State) : Except Fault State := do
  let x ← regIndex a.toNat
  let ea ← p.addr s
  memWriteByte ea.toNat (part (s.getReg x)) s

/-- R156, R157, R160, R161: one byte of a register to memory. -/
def storeByte (part : Word → Byte) (a : Nibble) (p : Place) (s : State) : Except Fault State := do
  let s' ← putByteAt part a p s
  advance p.len s'

/-- R172: an immediate onto the stack. -/
def pushImm (len : Nat) (v : Word) (s : State) : Except Fault State := do
  let s' ← push v s
  advance len s'

/-- The push of R173, before `advance()`: a register's value, the one before the push. -/
def pushRegAt (a : Nibble) (s : State) : Except Fault State := do
  let x ← regIndex a.toNat
  push (s.getReg x) s

/-- R173: a register onto the stack. -/
def pushReg (a : Nibble) (s : State) : Except Fault State := do
  let s' ← pushRegAt a s
  advance 2 s'

/-- The push of R174, before `advance()`: a word from memory. -/
def pushMemAt (p : Place) (s : State) : Except Fault State := do
  let ea ← p.addr s
  let v ← memReadWord ea.toNat s
  push v s

/-- R174: a word from memory onto the stack. -/
def pushMem (p : Place) (s : State) : Except Fault State := do
  let s' ← pushMemAt p s
  advance p.len s'

/-- R177: the top word of the stack into a register. -/
def popReg (a : Nibble) (s : State) : Except Fault State := do
  let x ← regIndex a.toNat
  let (v, s') ← pop s
  advance 2 (s'.setReg x v)

/-- MOV rA, rB, form RR, length 3 (R140). -/
def execMovRr (a : Nibble) (b : Byte) (s : State) : Host.Outcome State Fault Refusal :=
  outcome (moveReg a b s)

/-- LD rA, imm, form RI, length 3 (R143). -/
def execLdRi8 (a : Nibble) (imm : Byte) (s : State) : Host.Outcome State Fault Refusal :=
  outcome (loadImm 3 a (imm8 imm) s)

/-- LD rA, imm, form RI, length 4 (R143). -/
def execLdRi16 (a : Nibble) (imm : Word) (s : State) : Host.Outcome State Fault Refusal :=
  outcome (loadImm 4 a imm s)

/-- LD rA, rB, form RR, length 3 (R144). -/
def execLdRr (a : Nibble) (b : Byte) (s : State) : Host.Outcome State Fault Refusal :=
  outcome (loadWord a (.ind b) s)

/-- LD rA, $addr, form RD, length 3 (R145). -/
def execLdRd8 (a : Nibble) (addr : Byte) (s : State) : Host.Outcome State Fault Refusal :=
  outcome (loadWord a (.abs8 addr) s)

/-- LD rA, $addr, form RD, length 4 (R145). -/
def execLdRd16 (a : Nibble) (addr : Word) (s : State) : Host.Outcome State Fault Refusal :=
  outcome (loadWord a (.abs16 addr) s)

/-- LD rA, $addr, form RD, length 5 (R145). -/
def execLdRd20 (a : Nibble) (ad : Nibble) (lo : Word) (s : State) : Host.Outcome State Fault Refusal :=
  outcome (loadWord a (.abs20 ad lo) s)

/-- LDB rA, rB, form RR, length 3 (R148). -/
def execLdbRr (a : Nibble) (b : Byte) (s : State) : Host.Outcome State Fault Refusal :=
  outcome (loadByte a (.ind b) s)

/-- LDB rA, $addr, form RD, length 3 (R149). -/
def execLdbRd8 (a : Nibble) (addr : Byte) (s : State) : Host.Outcome State Fault Refusal :=
  outcome (loadByte a (.abs8 addr) s)

/-- LDB rA, $addr, form RD, length 4 (R149). -/
def execLdbRd16 (a : Nibble) (addr : Word) (s : State) : Host.Outcome State Fault Refusal :=
  outcome (loadByte a (.abs16 addr) s)

/-- LDB rA, $addr, form RD, length 5 (R149). -/
def execLdbRd20 (a : Nibble) (ad : Nibble) (lo : Word) (s : State) : Host.Outcome State Fault Refusal :=
  outcome (loadByte a (.abs20 ad lo) s)

/-- ST rA, rB, form RR, length 3 (R152). -/
def execStRr (a : Nibble) (b : Byte) (s : State) : Host.Outcome State Fault Refusal :=
  outcome (storeWord a (.ind b) s)

/-- ST rA, $addr, form RD, length 3 (R153). -/
def execStRd8 (a : Nibble) (addr : Byte) (s : State) : Host.Outcome State Fault Refusal :=
  outcome (storeWord a (.abs8 addr) s)

/-- ST rA, $addr, form RD, length 4 (R153). -/
def execStRd16 (a : Nibble) (addr : Word) (s : State) : Host.Outcome State Fault Refusal :=
  outcome (storeWord a (.abs16 addr) s)

/-- ST rA, $addr, form RD, length 5 (R153). -/
def execStRd20 (a : Nibble) (ad : Nibble) (lo : Word) (s : State) : Host.Outcome State Fault Refusal :=
  outcome (storeWord a (.abs20 ad lo) s)

/-- STL rA, rB, form RR, length 3 (R156). -/
def execStlRr (a : Nibble) (b : Byte) (s : State) : Host.Outcome State Fault Refusal :=
  outcome (storeByte loByte a (.ind b) s)

/-- STL rA, $addr, form RD, length 3 (R157). -/
def execStlRd8 (a : Nibble) (addr : Byte) (s : State) : Host.Outcome State Fault Refusal :=
  outcome (storeByte loByte a (.abs8 addr) s)

/-- STL rA, $addr, form RD, length 4 (R157). -/
def execStlRd16 (a : Nibble) (addr : Word) (s : State) : Host.Outcome State Fault Refusal :=
  outcome (storeByte loByte a (.abs16 addr) s)

/-- STL rA, $addr, form RD, length 5 (R157). -/
def execStlRd20 (a : Nibble) (ad : Nibble) (lo : Word) (s : State) : Host.Outcome State Fault Refusal :=
  outcome (storeByte loByte a (.abs20 ad lo) s)

/-- STH rA, rB, form RR, length 3 (R160). -/
def execSthRr (a : Nibble) (b : Byte) (s : State) : Host.Outcome State Fault Refusal :=
  outcome (storeByte hiByte a (.ind b) s)

/-- STH rA, $addr, form RD, length 3 (R161). -/
def execSthRd8 (a : Nibble) (addr : Byte) (s : State) : Host.Outcome State Fault Refusal :=
  outcome (storeByte hiByte a (.abs8 addr) s)

/-- STH rA, $addr, form RD, length 4 (R161). -/
def execSthRd16 (a : Nibble) (addr : Word) (s : State) : Host.Outcome State Fault Refusal :=
  outcome (storeByte hiByte a (.abs16 addr) s)

/-- STH rA, $addr, form RD, length 5 (R161). -/
def execSthRd20 (a : Nibble) (ad : Nibble) (lo : Word) (s : State) : Host.Outcome State Fault Refusal :=
  outcome (storeByte hiByte a (.abs20 ad lo) s)

/-- PSH imm, form I, length 3 (R172). -/
def execPshI8 (imm : Byte) (s : State) : Host.Outcome State Fault Refusal :=
  outcome (pushImm 3 (imm8 imm) s)

/-- PSH imm, form I, length 4 (R172). -/
def execPshI16 (imm : Word) (s : State) : Host.Outcome State Fault Refusal :=
  outcome (pushImm 4 imm s)

/-- PSH rA, form R, length 2 (R173). -/
def execPshR (a : Nibble) (s : State) : Host.Outcome State Fault Refusal :=
  outcome (pushReg a s)

/-- PSH $addr, form D, length 3 (R174). -/
def execPshD8 (addr : Byte) (s : State) : Host.Outcome State Fault Refusal :=
  outcome (pushMem (.abs8 addr) s)

/-- PSH $addr, form D, length 4 (R174). -/
def execPshD16 (addr : Word) (s : State) : Host.Outcome State Fault Refusal :=
  outcome (pushMem (.abs16 addr) s)

/-- PSH $addr, form D, length 5 (R174). -/
def execPshD20 (ad : Nibble) (lo : Word) (s : State) : Host.Outcome State Fault Refusal :=
  outcome (pushMem (.abs20 ad lo) s)

/-- POP rA, form R, length 2 (R177). -/
def execPopR (a : Nibble) (s : State) : Host.Outcome State Fault Refusal :=
  outcome (popReg a s)

end Sys2Proof.Machine
end

