-- ==== Sys2Proof/Machine/System.lean ====
section
/-! DEFINITION. System instructions (43_system.md): HLT, NOP, INT, REI. -/

namespace Sys2Proof.Machine

/-- R300: the machine stops ticking; the PC keeps the address of the HLT. -/
def halt (s : State) : Except Fault State := .ok (s.setRunning false)

/-- R305: a number above 254 faults; otherwise the latch holds the request, taken at the next tick. -/
def requestInterrupt (len : Nat) (n : Word) (s : State) : Except Fault State :=
  if h : n.toNat < 255 then advance len (s.setIrq ⟨true, ⟨n.toNat, h⟩⟩)
  else .error (.invalidInterrupt n)

/-- HLT, form N, length 2 (R300). -/
def execHltN (s : State) : Host.Outcome State Fault Refusal :=
  outcome (halt s)

/-- NOP, form N, length 2 (R302). -/
def execNopN (s : State) : Host.Outcome State Fault Refusal :=
  outcome (advance 2 s)

/-- INT imm, form I, length 3 (R305). -/
def execIntI8 (imm : Byte) (s : State) : Host.Outcome State Fault Refusal :=
  outcome (requestInterrupt 3 (imm8 imm) s)

/-- INT imm, form I, length 4 (R305). -/
def execIntI16 (imm : Word) (s : State) : Host.Outcome State Fault Refusal :=
  outcome (requestInterrupt 4 imm s)

/-- REI, form N, length 2 (R310). -/
def execReiN (s : State) : Host.Outcome State Fault Refusal :=
  outcome (returnFromInterrupt s)

end Sys2Proof.Machine
end

