-- ==== Sys2Proof/Machine/Dispatch.lean ====
section
/-! DEFINITION. One arm for each constructor of `Instr` (30_encoding.md R106, R116): the executor of its
(opcode, mode) pair at its width code. -/

namespace Sys2Proof.Machine

def exec (i : Instr) (s : State) : Host.Outcome State Fault Refusal :=
  match i with
  | .movRr a b => Sys2Proof.Machine.execMovRr a b s
  | .ldRi8 a imm => Sys2Proof.Machine.execLdRi8 a imm s
  | .ldRi16 a imm => Sys2Proof.Machine.execLdRi16 a imm s
  | .ldRr a b => Sys2Proof.Machine.execLdRr a b s
  | .ldRd8 a addr => Sys2Proof.Machine.execLdRd8 a addr s
  | .ldRd16 a addr => Sys2Proof.Machine.execLdRd16 a addr s
  | .ldRd20 a ad lo => Sys2Proof.Machine.execLdRd20 a ad lo s
  | .ldbRr a b => Sys2Proof.Machine.execLdbRr a b s
  | .ldbRd8 a addr => Sys2Proof.Machine.execLdbRd8 a addr s
  | .ldbRd16 a addr => Sys2Proof.Machine.execLdbRd16 a addr s
  | .ldbRd20 a ad lo => Sys2Proof.Machine.execLdbRd20 a ad lo s
  | .pshI8 imm => Sys2Proof.Machine.execPshI8 imm s
  | .pshI16 imm => Sys2Proof.Machine.execPshI16 imm s
  | .pshR a => Sys2Proof.Machine.execPshR a s
  | .pshD8 addr => Sys2Proof.Machine.execPshD8 addr s
  | .pshD16 addr => Sys2Proof.Machine.execPshD16 addr s
  | .pshD20 ad lo => Sys2Proof.Machine.execPshD20 ad lo s
  | .popR a => Sys2Proof.Machine.execPopR a s
  | .stRr a b => Sys2Proof.Machine.execStRr a b s
  | .stRd8 a addr => Sys2Proof.Machine.execStRd8 a addr s
  | .stRd16 a addr => Sys2Proof.Machine.execStRd16 a addr s
  | .stRd20 a ad lo => Sys2Proof.Machine.execStRd20 a ad lo s
  | .stlRr a b => Sys2Proof.Machine.execStlRr a b s
  | .stlRd8 a addr => Sys2Proof.Machine.execStlRd8 a addr s
  | .stlRd16 a addr => Sys2Proof.Machine.execStlRd16 a addr s
  | .stlRd20 a ad lo => Sys2Proof.Machine.execStlRd20 a ad lo s
  | .sthRr a b => Sys2Proof.Machine.execSthRr a b s
  | .sthRd8 a addr => Sys2Proof.Machine.execSthRd8 a addr s
  | .sthRd16 a addr => Sys2Proof.Machine.execSthRd16 a addr s
  | .sthRd20 a ad lo => Sys2Proof.Machine.execSthRd20 a ad lo s
  | .cmpRi8 a imm => Sys2Proof.Machine.execCmpRi8 a imm s
  | .cmpRi16 a imm => Sys2Proof.Machine.execCmpRi16 a imm s
  | .cmpRr a b => Sys2Proof.Machine.execCmpRr a b s
  | .beqD8 addr => Sys2Proof.Machine.execBeqD8 addr s
  | .beqD16 addr => Sys2Proof.Machine.execBeqD16 addr s
  | .beqD20 ad lo => Sys2Proof.Machine.execBeqD20 ad lo s
  | .bgtD8 addr => Sys2Proof.Machine.execBgtD8 addr s
  | .bgtD16 addr => Sys2Proof.Machine.execBgtD16 addr s
  | .bgtD20 ad lo => Sys2Proof.Machine.execBgtD20 ad lo s
  | .bltD8 addr => Sys2Proof.Machine.execBltD8 addr s
  | .bltD16 addr => Sys2Proof.Machine.execBltD16 addr s
  | .bltD20 ad lo => Sys2Proof.Machine.execBltD20 ad lo s
  | .bofD8 addr => Sys2Proof.Machine.execBofD8 addr s
  | .bofD16 addr => Sys2Proof.Machine.execBofD16 addr s
  | .bofD20 ad lo => Sys2Proof.Machine.execBofD20 ad lo s
  | .bneD8 addr => Sys2Proof.Machine.execBneD8 addr s
  | .bneD16 addr => Sys2Proof.Machine.execBneD16 addr s
  | .bneD20 ad lo => Sys2Proof.Machine.execBneD20 ad lo s
  | .jmpD8 addr => Sys2Proof.Machine.execJmpD8 addr s
  | .jmpD16 addr => Sys2Proof.Machine.execJmpD16 addr s
  | .jmpD20 ad lo => Sys2Proof.Machine.execJmpD20 ad lo s
  | .jsrD8 addr => Sys2Proof.Machine.execJsrD8 addr s
  | .jsrD16 addr => Sys2Proof.Machine.execJsrD16 addr s
  | .jsrD20 ad lo => Sys2Proof.Machine.execJsrD20 ad lo s
  | .addRi8 a imm => Sys2Proof.Machine.execAddRi8 a imm s
  | .addRi16 a imm => Sys2Proof.Machine.execAddRi16 a imm s
  | .addRr a b => Sys2Proof.Machine.execAddRr a b s
  | .subRi8 a imm => Sys2Proof.Machine.execSubRi8 a imm s
  | .subRi16 a imm => Sys2Proof.Machine.execSubRi16 a imm s
  | .subRr a b => Sys2Proof.Machine.execSubRr a b s
  | .retN => Sys2Proof.Machine.execRetN s
  | .hltN => Sys2Proof.Machine.execHltN s
  | .nopN => Sys2Proof.Machine.execNopN s
  | .intI8 imm => Sys2Proof.Machine.execIntI8 imm s
  | .intI16 imm => Sys2Proof.Machine.execIntI16 imm s
  | .reiN => Sys2Proof.Machine.execReiN s
  | .andRi8 a imm => Sys2Proof.Machine.execAndRi8 a imm s
  | .andRi16 a imm => Sys2Proof.Machine.execAndRi16 a imm s
  | .andRr a b => Sys2Proof.Machine.execAndRr a b s
  | .orRi8 a imm => Sys2Proof.Machine.execOrRi8 a imm s
  | .orRi16 a imm => Sys2Proof.Machine.execOrRi16 a imm s
  | .orRr a b => Sys2Proof.Machine.execOrRr a b s
  | .xorRi8 a imm => Sys2Proof.Machine.execXorRi8 a imm s
  | .xorRi16 a imm => Sys2Proof.Machine.execXorRi16 a imm s
  | .xorRr a b => Sys2Proof.Machine.execXorRr a b s
  | .lshRi8 a imm => Sys2Proof.Machine.execLshRi8 a imm s
  | .lshRi16 a imm => Sys2Proof.Machine.execLshRi16 a imm s
  | .lshRr a b => Sys2Proof.Machine.execLshRr a b s
  | .rshRi8 a imm => Sys2Proof.Machine.execRshRi8 a imm s
  | .rshRi16 a imm => Sys2Proof.Machine.execRshRi16 a imm s
  | .rshRr a b => Sys2Proof.Machine.execRshRr a b s
  | .mulRi8 a imm => Sys2Proof.Machine.execMulRi8 a imm s
  | .mulRi16 a imm => Sys2Proof.Machine.execMulRi16 a imm s
  | .mulRr a b => Sys2Proof.Machine.execMulRr a b s
  | .modRi8 a imm => Sys2Proof.Machine.execModRi8 a imm s
  | .modRi16 a imm => Sys2Proof.Machine.execModRi16 a imm s
  | .modRr a b => Sys2Proof.Machine.execModRr a b s
  | .bgeD8 addr => Sys2Proof.Machine.execBgeD8 addr s
  | .bgeD16 addr => Sys2Proof.Machine.execBgeD16 addr s
  | .bgeD20 ad lo => Sys2Proof.Machine.execBgeD20 ad lo s
  | .bleD8 addr => Sys2Proof.Machine.execBleD8 addr s
  | .bleD16 addr => Sys2Proof.Machine.execBleD16 addr s
  | .bleD20 ad lo => Sys2Proof.Machine.execBleD20 ad lo s

end Sys2Proof.Machine
end

