-- ==== Sys2Proof/Machine/Tick.lean ====
section
/-! DEFINITION. One tick (30_encoding.md R111): nothing while halted, an interrupt dispatch, or one instruction. -/

namespace Sys2Proof.Machine

/-- Steps 2 to 6 of a tick: fetch, decode, execute, clear the latches (R111). -/
def runInstr (N : Numbering) (s : State) : Host.Outcome State Fault Refusal :=
  match fetchDecode N s with
  | .ok (s', i) => endTick (exec i s')
  | .error k => .fault k

/-- `tick()` (R111), with the parameters `OPCODE_NUM` and `MODE_NUM` of R6 as an argument. A state whose `fault` is set has no tick (R32): it answers that fault again. -/
def tick (N : Numbering) (s : State) : Host.Outcome State Fault Refusal :=
  match s.fault with
  | some k => .fault k
  | none =>
    if s.running then
      if s.irq.pending then outcome (interruptDispatch s) else runInstr N s
    else .next s

end Sys2Proof.Machine
end

