-- ==== Sys2Proof/Machine/Step.lean ====
section
/-! DEFINITION. The step of the machine: one tick (30_encoding.md R111). -/

namespace Sys2Proof.Machine

/-- One step is one tick (R111), under the reference numbering (R92, R93: log entry 1). -/
def step (s : State) : Host.Outcome State Fault Refusal := tick Config.numbering s

/-- `s` with the instruction of a table word stored where the next tick fetches (log entry 4 says how a program comes
to run; log entry 13 how the word is laid out). An address of it that no device claims stays unwritten. -/
def State.withFetchWord (s : State) (nbits w : Nat) : State := s.placeForFetch (tableBytes nbits w)

end Sys2Proof.Machine
end

