-- ==== Sys2Proof/Machine/Faulted.lean ====
section
/-! DEFINITION. The record of a tick that faults (10_state.md R32): the fault, and the bus writes the tick completed
before it, which have happened (60_exceptions.md R332, 70_reset_and_hazards.md R396). -/

namespace Sys2Proof.Machine

/-- The pushes of a list of words up to the first that faults. -/
def pushSome : List Word → State → State
  | [], s => s
  | v :: vs, s =>
    match push v s with
    | .ok t => pushSome vs t
    | .error _ => s

/-- The pushes an interrupt entry completes (R340, R396). -/
def dispatchPushes (s : State) : State :=
  match memReadWord (vectorAddr s.irq.number) s with
  | .ok v => if v = 0 then s else pushSome (interruptFrame s) s
  | .error _ => s

/-- What an executor writes to the bus before a later part of it can fault: the store or push of ST, STL, STH and PSH,
whose `advance()` may still raise PcOverflow. No other executor faults after a write. -/
def writesBeforeAdvance (i : Instr) (s : State) : Except Fault State :=
  match i with
  | .stRr a b => putWordAt a (.ind b) s
  | .stRd8 a v => putWordAt a (.abs8 v) s
  | .stRd16 a w => putWordAt a (.abs16 w) s
  | .stRd20 a ad lo => putWordAt a (.abs20 ad lo) s
  | .stlRr a b => putByteAt loByte a (.ind b) s
  | .stlRd8 a v => putByteAt loByte a (.abs8 v) s
  | .stlRd16 a w => putByteAt loByte a (.abs16 w) s
  | .stlRd20 a ad lo => putByteAt loByte a (.abs20 ad lo) s
  | .sthRr a b => putByteAt hiByte a (.ind b) s
  | .sthRd8 a v => putByteAt hiByte a (.abs8 v) s
  | .sthRd16 a w => putByteAt hiByte a (.abs16 w) s
  | .sthRd20 a ad lo => putByteAt hiByte a (.abs20 ad lo) s
  | .pshI8 v => push (imm8 v) s
  | .pshI16 w => push w s
  | .pshR a => pushRegAt a s
  | .pshD8 v => pushMemAt (.abs8 v) s
  | .pshD16 w => pushMemAt (.abs16 w) s
  | .pshD20 ad lo => pushMemAt (.abs20 ad lo) s
  | _ => .ok s

/-- The devices as the bus writes of a tick that faults have left them (R332). -/
def devicesAtFault (N : Numbering) (s : State) : List Device :=
  match s.fault with
  | some _ => s.devices
  | none =>
    if s.irq.pending then (dispatchPushes s).devices
    else
      match fetchDecode N s with
      | .error _ => s.devices
      | .ok (s', i) =>
        match writesBeforeAdvance i s' with
        | .ok t => t.devices
        | .error _ => s.devices

/-- The state after a tick, a fault recorded in the field `fault` of R32 with the bus writes completed before it. R332
gives a faulted state's other fields no meaning; here they stay as before the tick (log entry 7). -/
def recordTick (N : Numbering) (s : State) : State :=
  match tick N s with
  | .next t => t
  | .fault k => (s.setDevices (devicesAtFault N s)).setFault (some k)
  | .refused _ => s

end Sys2Proof.Machine
end

