-- ==== Sys2Proof/Machine/HostActions.lean ====
section
/-! DEFINITION. What the host does to the machine between ticks or outside the run (60_exceptions.md R360 to R365,
70_reset_and_hazards.md R382, R395): boot, the run loop, assert, stop and input. No step of the
machine takes one of these by itself (R365). -/

namespace Sys2Proof.Machine

/-! ## Boot (R382) -/

/-- `add(device)`: appended to the probe order (R55). -/
def State.addDevice (s : State) (d : Device) : State := s.setDevices (s.devices ++ [d])

/-- The host writes initial contents into the devices, ROM too (R63, R382 step 2). -/
def State.loadCells (s : State) (cells : List Host.Cell) : State :=
  s.setDevices (cells.foldl (fun ds c => pokeByte ds c.1 c.2) s.devices)

/-- A vector installed as a big-endian word at its slot (R382 step 2). -/
def State.installVector (s : State) (n : Fin 255) (v : Word) : State :=
  s.setDevices (pokeBytes s.devices (vectorAddr n) [hiByte v, loByte v])

/-- The boot sequence of R382: the bus is built from `DEVICES`, its devices are filled, the CPU is as reset leaves it
and PC is `ENTRY_PC`. -/
def boot (devices : List Device) (contents : List Host.Cell) (entry : Word) : State :=
  ((State.reset.setDevices devices).loadCells contents).setReg .pc entry

/-! ## The run (R360, R362, R395) -/

/-- The run loop: `tick()` until `running` is false or the stop flag, checked once per tick, is set (R360, R362); the
fuel bounds the number of ticks. -/
def runLoop : Nat → State → Host.Outcome State Fault Refusal
  | 0, s => .next s
  | k + 1, s =>
    if s.running && !s.stopRequested then
      match step s with
      | .next t => runLoop k t
      | .fault f => .fault f
      | .refused r => .refused r
    else .next s

/-- How a run ends (R395). -/
inductive RunEnd where
  | halted
  | faulted (kind : Fault)
  | stopped
  deriving DecidableEq, Repr

/-- The end an outcome of the run loop is; `none` when the run goes on (R395). -/
def runEnd : Host.Outcome State Fault Refusal → Option RunEnd
  | .next s => if s.running then if s.stopRequested then some .stopped else none else some .halted
  | .fault k => some (.faulted k)
  | .refused _ => none

/-! ## Between ticks (R361, R362, R364) -/

/-- The host asserts the pin: the latch holds request `n`, the last one asserted (R343, R361). -/
def State.assertIrq (s : State) (n : Fin 255) : State := s.setIrq ⟨true, n⟩

/-- The host asks the run to stop (R362). -/
def State.requestStop (s : State) : State := s.setStopRequested true

/-- What consuming an input event does: a request, device bytes, or both (R364, D34). DESIGN CHOICE (log entry 8): the
change is at most one assertion of the pin and a list of bytes stored at bus addresses, each in the device that answers
for its address, whatever that device's kind; an address no device claims is left out, and the latch is never cleared
(R343: only dispatch clears it). -/
structure InputEffect where
  irq : Option (Fin 255)
  writes : List Host.Cell
  deriving DecidableEq, Repr

/-- A key event joins the bounded queue (R364); a full queue takes none. The spec gives no bound: an argument. -/
def State.enqueueInput (s : State) (bound : Nat) (e : KeyEvent) : Option State :=
  if s.input.length < bound then some (s.setInput (s.input ++ [e])) else none

/-- The change of the latch and the device bytes, at once. -/
def State.applyInput (s : State) (c : InputEffect) : State :=
  match c.irq with
  | none => s.loadCells c.writes
  | some n => (s.loadCells c.writes).assertIrq n

/-- One input event is consumed, oldest first, through the parameter `INPUT_EFFECT` (R6, R364, D34): a function of the
event and of the latch and the devices as they stand, so that a change may read what it changes. DESIGN CHOICE (log
entry 8): it sees no register, flag or other state. -/
def State.consumeInput (s : State) (inputEffect : KeyEvent → Irq → List Device → InputEffect) : State :=
  match s.input with
  | [] => s
  | e :: rest => (s.setInput rest).applyInput (inputEffect e s.irq s.devices)

end Sys2Proof.Machine
end

