-- ==== Sys2Proof/Safety.lean ====
section
/-! DEFINITION. The terms the claims use: the machine's invariant, what the bus holds and refuses at an address, what an
instruction may write, and the shapes in which the rules of one family are stated. -/

namespace Sys2Proof.Claims

open Sys2Proof.Machine

/-! ## The invariant -/

/-- A device's storage is in canonical form and lists only addresses of its range (R53). -/
def DeviceWf (d : Device) : Prop := Memory.wf d.cells ∧ ∀ c ∈ d.cells, d.owns c.1 = true

/-- What holds between two ticks: every device's storage is canonical (R53), and the decode latches are clear (R31). -/
def Inv (s : State) : Prop := (∀ d ∈ s.devices, DeviceWf d) ∧ s.latches = Latches.clear

/-- What no tick changes of a device: its kind and range (R55), and its storage if it cannot be written (R74). -/
def SameDevice (d d' : Device) : Prop :=
  d'.kind = d.kind ∧ d'.first = d.first ∧ d'.last = d.last ∧ (d.kind.writable = false → d'.cells = d.cells)

/-- At most one of Z, L and G is set (R28). -/
def AtMostOneComparison (f : Flags) : Prop := ¬(f.z ∧ f.l) ∧ ¬(f.z ∧ f.g) ∧ ¬(f.l ∧ f.g)

/-- Exactly one of Z, L and G is set (R28, R200). -/
def ExactlyOneComparison (f : Flags) : Prop := AtMostOneComparison f ∧ (f.z ∨ f.l ∨ f.g)

/-! ## The bus at an address -/

/-- The byte stored for an address: that of the first device that claims it (R53, R56). -/
def storedByte (s : State) (a : Nat) : Byte :=
  match arbitrate s.devices a with
  | some d => d.cells.read a
  | none => 0

/-- The word stored for an address: two bytes of the first device that claims it, high byte first (R53). -/
def storedWord (s : State) (a : Nat) : Word :=
  match arbitrate s.devices a with
  | some d => d.cells.read a ++ d.cells.read (a + 1)
  | none => 0

/-- Why a read at an address is not served (R51, R54, R56); `word` for the two-byte read. -/
def readFault (s : State) (a : Nat) (word : Bool) : Option BusError :=
  match arbitrate s.devices a with
  | none => some .noDevices
  | some d =>
    if d.kind.readable = false then some .writeOnly
    else if word = true ∧ a = d.last.toNat then some .straddle
    else none

/-- The refusals of a read that the rules give (R51, R54, R56). A word read at the last byte of a device that cannot be
read has two of them; which one the model answers is log entry 6, and no claim but that of the bus rests on it. -/
def ReadRefusal (s : State) (a : Nat) (word : Bool) (k : BusError) : Prop :=
  match arbitrate s.devices a with
  | none => k = .noDevices
  | some d => (d.kind.readable = false ∧ k = .writeOnly) ∨ (word = true ∧ a = d.last.toNat ∧ k = .straddle)

/-- Why a write at an address is not served (R51, R54, R56); `word` for the two-byte write. -/
def writeFault (s : State) (a : Nat) (word : Bool) : Option BusError :=
  match arbitrate s.devices a with
  | none => some .noDevices
  | some d =>
    if d.kind.writable = false then some .readOnly
    else if word = true ∧ a = d.last.toNat then some .straddle
    else none

/-- Every byte outside `[a, a + n)` reads in `t` as it reads in `s`, a fault of the read included. -/
def SameBytesOutside (s t : State) (a n : Nat) : Prop :=
  ∀ b, ¬(a ≤ b ∧ b < a + n) → memReadByte b t = memReadByte b s

/-- `t` is `s` with the bytes `bs` stored from `a` up in the device that claims `a`, and nothing else changed. -/
def Stored (s t : State) (a : Nat) (bs : List Byte) : Prop :=
  t = { s with devices := t.devices } ∧ SameBytesOutside s t a bs.length ∧
  ∃ d d', arbitrate s.devices a = some d ∧ arbitrate t.devices a = some d' ∧ SameDevice d d' ∧
    ∀ k, (h : k < bs.length) → d'.cells.read (a + k) = bs[k]

/-- The bytes `bs` lie from `a` up in one readable device that answers for each of their addresses. -/
def HeldAt (s : State) (a : Nat) (bs : List Byte) : Prop :=
  ∃ d, d.kind.readable = true ∧
    ∀ k, (h : k < bs.length) → arbitrate s.devices (a + k) = some d ∧ d.cells.read (a + k) = bs[k]

/-- One writable device answers for each of `n` addresses from `a` up. -/
def WritableRun (s : State) (a n : Nat) : Prop :=
  ∃ d, d.kind.writable = true ∧ ∀ k < n, arbitrate s.devices (a + k) = some d

/-! ## The stack -/

/-- SP as an address. -/
def spOf (s : State) : Nat := s.regs.sp.toNat

/-- Why a push does not happen (R170). -/
def pushFault (s : State) : Option Fault :=
  if 0xFFFD < spOf s then some (.stackOverflow s.regs.sp)
  else (writeFault s (spOf s) true).map (fun k => .bus k (spOf s))

/-- Why a pop does not happen (R171). -/
def popFault (s : State) : Option Fault :=
  if spOf s < 2 then some (.stackUnderflow s.regs.sp)
  else (readFault s (spOf s - 2) true).map (fun k => .bus k (spOf s - 2))

/-- The faults of a pop that does not happen (R171), the read's refusal being one that the rules give. -/
def PopRefusal (s : State) (f : Fault) : Prop :=
  if spOf s < 2 then f = .stackUnderflow s.regs.sp
  else ∃ k, ReadRefusal s (spOf s - 2) true k ∧ f = .bus k (spOf s - 2)

/-- `t` is `s` after a push of `v`: the word at the old SP, SP grown by 2, nothing else changed (R170). -/
def Pushed (s t : State) (v : Word) : Prop :=
  ∃ u, Stored s u (spOf s) [hiByte v, loByte v] ∧ t = { u with regs := { u.regs with sp := s.regs.sp + 2 } }

/-! ## Ends of an executor -/

/-- The outcome is `advance()` from `t` over `len` bytes (R115): the next state with PC moved on, or PcOverflow. -/
def AdvancesFrom (o : Host.Outcome State Fault Refusal) (t : State) (len : Nat) : Prop :=
  (t.regs.pc.toNat + len ≤ 0xFFFF →
    o = .next { t with regs := { t.regs with pc := t.regs.pc + BitVec.ofNat 16 len } }) ∧
  (0xFFFF < t.regs.pc.toNat + len → o = .fault (.pcOverflow t.regs.pc))

/-! ## Shapes of the families -/

/-- The rules of a two-operand instruction (forms RI and RR): its encodings, the register checks (A first), and
`claim s x v len o` for the outcome `o` with first register `x`, second operand `v` and length `len`. -/
def TwoOperand (opRi opRr : Byte) (ri8 : Nibble → Byte → Instr) (ri16 : Nibble → Word → Instr)
    (rr : Nibble → Byte → Instr)
    (claim : State → Reg → Word → Nat → Host.Outcome State Fault Refusal → Prop) : Prop :=
  ∀ (a : Nibble) (v : Byte) (w : Word) (b : Byte),
    (encode (ri8 a v) = [opRi, a ++ 0b0000#4, v] ∧
      encode (ri16 a w) = [opRi, a ++ 0b0100#4, hiByte w, loByte w] ∧
      encode (rr a b) = [opRr, a ++ 0b0000#4, b]) ∧
    ∀ s : State,
      (8 < a.toNat →
        exec (ri8 a v) s = .fault (.invalidRegister a.toNat) ∧
        exec (ri16 a w) s = .fault (.invalidRegister a.toNat) ∧
        exec (rr a b) s = .fault (.invalidRegister a.toNat)) ∧
      ∀ x, Reg.ofIndex a.toNat = some x →
        claim s x (v.setWidth 16) 3 (exec (ri8 a v) s) ∧
        claim s x w 4 (exec (ri16 a w) s) ∧
        (8 < b.toNat → exec (rr a b) s = .fault (.invalidRegister b.toNat)) ∧
        ∀ y, Reg.ofIndex b.toNat = some y → claim s x (s.getReg y) 3 (exec (rr a b) s)

/-- A two-operand instruction that writes a result and flags and advances. -/
def WritesResult (result : Word → Word → Word) (flags : Word → Word → Flags → Flags)
    (s : State) (x : Reg) (v : Word) (len : Nat) (o : Host.Outcome State Fault Refusal) : Prop :=
  AdvancesFrom o
    { s with regs := s.regs.set x (result (s.getReg x) v), flags := flags (s.getReg x) v s.flags } len

/-- The rules of a load or store (forms RR and RD): its encodings, the register checks (A first), and
`claim s x a len o` for the outcome `o` with register `x`, bus address `a` (R103, or the address register's value) and
length `len`. -/
def MemForms (opRr opRd : Byte) (rr rd8 : Nibble → Byte → Instr) (rd16 : Nibble → Word → Instr)
    (rd20 : Nibble → Nibble → Word → Instr)
    (claim : State → Reg → Nat → Nat → Host.Outcome State Fault Refusal → Prop) : Prop :=
  ∀ (a : Nibble) (b v : Byte) (w : Word) (ad : Nibble) (lo : Word),
    (encode (rr a b) = [opRr, a ++ 0b0000#4, b] ∧
      encode (rd8 a v) = [opRd, a ++ 0b0000#4, v] ∧
      encode (rd16 a w) = [opRd, a ++ 0b0100#4, hiByte w, loByte w] ∧
      encode (rd20 a ad lo) = [opRd, a ++ 0b1000#4, 0#4 ++ ad, hiByte lo, loByte lo]) ∧
    ∀ s : State,
      (8 < a.toNat →
        exec (rr a b) s = .fault (.invalidRegister a.toNat) ∧
        exec (rd8 a v) s = .fault (.invalidRegister a.toNat) ∧
        exec (rd16 a w) s = .fault (.invalidRegister a.toNat) ∧
        exec (rd20 a ad lo) s = .fault (.invalidRegister a.toNat)) ∧
      ∀ x, Reg.ofIndex a.toNat = some x →
        (8 < b.toNat → exec (rr a b) s = .fault (.invalidRegister b.toNat)) ∧
        (∀ y, Reg.ofIndex b.toNat = some y → claim s x (s.getReg y).toNat 3 (exec (rr a b) s)) ∧
        claim s x v.toNat 3 (exec (rd8 a v) s) ∧
        claim s x w.toNat 4 (exec (rd16 a w) s) ∧
        claim s x (ad.toNat * 0x10000 + lo.toNat) 5 (exec (rd20 a ad lo) s)

/-- A load of a register: the value read and the width of the read. -/
def Loads (word : Bool) (value : State → Nat → Word)
    (s : State) (x : Reg) (a len : Nat) (o : Host.Outcome State Fault Refusal) : Prop :=
  (readFault s a word ≠ none → ∃ k, ReadRefusal s a word k ∧ o = .fault (.bus k a)) ∧
  (readFault s a word = none → AdvancesFrom o { s with regs := s.regs.set x (value s a) } len)

/-- A store of a register: the bytes stored, from the lowest address up. -/
def Stores (bytes : Word → List Byte)
    (s : State) (x : Reg) (a len : Nat) (o : Host.Outcome State Fault Refusal) : Prop :=
  (∀ k, writeFault s a (decide ((bytes (s.getReg x)).length = 2)) = some k → o = .fault (.bus k a)) ∧
  (writeFault s a (decide ((bytes (s.getReg x)).length = 2)) = none →
    ∃ t, Stored s t a (bytes (s.getReg x)) ∧ AdvancesFrom o t len)

/-- The rules of a control transfer of form D: its encodings, the fault of a long target above 0xFFFF (R260), and
`claim s t len o` for the outcome `o` with target `t` and length `len`. -/
def ControlForms (op : Byte) (d8 : Byte → Instr) (d16 : Word → Instr) (d20 : Nibble → Word → Instr)
    (claim : State → Word → Nat → Host.Outcome State Fault Refusal → Prop) : Prop :=
  ∀ (v : Byte) (w : Word) (ad : Nibble),
    (encode (d8 v) = [op, 0x00, v] ∧ encode (d16 w) = [op, 0x04, hiByte w, loByte w] ∧
      encode (d20 ad w) = [op, 0x08, 0#4 ++ ad, hiByte w, loByte w]) ∧
    ∀ s : State,
      claim s (v.setWidth 16) 3 (exec (d8 v) s) ∧
      claim s w 4 (exec (d16 w) s) ∧
      claim s w 5 (exec (d20 0 w) s) ∧
      (ad ≠ 0 → exec (d20 ad w) s = .fault (.targetOutOfRange (ad ++ w)))

/-- A conditional branch (R261): the target is the next PC when the condition holds, else `advance()`. -/
def Branches (cond : Flags → Prop) (s : State) (t : Word) (len : Nat) (o : Host.Outcome State Fault Refusal) : Prop :=
  (cond s.flags → o = .next { s with regs := { s.regs with pc := t } }) ∧
  (¬cond s.flags → AdvancesFrom o s len)

/-! ## What an instruction may write and raise -/

/-- The registers other than PC that an instruction may write: its destination, the stack pointer of the stack
operations, and R1 to R6 for REI (R21, R23, R25). -/
def mayWriteReg (i : Instr) (y : Reg) : Prop :=
  match i.parts.op with
  | .mov | .ld | .ldb | .add | .sub | .and | .or | .xor | .lsh | .rsh | .mul | .mod =>
    ∃ a, i.regA = some a ∧ Reg.ofIndex a.toNat = some y
  | .pop => y = .sp ∨ ∃ a, i.regA = some a ∧ Reg.ofIndex a.toNat = some y
  | .psh | .jsr | .ret => y = .sp
  | .rei => y = .sp ∨ y ∈ savedRegs
  | .st | .stl | .sth | .cmp | .beq | .bgt | .blt | .bof | .bne | .jmp | .hlt | .nop | .int | .bge | .ble => False

/-- Where an instruction stores and how many bytes; `none` for one that stores nothing. A register-indirect form whose
index names no register stores nothing: it faults (R105). -/
def storeSpan (i : Instr) (s : State) : Option (Nat × Nat) :=
  match i with
  | .stRr _ b => (Reg.ofIndex b.toNat).map (fun y => ((s.getReg y).toNat, 2))
  | .stRd8 _ v => some (v.toNat, 2)
  | .stRd16 _ w => some (w.toNat, 2)
  | .stRd20 _ ad lo => some (ad.toNat * 0x10000 + lo.toNat, 2)
  | .stlRr _ b | .sthRr _ b => (Reg.ofIndex b.toNat).map (fun y => ((s.getReg y).toNat, 1))
  | .stlRd8 _ v | .sthRd8 _ v => some (v.toNat, 1)
  | .stlRd16 _ w | .sthRd16 _ w => some (w.toNat, 1)
  | .stlRd20 _ ad lo | .sthRd20 _ ad lo => some (ad.toNat * 0x10000 + lo.toNat, 1)
  | .pshI8 _ | .pshI16 _ | .pshR _ | .pshD8 _ | .pshD16 _ | .pshD20 _ _ => some (spOf s, 2)
  | .jsrD8 _ | .jsrD16 _ | .jsrD20 _ _ => some (spOf s, 2)
  | _ => none

/-- The faults an executor may raise, by mnemonic (R330, R333). -/
def mayRaise (i : Instr) : Fault → Prop
  | .bus k _ =>
    i.parts.op ∈ [Opcode.ld, .ldb, .st, .stl, .sth, .psh, .pop, .jsr, .ret, .rei] ∧
      ¬(i.parts.op = .ld ∧ i.parts.mode = .immediate) ∧
      (k = .readOnly → i.parts.op ∈ [Opcode.st, .stl, .sth, .psh, .jsr]) ∧
      (k = .writeOnly → i.parts.op ∈ [Opcode.ld, .ldb, .pop, .ret, .rei] ∨
        (i.parts.op = .psh ∧ i.parts.mode = .direct)) ∧
      (k = .straddle → i.parts.op ∉ [Opcode.ldb, .stl, .sth])
  | .invalidOpcode _ | .badForm _ => False
  | .invalidRegister n => 8 < n ∧ (i.regA.map BitVec.toNat = some n ∨ i.regB.map BitVec.toNat = some n)
  | .stackUnderflow _ => i.parts.op ∈ [Opcode.pop, .ret, .rei]
  | .divideByZero => i.parts.op = .mod
  | .stackOverflow _ => i.parts.op ∈ [Opcode.psh, .jsr]
  | .pcOverflow _ => i.parts.op ∉ [Opcode.jmp, .ret, .hlt, .rei]
  | .targetOutOfRange _ => i.parts.op ∈ [Opcode.beq, .bgt, .blt, .bof, .bne, .bge, .ble, .jmp, .jsr]
  | .shiftOverflow n => i.parts.op ∈ [Opcode.lsh, .rsh] ∧ 15 < n.toNat
  | .invalidInterrupt n => i.parts.op = .int ∧ 254 < n.toNat

/-- Instructions executed one after another, fetch apart, stopping at the first that answers no next state. -/
def execAll : List Instr → State → Host.Outcome State Fault Refusal
  | [], s => .next s
  | i :: is, s =>
    match exec i s with
    | .next t => execAll is t
    | .fault k => .fault k
    | .refused r => .refused r

end Sys2Proof.Claims
end

