-- ==== Sys2Proof/Certificates/Slice0/Obligations.lean ====
section
/-! DEFINITION. The statements for the provers, from the numbered rules of spec/. Each docstring names the rules. -/

open Sys2Proof Sys2Proof.Machine Sys2Proof.Claims

/-! ## Encoding -/

/-- R124's worked encodings, both ways. -/
def Obligations.WorkedEncodings : Prop :=
  ∀ c ∈ ([(.ldRi16 0 0xDEAD, [0x01, 0x04, 0xDE, 0xAD]), (.movRr 1 2, [0x40, 0x10, 0x02]),
      (.pshD16 500, [0x83, 0x04, 0x01, 0xF4]), (.popR 1, [0x44, 0x1C]), (.hltN, [0xD3, 0x0C]),
      (.ldRd20 0 1 0x2345, [0x81, 0x08, 0x01, 0x23, 0x45])] : List (Instr × List Byte)),
    encode c.1 = c.2 ∧ decode c.2 = .ok (c.1, [])

/-- R117 carried from the opcode byte to whole instructions: under any numbering in which no two mnemonics and no two
modes share a number, decoding an encoded instruction gives it back, whatever bytes follow, and takes exactly its
bytes. -/
def Obligations.DecodeEncodeEveryNumbering : Prop :=
  ∀ N : Numbering, N.Injective → ∀ (i : Instr) (rest : List Byte),
    decodeWith N (encodeWith N i ++ rest) = .ok (i, rest)

/-- The other direction (R99, R101, R107, R109): under any numbering, the bytes the decoder accepts are the encoding of
the instruction it answers, so no two encodings are read as one instruction and no bit is ignored. -/
def Obligations.AcceptedBytesAreTheEncoding : Prop :=
  ∀ (N : Numbering) (bs : List Byte) (i : Instr) (rest : List Byte),
    decodeWith N bs = .ok (i, rest) → bs = encodeWith N i ++ rest

/-- R109: of the 256 opcode bytes 50 are legal and 206 are not. -/
def Obligations.LegalOpcodeBytes : Prop :=
  ((List.range 256).filter (fun b => (lookup Config.numbering (BitVec.ofNat 8 b)).isSome)).length = 50 ∧
  ((List.range 256).filter (fun b => (lookup Config.numbering (BitVec.ofNat 8 b)).isNone)).length = 206

/-- R107 and R108: an opcode byte that no entry has is InvalidOpcode; one that an entry has is BadForm exactly when one
of the four form checks fails, and an instruction otherwise. -/
def Obligations.DecodeChecks : Prop :=
  ∀ (N : Numbering) (l : Latches) (adhi : Nibble),
    (lookup N (hiByte l.ir) = none → decodeLatches N l adhi = .error (.invalidOpcode (hiByte l.ir))) ∧
    ∀ row, lookup N (hiByte l.ir) = some row →
      let f := row.shape.form
      let ok := f.legalWidth (widthOf l.ir) = true ∧ l.ir.extractLsb' 0 2 = 0 ∧
        (f = .i ∨ f = .d ∨ f = .n → l.ir.extractLsb' 4 4 = 0) ∧ (widthOf l.ir = .long → adhi = 0)
      (¬ok → decodeLatches N l adhi = .error (.badForm l.ir)) ∧ (ok → ∃ i, decodeLatches N l adhi = .ok i)

/-- R100 with the table of R99: what the fetch latches for each width code, that D is set exactly for W = 10, and that
nothing else changes. -/
def Obligations.FetchByWidthCode : Prop :=
  ∀ (s : State) (ir : Word), memReadWord s.regs.pc.toNat s = .ok ir →
    let p := s.regs.pc.toNat
    let latched := fun (dr : Word) (ad : Nibble) (len : Nat) (d : Bool) =>
      { s with latches := ⟨ir, dr, ad, len⟩, flags := { s.flags with d := d } }
    (ir.extractLsb' 2 2 = 0b00 → ∀ b, memReadByte (p + 2) s = .ok b →
      fetch s = .ok (latched (b.setWidth 16) 0 3 false, 0)) ∧
    (ir.extractLsb' 2 2 = 0b01 → ∀ w, memReadWord (p + 2) s = .ok w →
      fetch s = .ok (latched w 0 4 false, 0)) ∧
    (ir.extractLsb' 2 2 = 0b10 → ∀ t w, memReadByte (p + 2) s = .ok t → memReadWord (p + 3) s = .ok w →
      fetch s = .ok (latched w (t.extractLsb' 0 4) 5 true, t.extractLsb' 4 4)) ∧
    (ir.extractLsb' 2 2 = 0b11 → fetch s = .ok (latched 0 0 2 false, 0))

/-! ## The tick -/

/-- R111: a running machine with no request pending and no fault recorded runs exactly the instruction it fetches and
decodes, on the latched state, and then clears the latches. -/
def Obligations.StepRunsDecodedInstruction : Prop :=
  ∀ (s s' : State) (adhi : Nibble) (i : Instr),
    s.fault = none → s.running = true → s.irq.pending = false →
    fetch s = .ok (s', adhi) → decodeLatches Config.numbering s'.latches adhi = .ok i →
    (∀ t, exec i s' = .next t → step s = .next { t with latches := ⟨0, 0, 0, 0⟩ }) ∧
    (∀ k, exec i s' = .fault k → step s = .fault k)

/-- The same from the bytes at the PC: where one device holds, from the PC up, bytes that decode to `i`, the tick is
`exec i` on the state whose latches and D flag the fetch has set. -/
def Obligations.StepRunsBytesAtPc : Prop :=
  ∀ (s : State) (bs : List Byte) (i : Instr),
    s.fault = none → s.running = true → s.irq.pending = false →
    decode bs = .ok (i, []) → HeldAt s s.regs.pc.toNat bs →
    ∃ s' : State, s' = { s with latches := s'.latches, flags := { s.flags with d := decide (bs.length = 5) } } ∧
      s'.latches.len = bs.length ∧ step s = endTick (exec i s')

/-- The first faults of R334's order in a tick that runs an instruction: the opcode-word fetch, then the operand fetch,
then the decode. -/
def Obligations.FetchAndDecodeFaultsInOrder : Prop :=
  ∀ s : State, s.fault = none → s.running = true → s.irq.pending = false →
    let p := s.regs.pc.toNat
    (∀ k, memReadWord p s = .error k → step s = .fault k) ∧
    (∀ ir k, memReadWord p s = .ok ir →
      (widthOf ir = .byte ∨ widthOf ir = .long) → memReadByte (p + 2) s = .error k → step s = .fault k) ∧
    (∀ ir k, memReadWord p s = .ok ir → widthOf ir = .word → memReadWord (p + 2) s = .error k →
      step s = .fault k) ∧
    (∀ ir b k, memReadWord p s = .ok ir → widthOf ir = .long → memReadByte (p + 2) s = .ok b →
      memReadWord (p + 3) s = .error k → step s = .fault k) ∧
    (∀ s' adhi b, fetch s = .ok (s', adhi) →
      decodeLatches Config.numbering s'.latches adhi = .error (.invalidOpcode b) → step s = .fault (.invalidOpcode b)) ∧
    (∀ s' adhi ir, fetch s = .ok (s', adhi) →
      decodeLatches Config.numbering s'.latches adhi = .error (.badForm ir) → step s = .fault (.badForm ir))

/-- R301: once `running` is false, no number of ticks changes anything, a pending request included. -/
def Obligations.HaltedForGood : Prop :=
  ∀ (s : State) (n : Nat), s.running = false → s.fault = none → core.run n s = .next s

/-- R305 with R340: an INT whose vector is not 0 is dispatched by the tick after it, and the return address the
dispatch saves is the address after the INT. -/
def Obligations.IntIsDispatchedNextTick : Prop :=
  ∀ (s : State) (n : Byte), s.fault = none → s.running = true → n.toNat ≤ 254 → s.regs.pc.toNat + 3 ≤ 0xFFFF →
    readFault s (2 * n.toNat) true = none → storedWord s (2 * n.toNat) ≠ 0 →
    spOf s + 16 ≤ 0xFFFF → WritableRun s (spOf s) 16 →
    ∃ t u, exec (.intI8 n) s = .next t ∧ step t = .next u ∧
      u.regs.pc = storedWord s (2 * n.toNat) ∧ u.irq.pending = false ∧
      storedWord u (spOf s + 14) = s.regs.pc + 3

/-! ## Reset and invariants -/

/-- R37: the reset value of every piece of CPU state. -/
def Obligations.ResetValues : Prop :=
  (∀ x : Reg, State.reset.getReg x = 0) ∧ State.reset.flags = ⟨false, false, false, false, false⟩ ∧
  State.reset.running = true ∧ State.reset.irq = ⟨false, 0⟩ ∧ State.reset.latches = ⟨0, 0, 0, 0⟩ ∧
  State.reset.fault = none ∧
  ∀ devices contents entry, (boot devices contents entry).regs = { Regs.zero with pc := entry }

/-- The invariant holds at reset. The device map of the reset state is the model's choice (log entry 2). -/
def Obligations.ResetMeetsInvariant : Prop := Inv State.reset

/-- Every tick keeps the invariant, from every state that meets it: each device's storage stays in canonical form and
within its range, and the decode latches are clear again (R31, R53, R111). -/
def Obligations.StepKeepsInvariant : Prop :=
  ∀ s t : State, Inv s → step s = .next t → Inv t

/-- No tick changes the device list, a device's kind or range, or the storage of a device that cannot be written: the
map is fixed once the run starts (R55), and code in ROM cannot be modified by the CPU (R74). -/
def Obligations.StepKeepsDeviceMapAndRom : Prop :=
  ∀ s t : State, step s = .next t →
    t.devices.length = s.devices.length ∧
    ∀ (k : Nat) (d d' : Device), s.devices[k]? = some d → t.devices[k]? = some d' → SameDevice d d'

/-! ## The bus -/

/-- The reads of the bus (R51, R53, R54, R56, R58): the first device that claims the address answers; big-endian words,
no alignment rule, `NoDevices`, `WriteOnly` and `Straddle` as the rules say. Where a device cannot be read, `WriteOnly`
comes before `Straddle`: the model's choice, log entry 6. -/
def Obligations.BusReadAnswers : Prop :=
  ∀ (s : State) (a : Nat),
    (∀ k, readFault s a false = some k → memReadByte a s = .error (.bus k a)) ∧
    (readFault s a false = none → memReadByte a s = .ok (storedByte s a)) ∧
    (∀ k, readFault s a true = some k → memReadWord a s = .error (.bus k a)) ∧
    (readFault s a true = none → memReadWord a s = .ok (storedWord s a))

/-- The writes of the bus (R51, R53, R54, R56, R58): the high byte at the address and the low byte after it, in the
first device that claims the address, and no other byte; nothing is written where the bus answers otherwise. Where a
device cannot be written, `ReadOnly` comes before `Straddle`, as R152 has it of ROM: log entry 6. -/
def Obligations.BusWriteAnswers : Prop :=
  ∀ (s : State) (a : Nat) (v : Word) (b : Byte),
    (∀ k, writeFault s a false = some k → memWriteByte a b s = .error (.bus k a)) ∧
    (writeFault s a false = none → ∃ t, memWriteByte a b s = .ok t ∧ Stored s t a [b]) ∧
    (∀ k, writeFault s a true = some k → memWriteWord a v s = .error (.bus k a)) ∧
    (writeFault s a true = none → ∃ t, memWriteWord a v s = .ok t ∧ Stored s t a [hiByte v, loByte v])

/-- R66: a byte read of a written word gives its high byte at the address and its low byte after it, and a word read
after two byte writes joins them, where one device answers for both addresses and can be read. -/
def Obligations.MixedWidthAccess : Prop :=
  ∀ (s : State) (a : Nat) (d : Device), arbitrate s.devices a = some d → arbitrate s.devices (a + 1) = some d →
    d.kind.readable = true →
    (∀ v t, memWriteWord a v s = .ok t →
      memReadByte a t = .ok (v.extractLsb' 8 8) ∧ memReadByte (a + 1) t = .ok (v.extractLsb' 0 8) ∧
      memReadWord a t = .ok v) ∧
    (∀ b c t u, memWriteByte a b s = .ok t → memWriteByte (a + 1) c t = .ok u →
      memReadWord a u = .ok (b ++ c))

/-! ## Flags -/

/-- R27: the flags word's five bits, its zero bits, and that a popped word's bits 15:5 are ignored. -/
def Obligations.FlagsWordLayout : Prop :=
  (∀ f : Flags, (flagsWord f).getLsbD 0 = f.z ∧ (flagsWord f).getLsbD 1 = f.o ∧ (flagsWord f).getLsbD 2 = f.l ∧
    (flagsWord f).getLsbD 3 = f.g ∧ (flagsWord f).getLsbD 4 = f.d ∧ (flagsWord f).extractLsb' 5 11 = 0) ∧
  (∀ w : Word, flagsOfWord w =
    ⟨w.getLsbD 0, w.getLsbD 1, w.getLsbD 2, w.getLsbD 3, w.getLsbD 4⟩) ∧
  ∀ w w' : Word, w.extractLsb' 0 5 = w'.extractLsb' 0 5 → flagsOfWord w = flagsOfWord w'

/-- R28: a CMP leaves exactly one of Z, L and G set, and no instruction but REI leaves more than one set where at most
one was. -/
def Obligations.ComparisonFlagsExclusive : Prop :=
  ∀ (i : Instr) (s t : State), exec i s = .next t →
    (i.parts.op = .cmp → ExactlyOneComparison t.flags) ∧
    (i.parts.op ≠ .rei → AtMostOneComparison s.flags → AtMostOneComparison t.flags)

/-! ## Data movement -/

/-- MOV rA, rB (R140), A = 6 and A = B included: the source is read first, PC moves after the write. -/
def Obligations.MovResult : Prop :=
  ∀ (a : Nibble) (b : Byte),
    encode (.movRr a b) = [0x40, a ++ 0b0000#4, b] ∧
    ∀ s : State,
      (8 < a.toNat → exec (.movRr a b) s = .fault (.invalidRegister a.toNat)) ∧
      ∀ x, Reg.ofIndex a.toNat = some x →
        (8 < b.toNat → exec (.movRr a b) s = .fault (.invalidRegister b.toNat)) ∧
        ∀ y, Reg.ofIndex b.toNat = some y →
          AdvancesFrom (exec (.movRr a b) s) { s with regs := s.regs.set x (s.getReg y) } 3

/-- LD rA, imm (R143), the 8-bit immediate zero-extended. -/
def Obligations.LdImmediateResult : Prop :=
  ∀ (a : Nibble) (v : Byte) (w : Word),
    encode (.ldRi8 a v) = [0x01, a ++ 0b0000#4, v] ∧
    encode (.ldRi16 a w) = [0x01, a ++ 0b0100#4, hiByte w, loByte w] ∧
    ∀ s : State,
      (8 < a.toNat → exec (.ldRi8 a v) s = .fault (.invalidRegister a.toNat) ∧
        exec (.ldRi16 a w) s = .fault (.invalidRegister a.toNat)) ∧
      ∀ x, Reg.ofIndex a.toNat = some x →
        AdvancesFrom (exec (.ldRi8 a v) s) { s with regs := s.regs.set x (v.setWidth 16) } 3 ∧
        AdvancesFrom (exec (.ldRi16 a w) s) { s with regs := s.regs.set x w } 4

/-- LD from memory (R144, R145): the word at the address register's value, or at the direct or long address. -/
def Obligations.LdMemoryResult : Prop :=
  MemForms 0x41 0x81 .ldRr .ldRd8 .ldRd16 .ldRd20 (Loads true storedWord)

/-- LDB (R148, R149): the byte, zero-extended. -/
def Obligations.LdbResult : Prop :=
  MemForms 0x42 0x82 .ldbRr .ldbRd8 .ldbRd16 .ldbRd20 (Loads false (fun s a => (storedByte s a).setWidth 16))

/-- ST (R152, R153): bits 15:8 at the address, bits 7:0 at the next. -/
def Obligations.StResult : Prop :=
  MemForms 0x45 0x85 .stRr .stRd8 .stRd16 .stRd20 (Stores (fun v => [v.extractLsb' 8 8, v.extractLsb' 0 8]))

/-- STL (R156, R157) stores bits 7:0, STH (R160, R161) bits 15:8, one byte only. -/
def Obligations.StlSthResult : Prop :=
  MemForms 0x46 0x86 .stlRr .stlRd8 .stlRd16 .stlRd20 (Stores (fun v => [v.extractLsb' 0 8])) ∧
  MemForms 0x47 0x87 .sthRr .sthRd8 .sthRd16 .sthRd20 (Stores (fun v => [v.extractLsb' 8 8]))

/-- PSH imm (R172) and PSH rA (R173), with the push primitive of R170: SP's own old value is pushed by `PSH rsp`, and
this instruction's address by `PSH rpc`. -/
def Obligations.PshResult : Prop :=
  ∀ (a : Nibble) (v : Byte) (w : Word),
    (encode (.pshI8 v) = [0x03, 0x00, v] ∧ encode (.pshI16 w) = [0x03, 0x04, hiByte w, loByte w] ∧
      encode (.pshR a) = [0x43, a ++ 0b1100#4]) ∧
    ∀ s : State,
      (8 < a.toNat → exec (.pshR a) s = .fault (.invalidRegister a.toNat)) ∧
      (∀ k, pushFault s = some k → exec (.pshI8 v) s = .fault k ∧ exec (.pshI16 w) s = .fault k ∧
        ∀ x, Reg.ofIndex a.toNat = some x → exec (.pshR a) s = .fault k) ∧
      (pushFault s = none →
        (∃ t, Pushed s t (v.setWidth 16) ∧ AdvancesFrom (exec (.pshI8 v) s) t 3) ∧
        (∃ t, Pushed s t w ∧ AdvancesFrom (exec (.pshI16 w) s) t 4) ∧
        ∀ x, Reg.ofIndex a.toNat = some x →
          ∃ t, Pushed s t (s.getReg x) ∧ AdvancesFrom (exec (.pshR a) s) t 2)

/-- PSH $addr (R174): the word stored at the address is pushed; a fault of the read comes first. -/
def Obligations.PshMemoryResult : Prop :=
  ∀ (v : Byte) (w : Word) (ad : Nibble) (lo : Word),
    (encode (.pshD8 v) = [0x83, 0x00, v] ∧ encode (.pshD16 w) = [0x83, 0x04, hiByte w, loByte w] ∧
      encode (.pshD20 ad lo) = [0x83, 0x08, 0#4 ++ ad, hiByte lo, loByte lo]) ∧
    ∀ (s : State) (i : Instr) (a len : Nat),
      (i, a, len) ∈ [(Instr.pshD8 v, v.toNat, 3), (.pshD16 w, w.toNat, 4),
        (.pshD20 ad lo, ad.toNat * 0x10000 + lo.toNat, 5)] →
      (readFault s a true ≠ none → ∃ k, ReadRefusal s a true k ∧ exec i s = .fault (.bus k a)) ∧
      (readFault s a true = none →
        (∀ k, pushFault s = some k → exec i s = .fault k) ∧
        (pushFault s = none → ∃ t, Pushed s t (storedWord s a) ∧ AdvancesFrom (exec i s) t len))

/-- POP rA (R177) with the pop primitive of R171: SP shrinks by 2 before the read; `POP rsp` leaves the popped word,
`POP rpc` the popped word + 2. -/
def Obligations.PopResult : Prop :=
  ∀ a : Nibble, encode (.popR a) = [0x44, a ++ 0b1100#4] ∧
    ∀ s : State,
      (8 < a.toNat → exec (.popR a) s = .fault (.invalidRegister a.toNat)) ∧
      ∀ x, Reg.ofIndex a.toNat = some x →
        (popFault s ≠ none → ∃ k, PopRefusal s k ∧ exec (.popR a) s = .fault k) ∧
        (popFault s = none →
          AdvancesFrom (exec (.popR a) s)
            { s with regs := { s.regs with sp := s.regs.sp - 2 }.set x (storedWord s (spOf s - 2)) } 2)

/-! ## Compare, arithmetic and logic -/

/-- CMP (R200): Z, L and G, unsigned; O and D and every register but PC unchanged. -/
def Obligations.CmpResult : Prop :=
  TwoOperand 0x08 0x48 .cmpRi8 .cmpRi16 .cmpRr (fun s x v len o =>
    AdvancesFrom o
      { s with flags :=
        { s.flags with
          z := decide ((s.getReg x).toNat = v.toNat)
          l := decide ((s.getReg x).toNat < v.toNat)
          g := decide (v.toNat < (s.getReg x).toNat) } } len)

/-- ADD (R205): the sum modulo 2^16; O is the unsigned carry out. -/
def Obligations.AddResult : Prop :=
  TwoOperand 0x10 0x50 .addRi8 .addRi16 .addRr
    (WritesResult (fun x y => BitVec.ofNat 16 ((x.toNat + y.toNat) % 0x10000))
      (fun x y f => { f with o := decide (0xFFFF < x.toNat + y.toNat) }))

/-- SUB (R208): the difference modulo 2^16; O is the unsigned borrow. -/
def Obligations.SubResult : Prop :=
  TwoOperand 0x11 0x51 .subRi8 .subRi16 .subRr
    (WritesResult (fun x y => BitVec.ofInt 16 ((x.toNat : Int) - (y.toNat : Int)))
      (fun x y f => { f with o := decide (x.toNat < y.toNat) }))

/-- AND, OR and XOR (R215, R218, R221): bit by bit, no flag. -/
def Obligations.LogicResults : Prop :=
  TwoOperand 0x17 0x57 .andRi8 .andRi16 .andRr
    (WritesResult (fun x y => BitVec.ofNat 16 (x.toNat &&& y.toNat)) (fun _ _ f => f)) ∧
  TwoOperand 0x18 0x58 .orRi8 .orRi16 .orRr
    (WritesResult (fun x y => BitVec.ofNat 16 (x.toNat ||| y.toNat)) (fun _ _ f => f)) ∧
  TwoOperand 0x19 0x59 .xorRi8 .xorRi16 .xorRr
    (WritesResult (fun x y => BitVec.ofNat 16 (x.toNat ^^^ y.toNat)) (fun _ _ f => f))

/-- LSH and RSH (R225, R228): logical shifts, no flag; an amount above 15 raises ShiftOverflow. -/
def Obligations.ShiftResults : Prop :=
  TwoOperand 0x1A 0x5A .lshRi8 .lshRi16 .lshRr (fun s x v len o =>
    (15 < v.toNat → o = .fault (.shiftOverflow v)) ∧
    (v.toNat ≤ 15 → WritesResult (fun x y => BitVec.ofNat 16 ((x.toNat <<< y.toNat) % 0x10000))
      (fun _ _ f => f) s x v len o)) ∧
  TwoOperand 0x1B 0x5B .rshRi8 .rshRi16 .rshRr (fun s x v len o =>
    (15 < v.toNat → o = .fault (.shiftOverflow v)) ∧
    (v.toNat ≤ 15 → WritesResult (fun x y => BitVec.ofNat 16 (x.toNat >>> y.toNat))
      (fun _ _ f => f) s x v len o))

/-- MUL (R235): the low half of the unsigned product; O is whether it exceeds 0xFFFF. -/
def Obligations.MulResult : Prop :=
  TwoOperand 0x1C 0x5C .mulRi8 .mulRi16 .mulRr
    (WritesResult (fun x y => BitVec.ofNat 16 ((x.toNat * y.toNat) % 0x10000))
      (fun x y f => { f with o := decide (0xFFFF < x.toNat * y.toNat) }))

/-- MOD (R240): the unsigned remainder, no flag; a zero divisor raises DivideByZero. -/
def Obligations.ModResult : Prop :=
  TwoOperand 0x1D 0x5D .modRi8 .modRi16 .modRr (fun s x v len o =>
    (v = 0 → o = .fault .divideByZero) ∧
    (v ≠ 0 → WritesResult (fun x y => BitVec.ofNat 16 (x.toNat % y.toNat)) (fun _ _ f => f) s x v len o))

/-! ## Control transfer -/

/-- The seven conditional branches (R260 to R268): the condition on the flags as they stand, the target or `advance()`,
the target checked whether or not the branch is taken. -/
def Obligations.BranchResults : Prop :=
  ControlForms 0x89 .beqD8 .beqD16 .beqD20 (Branches (fun f => f.z = true)) ∧
  ControlForms 0x8A .bgtD8 .bgtD16 .bgtD20 (Branches (fun f => f.g = true)) ∧
  ControlForms 0x8B .bltD8 .bltD16 .bltD20 (Branches (fun f => f.l = true)) ∧
  ControlForms 0x8C .bofD8 .bofD16 .bofD20 (Branches (fun f => f.o = true)) ∧
  ControlForms 0x8D .bneD8 .bneD16 .bneD20 (Branches (fun f => f.z = false)) ∧
  ControlForms 0x9E .bgeD8 .bgeD16 .bgeD20 (Branches (fun f => f.g = true ∨ f.z = true)) ∧
  ControlForms 0x9F .bleD8 .bleD16 .bleD20 (Branches (fun f => f.l = true ∨ f.z = true))

/-- JMP (R270): PC is the target and nothing else changes. -/
def Obligations.JmpResult : Prop :=
  ControlForms 0x8E .jmpD8 .jmpD16 .jmpD20 (fun s t _ o => o = .next { s with regs := { s.regs with pc := t } })

/-- JSR (R272): the target, then the return address's own overflow check, then the push, then the jump. -/
def Obligations.JsrResult : Prop :=
  ControlForms 0x8F .jsrD8 .jsrD16 .jsrD20 (fun s t len o =>
    (0xFFFF < s.regs.pc.toNat + len → o = .fault (.pcOverflow s.regs.pc)) ∧
    (s.regs.pc.toNat + len ≤ 0xFFFF →
      (∀ k, pushFault s = some k → o = .fault k) ∧
      (pushFault s = none → ∃ u, Pushed s u (s.regs.pc + BitVec.ofNat 16 len) ∧
        o = .next { u with regs := { u.regs with pc := t } })))

/-- RET (R275): PC is the popped word; no advance. -/
def Obligations.RetResult : Prop :=
  encode .retN = [0xD2, 0x0C] ∧
  ∀ s : State,
    (popFault s ≠ none → ∃ k, PopRefusal s k ∧ exec .retN s = .fault k) ∧
    (popFault s = none →
      exec .retN s =
        .next { s with regs := { s.regs with sp := s.regs.sp - 2, pc := storedWord s (spOf s - 2) } })

/-! ## System -/

/-- HLT (R300): running becomes false, PC keeps the address of the HLT, nothing else changes, and the next tick does
nothing, a pending request included. NOP (R302): advance only. -/
def Obligations.HltNopResults : Prop :=
  encode .hltN = [0xD3, 0x0C] ∧ encode .nopN = [0xD4, 0x0C] ∧
  ∀ s : State, exec .hltN s = .next { s with running := false } ∧
    (s.fault = none → step { s with running := false } = .next { s with running := false }) ∧
    AdvancesFrom (exec .nopN s) s 2

/-- INT imm (R305): the latch holds the request; a number above 254 raises InvalidInterrupt. -/
def Obligations.IntResult : Prop :=
  ∀ (v : Byte) (w : Word),
    (encode (.intI8 v) = [0x15, 0x00, v] ∧ encode (.intI16 w) = [0x15, 0x04, hiByte w, loByte w]) ∧
    ∀ s : State,
      (254 < v.toNat → exec (.intI8 v) s = .fault (.invalidInterrupt (v.setWidth 16))) ∧
      (254 < w.toNat → exec (.intI16 w) s = .fault (.invalidInterrupt w)) ∧
      (∀ n : Fin 255, n.val = v.toNat → AdvancesFrom (exec (.intI8 v) s) { s with irq := ⟨true, n⟩ } 3) ∧
      (∀ n : Fin 255, n.val = w.toNat → AdvancesFrom (exec (.intI16 w) s) { s with irq := ⟨true, n⟩ } 4)

/-- REI (R310): PC, then the flags word, then R6 down to R1 are popped; SP ends 16 lower; no advance; an SP below 16
underflows where the reads before it are served. -/
def Obligations.ReiResult : Prop :=
  encode .reiN = [0xD6, 0x0C] ∧
  ∀ s : State,
    (16 ≤ spOf s → (∀ k < 8, readFault s (spOf s - 16 + 2 * k) true = none) →
      let w := fun k => storedWord s (spOf s - 16 + 2 * k)
      exec .reiN s = .next
        { s with
          regs := ⟨w 0, w 1, w 2, w 3, w 4, w 5, w 7, s.regs.sp - 16, s.regs.bp⟩
          flags := ⟨(w 6).getLsbD 0, (w 6).getLsbD 1, (w 6).getLsbD 2, (w 6).getLsbD 3, (w 6).getLsbD 4⟩ }) ∧
    (spOf s < 16 → (∀ k, 1 ≤ k → 2 * k ≤ spOf s → readFault s (spOf s - 2 * k) true = none) →
      ∃ w, exec .reiN s = .fault (.stackUnderflow w))

/-! ## Faults -/

/-- R20, R105 and R336: indices 0 to 8 name the nine registers and no other index names one; an instruction whose
register nibble is above 8 faults with that index before anything else, else one whose data byte B is above 8 with that
one; a well-formed instruction never raises InvalidRegister. -/
def Obligations.InvalidRegisterFirst : Prop :=
  (∀ n, Reg.ofIndex n = [Reg.r1, .r2, .r3, .r4, .r5, .r6, .pc, .sp, .bp][n]?) ∧
  ∀ (i : Instr) (s : State),
    (∀ a, i.regA = some a → 8 < a.toNat → exec i s = .fault (.invalidRegister a.toNat)) ∧
    (∀ a b, i.regA = some a → i.regB = some b → a.toNat ≤ 8 → 8 < b.toNat →
      exec i s = .fault (.invalidRegister b.toNat)) ∧
    (i.WellFormed = true → ∀ n, exec i s ≠ .fault (.invalidRegister n))

/-- R330 and R333: an executor raises only the faults its mnemonic may raise, for every instruction. -/
def Obligations.OnlyListedFaults : Prop :=
  ∀ (i : Instr) (s : State) (k : Fault), exec i s = .fault k → mayRaise i k

/-- Every instruction is executed or faults: none is refused (R106, R110). -/
def Obligations.NothingRefused : Prop :=
  (∀ (i : Instr) (s : State) (r : Refusal), exec i s ≠ .refused r) ∧
  ∀ (s : State) (r : Refusal), step s ≠ .refused r

/-! ## Interrupts -/

/-- R345 (with R340): entry saves R1 to R6, the flags word and the PC upward from SP; SP grows by 16; PC is the vector;
the request is no longer pending; nothing else changes. -/
def Obligations.DispatchEntry : Prop :=
  ∀ s : State, s.fault = none → s.running = true → s.irq.pending = true →
    readFault s (2 * s.irq.number.val) true = none → storedWord s (2 * s.irq.number.val) ≠ 0 →
    spOf s + 16 ≤ 0xFFFF → WritableRun s (spOf s) 16 →
    ∃ t, step s = .next t ∧ t.irq.pending = false ∧
      t = { s with
        regs := { s.regs with pc := storedWord s (2 * s.irq.number.val), sp := s.regs.sp + 16 }
        irq := t.irq
        devices := t.devices } ∧
      SameBytesOutside s t (spOf s) 16 ∧
      storedWord t (spOf s) = s.regs.r1 ∧ storedWord t (spOf s + 2) = s.regs.r2 ∧
      storedWord t (spOf s + 4) = s.regs.r3 ∧ storedWord t (spOf s + 6) = s.regs.r4 ∧
      storedWord t (spOf s + 8) = s.regs.r5 ∧ storedWord t (spOf s + 10) = s.regs.r6 ∧
      storedWord t (spOf s + 12) = flagsWord s.flags ∧ storedWord t (spOf s + 14) = s.regs.pc

/-- R341: a request whose vector is 0 is dropped: nothing is pushed, no register, flag or byte changes. R340: a vector
that cannot be read is the fault of that read. Where the vector lies at the last byte of a device that cannot be read,
the kind is `WriteOnly` and not `Straddle`: the model's choice, log entry 6. -/
def Obligations.DispatchZeroOrUnreadableVector : Prop :=
  ∀ s : State, s.fault = none → s.running = true → s.irq.pending = true →
    (∀ k, readFault s (2 * s.irq.number.val) true = some k →
      step s = .fault (.bus k (2 * s.irq.number.val))) ∧
    (readFault s (2 * s.irq.number.val) true = none → storedWord s (2 * s.irq.number.val) = 0 →
      ∃ t, step s = .next t ∧ t.irq.pending = false ∧ t = { s with irq := t.irq })

/-- R396 with R332: where the first `j` pushes of an interrupt entry are served and the next is not, the tick faults and
the `j` words have been written, in the order of R345, and no other byte. That the recorded state keeps its registers
as before the tick is the model's choice, log entry 7, and is not stated. -/
def Obligations.FaultedEntryKeepsEarlierPushes : Prop :=
  ∀ (s : State) (j : Nat), s.fault = none → s.running = true → s.irq.pending = true →
    readFault s (2 * s.irq.number.val) true = none → storedWord s (2 * s.irq.number.val) ≠ 0 →
    j < 8 → spOf s + 2 * j ≤ 0xFFFF → WritableRun s (spOf s) (2 * j) →
    (0xFFFD < spOf s + 2 * j ∨ writeFault s (spOf s + 2 * j) true ≠ none) →
    ∃ k, step s = .fault k ∧ (recordTick Config.numbering s).fault = some k ∧
      SameBytesOutside s (recordTick Config.numbering s) (spOf s) (2 * j) ∧
      ∀ i < j, (interruptFrame s)[i]? = some (storedWord (recordTick Config.numbering s) (spOf s + 2 * i))

/-- R347 with R310 and R345: an interrupt entry and a REI right after it give back every register, SP and PC included,
and every flag. -/
def Obligations.DispatchThenReiRestores : Prop :=
  ∀ s : State, s.fault = none → s.running = true → s.irq.pending = true →
    readFault s (2 * s.irq.number.val) true = none → storedWord s (2 * s.irq.number.val) ≠ 0 →
    spOf s + 16 ≤ 0xFFFF → WritableRun s (spOf s) 16 → (∀ k < 8, readFault s (spOf s + 2 * k) true = none) →
    ∃ t u, step s = .next t ∧ exec .reiN t = .next u ∧ u.regs = s.regs ∧ u.flags = s.flags

/-! ## The stack over several instructions -/

/-- R178, of `PSH imm` with a 16-bit immediate: N pushes and then N pops, where none faults and the pops name distinct
registers other than SP and PC, give SP back and the pushed values in last-in first-out order. -/
def Obligations.StackDiscipline : Prop :=
  ∀ (s t : State) (vs : List Word) (as : List Nibble) (xs : List Reg),
    as.map (fun a => Reg.ofIndex a.toNat) = xs.map some → xs.length = vs.length → xs.Nodup →
    Reg.sp ∉ xs → Reg.pc ∉ xs →
    execAll (vs.map Instr.pshI16 ++ as.map Instr.popR) s = .next t →
    t.regs.sp = s.regs.sp ∧ xs.map t.getReg = vs.reverse

/-- R275: a RET after a JSR returns to the instruction after the JSR, with SP as before. -/
def Obligations.CallThenReturn : Prop :=
  ∀ (s t : State) (i : Instr), i.parts.op = .jsr → exec i s = .next t → readFault s (spOf s) true = none →
    exec .retN t =
      .next { t with regs := { s.regs with pc := s.regs.pc + BitVec.ofNat 16 i.length } }

/-- R262 to R268, the corner cases: after a CMP of `x` with `y` each comparison branch is taken exactly as its name says
of the two unsigned numbers. -/
def Obligations.BranchAfterCompare : Prop :=
  ∀ (s t : State) (c i : Instr) (x y : Word) (w : Word),
    (∃ a rx, Reg.ofIndex a.toNat = some rx ∧ x = s.getReg rx ∧
      (c = .cmpRi16 a y ∨ (∃ v : Byte, y = v.setWidth 16 ∧ c = .cmpRi8 a v) ∨
        ∃ b ry, Reg.ofIndex b.toNat = some ry ∧ y = s.getReg ry ∧ c = .cmpRr a b)) →
    exec c s = .next t → t.regs.pc.toNat + 4 ≤ 0xFFFF →
    ∀ taken : Bool,
      (i, taken) ∈ [(Instr.beqD16 w, decide (x.toNat = y.toNat)), (.bneD16 w, decide (x.toNat ≠ y.toNat)),
        (.bgtD16 w, decide (y.toNat < x.toNat)), (.bltD16 w, decide (x.toNat < y.toNat)),
        (.bgeD16 w, decide (y.toNat ≤ x.toNat)), (.bleD16 w, decide (x.toNat ≤ y.toNat))] →
      exec i t = .next { t with regs := { t.regs with pc := if taken then w else t.regs.pc + 4 } }

/-! ## Frames, for every instruction -/

/-- No instruction writes a register other than PC, its destination, SP for the stack operations, and R1 to R6 for REI
(R21, R23, R38). -/
def Obligations.RegisterFrame : Prop :=
  ∀ (i : Instr) (s t : State), exec i s = .next t →
    ∀ y, y ≠ Reg.pc → ¬mayWriteReg i y → t.getReg y = s.getReg y

/-- R25: which instructions write each flag; every other leaves it unchanged. D is written by the fetch (R100) and, of
the executors, by REI alone. -/
def Obligations.FlagFrame : Prop :=
  ∀ (i : Instr) (s t : State), exec i s = .next t →
    (i.parts.op ∉ [Opcode.cmp, .rei] → t.flags.z = s.flags.z ∧ t.flags.l = s.flags.l ∧ t.flags.g = s.flags.g) ∧
    (i.parts.op ∉ [Opcode.add, .sub, .mul, .rei] → t.flags.o = s.flags.o) ∧
    (i.parts.op ≠ .rei → t.flags.d = s.flags.d)

/-- Every byte of memory outside the bytes an instruction stores reads as before, and every byte where it stores none
(ST 2 bytes, STL and STH 1, PSH and JSR 2 at SP; every other instruction none). -/
def Obligations.MemoryFrame : Prop :=
  ∀ (i : Instr) (s t : State), exec i s = .next t →
    (storeSpan i s = none → ∀ b, memReadByte b t = memReadByte b s) ∧
    ∀ a n, storeSpan i s = some (a, n) → SameBytesOutside s t a n

/-- Only HLT clears `running` and only INT sets the request latch; no executor touches the decode latches, the fault
record, or the host's input queue and stop flag (R29, R30, R38, R365). -/
def Obligations.ControlStateFrame : Prop :=
  ∀ (i : Instr) (s t : State), exec i s = .next t →
    (i.parts.op ≠ .hlt → t.running = s.running) ∧
    (i.parts.op ≠ .int → t.irq = s.irq) ∧
    t.latches = s.latches ∧ t.fault = s.fault ∧ t.input = s.input ∧ t.stopRequested = s.stopRequested
end

