-- ==== Sys2Proof/Laws/Bus.lean ====
section
/-! SUPPORT. The laws of storage, devices and the arbiter: read after write, the canonical form, and for each bus
operation everything it can answer. -/

namespace Sys2Proof.Machine

open Sys2Proof.Claims

/-! ## Storage -/

theorem Memory.read_cons_self (m : Memory) (a : Nat) (v : Byte) (h : m.read a = Config.unlistedByte) :
    (Memory.cons a v m).read a = v := by
  unfold Memory.cons
  split
  · rename_i hv; rw [h, hv]
  · simp [Memory.read]

theorem Memory.read_dropWhile_gt (m : Memory) {a b : Nat} (h : a < b) :
    Memory.read (m.dropWhile (fun c => decide (c.1 ≤ a))) b = m.read b := by
  induction m with
  | nil => rfl
  | cons c m ih =>
    obtain ⟨k, x⟩ := c
    by_cases hk : k ≤ a
    · have h1 : ¬b < k := by omega
      have h2 : ¬k = b := by omega
      simp [hk, Memory.read, h1, h2, ih]
    · simp [hk]

theorem Memory.read_dropWhile_le (m : Memory) {a b : Nat} (h : b ≤ a) :
    Memory.read (m.dropWhile (fun c => decide (c.1 ≤ a))) b = Config.unlistedByte := by
  induction m with
  | nil => rfl
  | cons c m ih =>
    obtain ⟨k, x⟩ := c
    by_cases hk : k ≤ a
    · simp [hk, ih]
    · have : b < k := by omega
      simp [hk, Memory.read, this]

/-- A read of the written address gives the byte written. -/
@[simp] theorem Memory.read_write_self (m : Memory) (a : Nat) (v : Byte) : (m.write a v).read a = v := by
  induction m with
  | nil => exact Memory.read_cons_self [] a v rfl
  | cons c m ih =>
    obtain ⟨k, x⟩ := c
    unfold Memory.write
    split
    · rename_i h; exact Memory.read_cons_self _ a v (by simp [Memory.read, h])
    · split
      · exact Memory.read_cons_self _ a v (Memory.read_dropWhile_le m (Nat.le_refl a))
      · rename_i h1 h2
        simp [Memory.read, h1, h2, ih]

/-- A write leaves every other address alone. -/
theorem Memory.read_write_ne (m : Memory) {a b : Nat} (v : Byte) (h : b ≠ a) : (m.write a v).read b = m.read b := by
  induction m with
  | nil =>
    simp only [Memory.write, Memory.cons]
    split
    · rfl
    · have : ¬a = b := fun e => h e.symm
      simp [Memory.read, this]
  | cons c m ih =>
    obtain ⟨k, x⟩ := c
    have hab : ¬a = b := fun e => h e.symm
    simp only [Memory.write]
    split
    · rename_i hak
      simp only [Memory.cons]
      split
      · rfl
      · by_cases hba : b < a
        · have : b < k := by omega
          simp [Memory.read, hba, this]
        · simp [Memory.read, hba, hab]
    · split
      · rename_i h1 h2
        subst h2
        simp only [Memory.cons]
        by_cases hbk : b < k
        · split
          · simp [Memory.read, hbk, Memory.read_dropWhile_le m (Nat.le_of_lt hbk)]
          · simp [Memory.read, hbk]
        · have hkb : k < b := by omega
          split
          · simp [Memory.read, hbk, hab, Memory.read_dropWhile_gt m hkb]
          · simp [Memory.read, hbk, hab, Memory.read_dropWhile_gt m hkb]
      · simp only [Memory.read, ih]

/-- A write lists no address but the one written and those listed before. -/
theorem Memory.mem_write {m : Memory} {a : Nat} {v : Byte} {c : Host.Cell} (h : c ∈ m.write a v) :
    c = (a, v) ∨ c ∈ m := by
  have hcons : ∀ l : Memory, c ∈ Memory.cons a v l → c = (a, v) ∨ c ∈ l := by
    intro l hl
    unfold Memory.cons at hl
    split at hl
    · exact .inr hl
    · exact List.mem_cons.1 hl
  induction m with
  | nil => exact hcons [] h
  | cons e m ih =>
    obtain ⟨k, x⟩ := e
    unfold Memory.write at h
    split at h
    · exact hcons _ h
    · split at h
      · rcases hcons _ h with h | h
        · exact .inl h
        · exact .inr (List.mem_cons_of_mem _ ((List.dropWhile_sublist _).subset h))
      · rcases List.mem_cons.1 h with h | h
        · exact .inr (h ▸ List.mem_cons_self)
        · exact (ih h).imp_right (List.mem_cons_of_mem _)

theorem Memory.wf_cons {m : Memory} {a : Nat} {v : Byte} (hm : Memory.wf m) (ha : ∀ c ∈ m, a < c.1) :
    Memory.wf (Memory.cons a v m) := by
  unfold Memory.cons
  split
  · exact hm
  · rename_i hv
    exact ⟨List.pairwise_cons.2 ⟨ha, hm.1⟩, fun c hc => (List.mem_cons.1 hc).elim (fun e => e ▸ hv) (hm.2 c)⟩

/-- Every write keeps the canonical form. -/
theorem Memory.wf_write {m : Memory} (h : Memory.wf m) (a : Nat) (v : Byte) : Memory.wf (m.write a v) := by
  induction m with
  | nil => exact Memory.wf_cons h (by simp)
  | cons e m ih =>
    obtain ⟨k, x⟩ := e
    obtain ⟨hp, hn⟩ := h
    have hlt := (List.pairwise_cons.1 hp).1
    have hm : Memory.wf m := ⟨(List.pairwise_cons.1 hp).2, fun c hc => hn c (List.mem_cons_of_mem _ hc)⟩
    unfold Memory.write
    split
    · rename_i hak
      refine Memory.wf_cons ⟨hp, hn⟩ (fun c hc => ?_)
      rcases List.mem_cons.1 hc with rfl | hc
      · exact hak
      · exact Nat.lt_trans hak (hlt c hc)
    · split
      · rename_i _ hka
        subst hka
        have hsub := List.dropWhile_sublist (l := m) (fun c => decide (c.1 ≤ k))
        exact Memory.wf_cons ⟨hm.1.sublist hsub, fun c hc => hm.2 c (hsub.subset hc)⟩
          (fun c hc => hlt c (hsub.subset hc))
      · rename_i hak hka
        refine ⟨List.pairwise_cons.2 ⟨fun c hc => ?_, (ih hm).1⟩, fun c hc => ?_⟩
        · rcases Memory.mem_write hc with rfl | hc
          · show k < a; omega
          · exact hlt c hc
        · rcases List.mem_cons.1 hc with rfl | hc
          · exact hn _ List.mem_cons_self
          · exact (ih hm).2 c hc

/-- Storage in canonical form is determined by what it reads. -/
theorem Memory.eq_of_read_eq {m m' : Memory} (h : Memory.wf m) (h' : Memory.wf m') (heq : ∀ a, m.read a = m'.read a) :
    m = m' := by
  have below : ∀ (l : Memory) (a : Nat), (∀ c ∈ l, a < c.1) → l.read a = Config.unlistedByte := by
    intro l a hl
    cases l with
    | nil => rfl
    | cons c l => simp [Memory.read, hl c List.mem_cons_self]
  have head : ∀ (k : Nat) (x : Byte) (l : Memory), Memory.read ((k, x) :: l) k = x := by
    intro k x l; simp [Memory.read]
  induction m generalizing m' with
  | nil =>
    cases m' with
    | nil => rfl
    | cons c l =>
      obtain ⟨k, x⟩ := c
      exact absurd ((head k x l).symm.trans ((heq k).symm.trans rfl)) (h'.2 _ List.mem_cons_self)
  | cons c l ih =>
    obtain ⟨k, x⟩ := c
    have hl := (List.pairwise_cons.1 h.1).1
    cases m' with
    | nil => exact absurd ((head k x l).symm.trans ((heq k).trans rfl)) (h.2 _ List.mem_cons_self)
    | cons c' l' =>
      obtain ⟨k', x'⟩ := c'
      have hl' := (List.pairwise_cons.1 h'.1).1
      have hk : k = k' := by
        rcases Nat.lt_trichotomy k k' with hlt | rfl | hlt
        · refine absurd ((head k x l).symm.trans ((heq k).trans (below _ k ?_))) (h.2 _ List.mem_cons_self)
          intro c hc
          rcases List.mem_cons.1 hc with rfl | hc
          · exact hlt
          · exact Nat.lt_trans hlt (hl' c hc)
        · rfl
        · refine absurd ((head k' x' l').symm.trans ((heq k').symm.trans (below _ k' ?_)))
            (h'.2 _ List.mem_cons_self)
          intro c hc
          rcases List.mem_cons.1 hc with rfl | hc
          · exact hlt
          · exact Nat.lt_trans hlt (hl c hc)
      subst hk
      have hx : x = x' := by simpa [head] using heq k
      subst hx
      congr 1
      refine ih ⟨(List.pairwise_cons.1 h.1).2, fun c hc => h.2 c (List.mem_cons_of_mem _ hc)⟩
        ⟨(List.pairwise_cons.1 h'.1).2, fun c hc => h'.2 c (List.mem_cons_of_mem _ hc)⟩ (fun a => ?_)
      by_cases hak : k < a
      · have := heq a
        have h1 : ¬a < k := by omega
        have h2 : ¬k = a := by omega
        simpa [Memory.read, h1, h2] using this
      · rw [below l a (fun c hc => by have := hl c hc; simp only at this; omega),
          below l' a (fun c hc => by have := hl' c hc; simp only at this; omega)]

/-! ## Bytes of a word -/

@[simp] theorem wordOfBytes_hi_lo (w : Word) : wordOfBytes (hiByte w) (loByte w) = w := by
  unfold wordOfBytes hiByte loByte
  ext i hi
  simp only [BitVec.getElem_append, BitVec.getElem_extractLsb']
  split
  · simp [BitVec.getLsbD_eq_getElem hi]
  · rename_i h
    have : 8 + (i - 8) = i := by omega
    rw [this, BitVec.getLsbD_eq_getElem hi]

@[simp] theorem hiByte_wordOfBytes (h l : Byte) : hiByte (wordOfBytes h l) = h := by
  unfold wordOfBytes hiByte
  ext i hi
  have := BitVec.getLsbD_append (x := h) (y := l) (i := 8 + i)
  rw [if_neg (by omega), Nat.add_sub_cancel_left] at this
  rw [BitVec.getElem_extractLsb', ← BitVec.getLsbD_eq_getElem hi]
  exact this

@[simp] theorem loByte_wordOfBytes (h l : Byte) : loByte (wordOfBytes h l) = l := by
  unfold wordOfBytes loByte
  ext i hi
  have := BitVec.getLsbD_append (x := h) (y := l) (i := i)
  rw [if_pos hi] at this
  rw [BitVec.getElem_extractLsb', ← BitVec.getLsbD_eq_getElem hi, Nat.zero_add]
  exact this

/-! ## Devices -/

theorem Device.owns_iff (d : Device) (a : Nat) : d.owns a = true ↔ d.first.toNat ≤ a ∧ a ≤ d.last.toNat := by
  simp [Device.owns]

@[simp] theorem Device.putByte_owns (d : Device) (a b : Nat) (v : Byte) : (d.putByte a v).owns b = d.owns b := rfl

@[simp] theorem Device.putWord_owns (d : Device) (a b : Nat) (v : Word) : (d.putWord a v).owns b = d.owns b := rfl

theorem Device.putByte_same (d : Device) (a : Nat) (v : Byte) (h : d.kind.writable = true) :
    SameDevice d (d.putByte a v) :=
  ⟨rfl, rfl, rfl, fun h' => by rw [h] at h'; cases h'⟩

theorem Device.putWord_same (d : Device) (a : Nat) (v : Word) (h : d.kind.writable = true) :
    SameDevice d (d.putWord a v) :=
  ⟨rfl, rfl, rfl, fun h' => by rw [h] at h'; cases h'⟩

theorem Device.putByte_wf {d : Device} {a : Nat} (v : Byte) (h : DeviceWf d) (ha : d.owns a = true) :
    DeviceWf (d.putByte a v) := by
  refine ⟨Memory.wf_write h.1 a v, fun c hc => ?_⟩
  rcases Memory.mem_write hc with rfl | hc
  · exact ha
  · exact h.2 c hc

theorem Device.putWord_wf {d : Device} {a : Nat} (v : Word) (h : DeviceWf d) (ha : d.owns a = true)
    (hl : a ≠ d.last.toNat) : DeviceWf (d.putWord a v) := by
  have ha' : d.owns (a + 1) = true := by
    rw [Device.owns_iff] at ha ⊢
    omega
  exact Device.putByte_wf (loByte v) (Device.putByte_wf (hiByte v) h ha) ha'

/-! ## The arbiter -/

/-- What a read does: the first device that claims the address answers. -/
theorem busRead_eq {α : Type} (op : Device → Answer α) (ds : List Device) (a : Nat)
    (h : ∀ d, op d = .notMyAddress ↔ d.owns a = false) :
    busRead op ds =
      match arbitrate ds a with
      | none => .error .noDevices
      | some d =>
        match op d with
        | .ok v => .ok v
        | .readOnly => .error .readOnly
        | .writeOnly => .error .writeOnly
        | .straddle => .error .straddle
        | .notMyAddress => .error .noDevices := by
  induction ds with
  | nil => rfl
  | cons d ds ih =>
    unfold busRead arbitrate
    cases ho : d.owns a with
    | false =>
      rw [(h d).2 ho]
      simpa [List.find?_cons, ho, arbitrate] using ih
    | true =>
      have hn : op d ≠ .notMyAddress := fun e => by rw [(h d).1 e] at ho; cases ho
      simp only [List.find?_cons, ho]
      cases hop : op d <;> simp_all

/-- What a write does: the first device that claims the address is replaced by what its answer gives, every other
stays; an answer that is no store is the bus's error. -/
theorem busWrite_cases {op : Device → Answer Device} {ds ds' : List Device} {a : Nat}
    (h : ∀ d, op d = .notMyAddress ↔ d.owns a = false) (hw : busWrite op ds = .ok ds') :
    ∃ pre d d' post, ds = pre ++ d :: post ∧ ds' = pre ++ d' :: post ∧ (∀ e ∈ pre, e.owns a = false) ∧
      d.owns a = true ∧ op d = .ok d' := by
  induction ds generalizing ds' with
  | nil => cases hw
  | cons d ds ih =>
    unfold busWrite at hw
    split at hw
    · rename_i hop
      cases hb : busWrite op ds with
      | error k => rw [hb] at hw; cases hw
      | ok es =>
        rw [hb] at hw
        obtain ⟨pre, e, e', post, rfl, rfl, hpre, he, hop'⟩ := ih hb
        cases hw
        refine ⟨d :: pre, e, e', post, rfl, rfl, ?_, he, hop'⟩
        intro x hx
        rcases List.mem_cons.1 hx with rfl | hx
        · exact (h _).1 hop
        · exact hpre x hx
    all_goals first
      | cases hw; done
      | skip
    rename_i d' hop
    cases hw
    refine ⟨[], d, d', ds, rfl, rfl, by simp, ?_, hop⟩
    cases ho : d.owns a with
    | true => rfl
    | false => rw [(h d).2 ho] at hop; cases hop

/-- A write's error is that of the device that claims the address. -/
theorem busWrite_eq_error {op : Device → Answer Device} {ds : List Device} {k : BusError} :
    busWrite op ds = .error k ↔ busRead op ds = .error k := by
  induction ds with
  | nil => simp [busWrite, busRead]
  | cons d ds ih =>
    unfold busWrite busRead
    cases hop : op d with
    | notMyAddress =>
      simp only
      rw [← ih]
      cases busWrite op ds <;> simp [Except.map]
    | readOnly => simp
    | writeOnly => simp
    | straddle => simp
    | ok v => simp

theorem arbitrate_owns {ds : List Device} {a : Nat} {d : Device} (h : arbitrate ds a = some d) : d.owns a = true :=
  List.find?_some (p := fun (e : Device) => e.owns a) h

theorem arbitrate_append_cons {pre post : List Device} {d : Device} {a : Nat} (hpre : ∀ e ∈ pre, e.owns a = false)
    (hd : d.owns a = true) : arbitrate (pre ++ d :: post) a = some d := by
  unfold arbitrate
  rw [List.find?_append, List.find?_eq_none.2 (by simpa using hpre)]
  simp [hd]

/-- Replacing a device by one with the same range changes the answer for no address but through that device. -/
theorem arbitrate_replace {pre post : List Device} {d d' : Device} (ho : ∀ b, d'.owns b = d.owns b) (b : Nat) :
    (arbitrate (pre ++ d :: post) b = some d ∧ d.owns b = true ∧ arbitrate (pre ++ d' :: post) b = some d') ∨
      arbitrate (pre ++ d' :: post) b = arbitrate (pre ++ d :: post) b := by
  unfold arbitrate
  rw [List.find?_append, List.find?_append]
  cases hp : List.find? (fun e => e.owns b) pre with
  | some e => right; simp
  | none =>
    simp only [Option.none_or, List.find?_cons, ho]
    cases hb : d.owns b with
    | true => left; simp
    | false => right; simp

/-! ## The device operations against the claims' reading of the bus -/

theorem Device.readByte_none (d : Device) (a : Nat) : d.readByte a = .notMyAddress ↔ d.owns a = false := by
  unfold Device.readByte
  cases d.owns a <;> cases d.kind.readable <;> simp

theorem Device.readWord_none (d : Device) (a : Nat) : d.readWord a = .notMyAddress ↔ d.owns a = false := by
  unfold Device.readWord
  cases d.owns a <;> cases d.kind.readable <;> simp
  split <;> simp

theorem Device.writeByte_none (d : Device) (a : Nat) (v : Byte) : d.writeByte a v = .notMyAddress ↔ d.owns a = false := by
  unfold Device.writeByte
  cases d.owns a <;> cases d.kind.writable <;> simp

theorem Device.writeWord_none (d : Device) (a : Nat) (v : Word) : d.writeWord a v = .notMyAddress ↔ d.owns a = false := by
  unfold Device.writeWord
  cases d.owns a <;> cases d.kind.writable <;> simp
  split <;> simp

/-- A byte write that is served stores in a writable device. -/
theorem Device.writeByte_ok {d d' : Device} {a : Nat} {v : Byte} (h : d.writeByte a v = .ok d') :
    d.owns a = true ∧ d.kind.writable = true ∧ d' = d.putByte a v := by
  unfold Device.writeByte at h
  cases ho : d.owns a <;> cases hw : d.kind.writable <;> simp_all

/-- A word write that is served stores in a writable device, not at its last byte. -/
theorem Device.writeWord_ok {d d' : Device} {a : Nat} {v : Word} (h : d.writeWord a v = .ok d') :
    d.owns a = true ∧ d.kind.writable = true ∧ a ≠ d.last.toNat ∧ d' = d.putWord a v := by
  unfold Device.writeWord at h
  cases ho : d.owns a <;> cases hw : d.kind.writable <;> simp_all
  split at h <;> simp_all

/-! ## The host's filling, and reset -/

/-- Filling a device keeps every device's storage canonical and in range. -/
theorem pokeByte_wf {ds : List Device} (h : ∀ d ∈ ds, DeviceWf d) (a : Nat) (v : Byte) :
    ∀ d ∈ pokeByte ds a v, DeviceWf d := by
  induction ds with
  | nil => exact h
  | cons d ds ih =>
    have hd := h d List.mem_cons_self
    have hds := fun e he => h e (List.mem_cons_of_mem _ he)
    unfold pokeByte
    cases ho : d.owns a with
    | true => exact fun e he => (List.mem_cons.1 he).elim (fun q => q ▸ Device.putByte_wf v hd ho) (hds e)
    | false => exact fun e he => (List.mem_cons.1 he).elim (fun q => q ▸ hd) (ih hds e)

theorem pokeBytes_wf {ds : List Device} (h : ∀ d ∈ ds, DeviceWf d) (a : Nat) (bs : List Byte) :
    ∀ d ∈ pokeBytes ds a bs, DeviceWf d := by
  induction bs generalizing ds a with
  | nil => exact h
  | cons b bs ih => exact ih (pokeByte_wf h a b) (a + 1)

/-- The memory of the reset state is in canonical form. -/
theorem State.reset_cells_wf : ∀ d ∈ State.reset.devices, Memory.wf d.cells := by decide

end Sys2Proof.Machine
end

