-- ==== Sys2Proof/Laws/Decode.lean ====
section
/-! SUPPORT. The fields of an encoded opcode word, the lookup under an injective numbering, and the latches an
encoding's bytes give. -/

namespace Sys2Proof

/-! ## Fields of an opcode word -/

@[simp] theorem opcodeByteOf_wordOfBytes (hi lo : Byte) : opcodeByteOf (wordOfBytes hi lo) = hi := by
  unfold opcodeByteOf hiByte wordOfBytes
  ext i h
  have := BitVec.getLsbD_append (x := hi) (y := lo) (i := 8 + i)
  rw [if_neg (by omega), Nat.add_sub_cancel_left] at this
  rw [BitVec.getElem_extractLsb', ← BitVec.getLsbD_eq_getElem h]
  exact this

/-- A field of the opcode word below bit 8 is that field of the meta byte. -/
theorem extract_wordOfBytes (hi lo : Byte) (k n : Nat) (h : k + n ≤ 8) :
    (wordOfBytes hi lo).extractLsb' k n = lo.extractLsb' k n := by
  unfold wordOfBytes
  ext i hi'
  have := BitVec.getLsbD_append (x := hi) (y := lo) (i := k + i)
  rw [if_pos (by omega)] at this
  rw [BitVec.getElem_extractLsb', BitVec.getElem_extractLsb']
  exact this

@[simp] theorem nibbleOf_metaByte (hi : Byte) (a : Nibble) (w : Width) :
    nibbleOf (wordOfBytes hi (metaByte a w)) = a := by
  unfold nibbleOf
  rw [extract_wordOfBytes _ _ _ _ (by omega)]
  revert a; cases w <;> decide

@[simp] theorem reservedOf_metaByte (hi : Byte) (a : Nibble) (w : Width) :
    reservedOf (wordOfBytes hi (metaByte a w)) = 0 := by
  unfold reservedOf
  rw [extract_wordOfBytes _ _ _ _ (by omega)]
  revert a; cases w <;> decide

@[simp] theorem widthOf_metaByte (hi : Byte) (a : Nibble) (w : Width) :
    widthOf (wordOfBytes hi (metaByte a w)) = w := by
  unfold widthOf
  rw [extract_wordOfBytes _ _ _ _ (by omega)]
  revert a; cases w <;> decide

/-- The meta byte is made of its fields. -/
theorem metaByte_fields (ir : Word) (h : reservedOf ir = 0) : metaByte (nibbleOf ir) (widthOf ir) = loByte ir := by
  have hb : ∀ b : Byte, b.extractLsb' 0 2 = 0 →
      metaByte (b.extractLsb' 4 4) (if b.extractLsb' 2 2 = 0b00 then .byte
        else if b.extractLsb' 2 2 = 0b01 then .word else if b.extractLsb' 2 2 = 0b10 then .long else .none) = b := by
    decide
  have hext : ∀ k n, k + n ≤ 8 → (loByte ir).extractLsb' k n = ir.extractLsb' k n := by
    intro k n hkn
    unfold loByte
    ext i hi
    simp only [BitVec.getElem_extractLsb', BitVec.getLsbD_extractLsb']
    simp; omega
  have := hb (loByte ir) (by rw [hext 0 2 (by omega)]; exact h)
  rw [hext 4 4 (by omega), hext 2 2 (by omega)] at this
  exact this

/-! ## The lookup -/

/-- The bit-pack of an opcode byte is injective (R91, R117). -/
theorem Numbering.opcodeByte_inj {N : Numbering} (h : N.Injective) {op op' : Opcode} {m m' : Mode}
    (e : N.opcodeByte op m = N.opcodeByte op' m') : op = op' ∧ m = m' := by
  have split : ∀ (x x' : BitVec 2) (y y' : BitVec 6), x ++ y = x' ++ y' → x = x' ∧ y = y' := by
    intro x x' y y' e
    have hx := congrArg (fun z : BitVec 8 => z.extractLsb' 6 2) e
    have hy := congrArg (fun z : BitVec 8 => z.extractLsb' 0 6) e
    constructor
    · have key : ∀ (x : BitVec 2) (y : BitVec 6), (x ++ y : BitVec 8).extractLsb' 6 2 = x := by decide
      simpa [key] using hx
    · have key : ∀ (x : BitVec 2) (y : BitVec 6), (x ++ y : BitVec 8).extractLsb' 0 6 = y := by decide
      simpa [key] using hy
  obtain ⟨hm, ho⟩ := split _ _ _ _ e
  exact ⟨h.1 ho, h.2 hm⟩

/-- Under an injective numbering the lookup of a pair's opcode byte is the table's entry of that pair. -/
theorem lookup_opcodeByte {N : Numbering} (h : N.Injective) (op : Opcode) (m : Mode) :
    lookup N (N.opcodeByte op m) = opcodeTable.find? (fun row => decide (row.op = op ∧ row.mode = m)) := by
  unfold lookup
  congr 1
  funext row
  rw [Bool.eq_iff_iff, beq_iff_eq, decide_eq_true_iff]
  exact ⟨Numbering.opcodeByte_inj h, fun e => by rw [e.1, e.2]⟩

theorem lookup_some {N : Numbering} {b : Byte} {row : Row} (h : lookup N b = some row) :
    row ∈ opcodeTable ∧ N.opcodeByte row.op row.mode = b :=
  ⟨List.mem_of_find?_eq_some h, by simpa using List.find?_some h⟩

/-- The form checks of R107, as they are stated there. -/
theorem checkForm_iff {f : Form} {ir : Word} {adhi : Nibble} :
    checkForm f ir adhi = true ↔
      f.legalWidth (widthOf ir) = true ∧ reservedOf ir = 0 ∧ (f.nibbleUnused = true → nibbleOf ir = 0) ∧
        (widthOf ir = .long → adhi = 0) := by
  unfold checkForm
  simp only [Bool.and_eq_true, Bool.or_eq_true, Bool.not_eq_true', decide_eq_true_iff, and_assoc]
  refine and_congr_right fun _ => and_congr_right fun _ => ?_
  refine and_congr ?_ ?_
  · cases f.nibbleUnused <;> simp
  · by_cases hw : widthOf ir = .long <;> simp [hw]

/-- A shape builds an instruction at every width code its form allows. -/
theorem Shape.build_isSome (sh : Shape) (l : Latches) (h : sh.form.legalWidth (widthOf l.ir) = true) :
    ∃ i, sh.build l = some i := by
  cases sh <;> cases hw : widthOf l.ir <;> simp [Shape.form, Form.legalWidth, hw] at h <;> simp [Shape.build, hw]

end Sys2Proof
end

