-- ==== Sys2Proof/Laws/State.lean ====
section
/-! SUPPORT. One lemma for each field under each update of the state, so that no proof unfolds a record update. -/

namespace Sys2Proof.Machine

/-! ## The register file -/

@[simp] theorem Regs.get_set_self (r : Regs) (x : Reg) (v : Word) : (r.set x v).get x = v := by cases x <;> rfl

theorem Regs.get_set_ne (r : Regs) {x y : Reg} (v : Word) (h : y ≠ x) : (r.set x v).get y = r.get y := by
  cases x <;> cases y <;> first | rfl | exact absurd rfl h

theorem Regs.get_set (r : Regs) (x y : Reg) (v : Word) : (r.set x v).get y = if y = x then v else r.get y := by
  by_cases h : y = x
  · subst h; simp
  · simp [h, Regs.get_set_ne]

/-- Two register files that read alike are equal. -/
theorem Regs.ext_get {r r' : Regs} (h : ∀ y, r.get y = r'.get y) : r = r' := by
  cases r; cases r'
  have := fun y => h y
  simp only [Regs.mk.injEq]
  exact ⟨h .r1, h .r2, h .r3, h .r4, h .r5, h .r6, h .pc, h .sp, h .bp⟩

@[simp] theorem Regs.set_set (r : Regs) (x : Reg) (v w : Word) : (r.set x v).set x w = r.set x w := by
  cases x <;> rfl

@[simp] theorem Regs.get_r1 (r : Regs) : r.get .r1 = r.r1 := rfl

@[simp] theorem Regs.get_r2 (r : Regs) : r.get .r2 = r.r2 := rfl

@[simp] theorem Regs.get_r3 (r : Regs) : r.get .r3 = r.r3 := rfl

@[simp] theorem Regs.get_r4 (r : Regs) : r.get .r4 = r.r4 := rfl

@[simp] theorem Regs.get_r5 (r : Regs) : r.get .r5 = r.r5 := rfl

@[simp] theorem Regs.get_r6 (r : Regs) : r.get .r6 = r.r6 := rfl

@[simp] theorem Regs.get_pc (r : Regs) : r.get .pc = r.pc := rfl

@[simp] theorem Regs.get_sp (r : Regs) : r.get .sp = r.sp := rfl

@[simp] theorem Regs.get_bp (r : Regs) : r.get .bp = r.bp := rfl

@[simp] theorem Regs.set_pc (r : Regs) (v : Word) : r.set .pc v = { r with pc := v } := rfl

@[simp] theorem Regs.set_sp (r : Regs) (v : Word) : r.set .sp v = { r with sp := v } := rfl

/-! ## `setReg` and `getReg` -/

theorem State.getReg_eq (s : State) (x : Reg) : s.getReg x = s.regs.get x := rfl

@[simp] theorem State.getReg_setReg_self (s : State) (x : Reg) (v : Word) : (s.setReg x v).getReg x = v :=
  Regs.get_set_self ..

theorem State.getReg_setReg_ne (s : State) {x y : Reg} (v : Word) (h : y ≠ x) :
    (s.setReg x v).getReg y = s.getReg y :=
  Regs.get_set_ne _ v h

@[simp] theorem State.setReg_regs (s : State) (x : Reg) (v : Word) : (s.setReg x v).regs = s.regs.set x v := rfl

@[simp] theorem State.setReg_flags (s : State) (x : Reg) (v : Word) : (s.setReg x v).flags = s.flags := rfl

@[simp] theorem State.setReg_running (s : State) (x : Reg) (v : Word) : (s.setReg x v).running = s.running := rfl

@[simp] theorem State.setReg_irq (s : State) (x : Reg) (v : Word) : (s.setReg x v).irq = s.irq := rfl

@[simp] theorem State.setReg_latches (s : State) (x : Reg) (v : Word) : (s.setReg x v).latches = s.latches := rfl

@[simp] theorem State.setReg_fault (s : State) (x : Reg) (v : Word) : (s.setReg x v).fault = s.fault := rfl

@[simp] theorem State.setReg_devices (s : State) (x : Reg) (v : Word) : (s.setReg x v).devices = s.devices := rfl

@[simp] theorem State.setReg_input (s : State) (x : Reg) (v : Word) : (s.setReg x v).input = s.input := rfl

@[simp] theorem State.setReg_stopRequested (s : State) (x : Reg) (v : Word) : (s.setReg x v).stopRequested = s.stopRequested := rfl

/-! ## `setFlags` -/

@[simp] theorem State.setFlags_getReg (s : State) (f : Flags) (x : Reg) : (s.setFlags f).getReg x = s.getReg x := rfl

@[simp] theorem State.setFlags_regs (s : State) (f : Flags) : (s.setFlags f).regs = s.regs := rfl

@[simp] theorem State.setFlags_flags (s : State) (f : Flags) : (s.setFlags f).flags = f := rfl

@[simp] theorem State.setFlags_running (s : State) (f : Flags) : (s.setFlags f).running = s.running := rfl

@[simp] theorem State.setFlags_irq (s : State) (f : Flags) : (s.setFlags f).irq = s.irq := rfl

@[simp] theorem State.setFlags_latches (s : State) (f : Flags) : (s.setFlags f).latches = s.latches := rfl

@[simp] theorem State.setFlags_fault (s : State) (f : Flags) : (s.setFlags f).fault = s.fault := rfl

@[simp] theorem State.setFlags_devices (s : State) (f : Flags) : (s.setFlags f).devices = s.devices := rfl

@[simp] theorem State.setFlags_input (s : State) (f : Flags) : (s.setFlags f).input = s.input := rfl

@[simp] theorem State.setFlags_stopRequested (s : State) (f : Flags) : (s.setFlags f).stopRequested = s.stopRequested := rfl

/-! ## `setRunning` -/

@[simp] theorem State.setRunning_getReg (s : State) (b : Bool) (x : Reg) : (s.setRunning b).getReg x = s.getReg x := rfl

@[simp] theorem State.setRunning_regs (s : State) (b : Bool) : (s.setRunning b).regs = s.regs := rfl

@[simp] theorem State.setRunning_flags (s : State) (b : Bool) : (s.setRunning b).flags = s.flags := rfl

@[simp] theorem State.setRunning_running (s : State) (b : Bool) : (s.setRunning b).running = b := rfl

@[simp] theorem State.setRunning_irq (s : State) (b : Bool) : (s.setRunning b).irq = s.irq := rfl

@[simp] theorem State.setRunning_latches (s : State) (b : Bool) : (s.setRunning b).latches = s.latches := rfl

@[simp] theorem State.setRunning_fault (s : State) (b : Bool) : (s.setRunning b).fault = s.fault := rfl

@[simp] theorem State.setRunning_devices (s : State) (b : Bool) : (s.setRunning b).devices = s.devices := rfl

@[simp] theorem State.setRunning_input (s : State) (b : Bool) : (s.setRunning b).input = s.input := rfl

@[simp] theorem State.setRunning_stopRequested (s : State) (b : Bool) : (s.setRunning b).stopRequested = s.stopRequested := rfl

/-! ## `setIrq` -/

@[simp] theorem State.setIrq_getReg (s : State) (q : Irq) (x : Reg) : (s.setIrq q).getReg x = s.getReg x := rfl

@[simp] theorem State.setIrq_regs (s : State) (q : Irq) : (s.setIrq q).regs = s.regs := rfl

@[simp] theorem State.setIrq_flags (s : State) (q : Irq) : (s.setIrq q).flags = s.flags := rfl

@[simp] theorem State.setIrq_running (s : State) (q : Irq) : (s.setIrq q).running = s.running := rfl

@[simp] theorem State.setIrq_irq (s : State) (q : Irq) : (s.setIrq q).irq = q := rfl

@[simp] theorem State.setIrq_latches (s : State) (q : Irq) : (s.setIrq q).latches = s.latches := rfl

@[simp] theorem State.setIrq_fault (s : State) (q : Irq) : (s.setIrq q).fault = s.fault := rfl

@[simp] theorem State.setIrq_devices (s : State) (q : Irq) : (s.setIrq q).devices = s.devices := rfl

@[simp] theorem State.setIrq_input (s : State) (q : Irq) : (s.setIrq q).input = s.input := rfl

@[simp] theorem State.setIrq_stopRequested (s : State) (q : Irq) : (s.setIrq q).stopRequested = s.stopRequested := rfl

/-! ## `setLatches` -/

@[simp] theorem State.setLatches_getReg (s : State) (l : Latches) (x : Reg) : (s.setLatches l).getReg x = s.getReg x := rfl

@[simp] theorem State.setLatches_regs (s : State) (l : Latches) : (s.setLatches l).regs = s.regs := rfl

@[simp] theorem State.setLatches_flags (s : State) (l : Latches) : (s.setLatches l).flags = s.flags := rfl

@[simp] theorem State.setLatches_running (s : State) (l : Latches) : (s.setLatches l).running = s.running := rfl

@[simp] theorem State.setLatches_irq (s : State) (l : Latches) : (s.setLatches l).irq = s.irq := rfl

@[simp] theorem State.setLatches_latches (s : State) (l : Latches) : (s.setLatches l).latches = l := rfl

@[simp] theorem State.setLatches_fault (s : State) (l : Latches) : (s.setLatches l).fault = s.fault := rfl

@[simp] theorem State.setLatches_devices (s : State) (l : Latches) : (s.setLatches l).devices = s.devices := rfl

@[simp] theorem State.setLatches_input (s : State) (l : Latches) : (s.setLatches l).input = s.input := rfl

@[simp] theorem State.setLatches_stopRequested (s : State) (l : Latches) : (s.setLatches l).stopRequested = s.stopRequested := rfl

/-! ## `setDevices` -/

@[simp] theorem State.setDevices_getReg (s : State) (ds : List Device) (x : Reg) : (s.setDevices ds).getReg x = s.getReg x := rfl

@[simp] theorem State.setDevices_regs (s : State) (ds : List Device) : (s.setDevices ds).regs = s.regs := rfl

@[simp] theorem State.setDevices_flags (s : State) (ds : List Device) : (s.setDevices ds).flags = s.flags := rfl

@[simp] theorem State.setDevices_running (s : State) (ds : List Device) : (s.setDevices ds).running = s.running := rfl

@[simp] theorem State.setDevices_irq (s : State) (ds : List Device) : (s.setDevices ds).irq = s.irq := rfl

@[simp] theorem State.setDevices_latches (s : State) (ds : List Device) : (s.setDevices ds).latches = s.latches := rfl

@[simp] theorem State.setDevices_fault (s : State) (ds : List Device) : (s.setDevices ds).fault = s.fault := rfl

@[simp] theorem State.setDevices_devices (s : State) (ds : List Device) : (s.setDevices ds).devices = ds := rfl

@[simp] theorem State.setDevices_input (s : State) (ds : List Device) : (s.setDevices ds).input = s.input := rfl

@[simp] theorem State.setDevices_stopRequested (s : State) (ds : List Device) : (s.setDevices ds).stopRequested = s.stopRequested := rfl

/-! ## `setFault` -/

@[simp] theorem State.setFault_getReg (s : State) (k : Option Fault) (x : Reg) : (s.setFault k).getReg x = s.getReg x := rfl

@[simp] theorem State.setFault_regs (s : State) (k : Option Fault) : (s.setFault k).regs = s.regs := rfl

@[simp] theorem State.setFault_flags (s : State) (k : Option Fault) : (s.setFault k).flags = s.flags := rfl

@[simp] theorem State.setFault_running (s : State) (k : Option Fault) : (s.setFault k).running = s.running := rfl

@[simp] theorem State.setFault_irq (s : State) (k : Option Fault) : (s.setFault k).irq = s.irq := rfl

@[simp] theorem State.setFault_latches (s : State) (k : Option Fault) : (s.setFault k).latches = s.latches := rfl

@[simp] theorem State.setFault_fault (s : State) (k : Option Fault) : (s.setFault k).fault = k := rfl

@[simp] theorem State.setFault_devices (s : State) (k : Option Fault) : (s.setFault k).devices = s.devices := rfl

@[simp] theorem State.setFault_input (s : State) (k : Option Fault) : (s.setFault k).input = s.input := rfl

@[simp] theorem State.setFault_stopRequested (s : State) (k : Option Fault) : (s.setFault k).stopRequested = s.stopRequested := rfl

/-! ## `setInput` -/

@[simp] theorem State.setInput_getReg (s : State) (q : List KeyEvent) (x : Reg) : (s.setInput q).getReg x = s.getReg x := rfl

@[simp] theorem State.setInput_regs (s : State) (q : List KeyEvent) : (s.setInput q).regs = s.regs := rfl

@[simp] theorem State.setInput_flags (s : State) (q : List KeyEvent) : (s.setInput q).flags = s.flags := rfl

@[simp] theorem State.setInput_running (s : State) (q : List KeyEvent) : (s.setInput q).running = s.running := rfl

@[simp] theorem State.setInput_irq (s : State) (q : List KeyEvent) : (s.setInput q).irq = s.irq := rfl

@[simp] theorem State.setInput_latches (s : State) (q : List KeyEvent) : (s.setInput q).latches = s.latches := rfl

@[simp] theorem State.setInput_fault (s : State) (q : List KeyEvent) : (s.setInput q).fault = s.fault := rfl

@[simp] theorem State.setInput_devices (s : State) (q : List KeyEvent) : (s.setInput q).devices = s.devices := rfl

@[simp] theorem State.setInput_input (s : State) (q : List KeyEvent) : (s.setInput q).input = q := rfl

@[simp] theorem State.setInput_stopRequested (s : State) (q : List KeyEvent) : (s.setInput q).stopRequested = s.stopRequested := rfl

/-! ## `setStopRequested` -/

@[simp] theorem State.setStopRequested_getReg (s : State) (b : Bool) (x : Reg) : (s.setStopRequested b).getReg x = s.getReg x := rfl

@[simp] theorem State.setStopRequested_regs (s : State) (b : Bool) : (s.setStopRequested b).regs = s.regs := rfl

@[simp] theorem State.setStopRequested_flags (s : State) (b : Bool) : (s.setStopRequested b).flags = s.flags := rfl

@[simp] theorem State.setStopRequested_running (s : State) (b : Bool) : (s.setStopRequested b).running = s.running := rfl

@[simp] theorem State.setStopRequested_irq (s : State) (b : Bool) : (s.setStopRequested b).irq = s.irq := rfl

@[simp] theorem State.setStopRequested_latches (s : State) (b : Bool) : (s.setStopRequested b).latches = s.latches := rfl

@[simp] theorem State.setStopRequested_fault (s : State) (b : Bool) : (s.setStopRequested b).fault = s.fault := rfl

@[simp] theorem State.setStopRequested_devices (s : State) (b : Bool) : (s.setStopRequested b).devices = s.devices := rfl

@[simp] theorem State.setStopRequested_input (s : State) (b : Bool) : (s.setStopRequested b).input = s.input := rfl

@[simp] theorem State.setStopRequested_stopRequested (s : State) (b : Bool) : (s.setStopRequested b).stopRequested = b := rfl

/-! ## `clearIrq` -/

@[simp] theorem State.clearIrq_getReg (s : State) (x : Reg) : s.clearIrq.getReg x = s.getReg x := rfl

@[simp] theorem State.clearIrq_regs (s : State) : s.clearIrq.regs = s.regs := rfl

@[simp] theorem State.clearIrq_flags (s : State) : s.clearIrq.flags = s.flags := rfl

@[simp] theorem State.clearIrq_running (s : State) : s.clearIrq.running = s.running := rfl

@[simp] theorem State.clearIrq_irq (s : State) : s.clearIrq.irq = ⟨false, 0⟩ := rfl

@[simp] theorem State.clearIrq_latches (s : State) : s.clearIrq.latches = s.latches := rfl

@[simp] theorem State.clearIrq_fault (s : State) : s.clearIrq.fault = s.fault := rfl

@[simp] theorem State.clearIrq_devices (s : State) : s.clearIrq.devices = s.devices := rfl

@[simp] theorem State.clearIrq_input (s : State) : s.clearIrq.input = s.input := rfl

@[simp] theorem State.clearIrq_stopRequested (s : State) : s.clearIrq.stopRequested = s.stopRequested := rfl

/-! ## `clearLatches` -/

@[simp] theorem State.clearLatches_getReg (s : State) (x : Reg) : s.clearLatches.getReg x = s.getReg x := rfl

@[simp] theorem State.clearLatches_regs (s : State) : s.clearLatches.regs = s.regs := rfl

@[simp] theorem State.clearLatches_flags (s : State) : s.clearLatches.flags = s.flags := rfl

@[simp] theorem State.clearLatches_running (s : State) : s.clearLatches.running = s.running := rfl

@[simp] theorem State.clearLatches_irq (s : State) : s.clearLatches.irq = s.irq := rfl

@[simp] theorem State.clearLatches_latches (s : State) : s.clearLatches.latches = Latches.clear := rfl

@[simp] theorem State.clearLatches_fault (s : State) : s.clearLatches.fault = s.fault := rfl

@[simp] theorem State.clearLatches_devices (s : State) : s.clearLatches.devices = s.devices := rfl

@[simp] theorem State.clearLatches_input (s : State) : s.clearLatches.input = s.input := rfl

@[simp] theorem State.clearLatches_stopRequested (s : State) : s.clearLatches.stopRequested = s.stopRequested := rfl

/-! ## `latched` -/

@[simp] theorem State.latched_getReg (s : State) (l : Latches) (x : Reg) : (s.latched l).getReg x = s.getReg x := rfl

@[simp] theorem State.latched_regs (s : State) (l : Latches) : (s.latched l).regs = s.regs := rfl

@[simp] theorem State.latched_flags (s : State) (l : Latches) : (s.latched l).flags = { s.flags with d := decide (widthOf l.ir = .long) } := rfl

@[simp] theorem State.latched_running (s : State) (l : Latches) : (s.latched l).running = s.running := rfl

@[simp] theorem State.latched_irq (s : State) (l : Latches) : (s.latched l).irq = s.irq := rfl

@[simp] theorem State.latched_latches (s : State) (l : Latches) : (s.latched l).latches = l := rfl

@[simp] theorem State.latched_fault (s : State) (l : Latches) : (s.latched l).fault = s.fault := rfl

@[simp] theorem State.latched_devices (s : State) (l : Latches) : (s.latched l).devices = s.devices := rfl

@[simp] theorem State.latched_input (s : State) (l : Latches) : (s.latched l).input = s.input := rfl

@[simp] theorem State.latched_stopRequested (s : State) (l : Latches) : (s.latched l).stopRequested = s.stopRequested := rfl

end Sys2Proof.Machine
end

