-- ==== Sys2Proof/Laws/Mem.lean ====
section
/-! SUPPORT. The CPU's memory primitives: for each, everything it can answer. -/

namespace Sys2Proof.Machine

open Sys2Proof.Claims

/-! ## Reads -/

theorem memReadByte_of_arbitrate (s : State) (a : Nat) :
    memReadByte a s =
      match arbitrate s.devices a with
      | none => .error (.bus .noDevices a)
      | some d => if d.kind.readable then .ok (d.cells.read a) else .error (.bus .writeOnly a) := by
  unfold memReadByte
  rw [busRead_eq (fun d => d.readByte a) s.devices a (fun d => d.readByte_none a)]
  cases h : arbitrate s.devices a with
  | none => rfl
  | some d =>
    have ho := arbitrate_owns h
    simp only [Device.readByte, ho, if_true]
    cases d.kind.readable <;> rfl

theorem memReadWord_of_arbitrate (s : State) (a : Nat) :
    memReadWord a s =
      match arbitrate s.devices a with
      | none => .error (.bus .noDevices a)
      | some d =>
        if d.kind.readable then
          if a = d.last.toNat then .error (.bus .straddle a) else .ok (d.wordAt a)
        else .error (.bus .writeOnly a) := by
  unfold memReadWord
  rw [busRead_eq (fun d => d.readWord a) s.devices a (fun d => d.readWord_none a)]
  cases h : arbitrate s.devices a with
  | none => rfl
  | some d =>
    have ho := arbitrate_owns h
    simp only [Device.readWord, ho, if_true]
    cases d.kind.readable with
    | false => rfl
    | true =>
      simp only [if_true]
      by_cases hl : a = d.last.toNat <;> simp [hl, busFault]

/-- A word read that is served, inverted. -/
theorem memReadWord_ok {s : State} {a : Nat} {v : Word} (h : memReadWord a s = .ok v) :
    ∃ d, arbitrate s.devices a = some d ∧ d.kind.readable = true ∧ a ≠ d.last.toNat ∧ v = d.wordAt a := by
  rw [memReadWord_of_arbitrate] at h
  cases ha : arbitrate s.devices a with
  | none => rw [ha] at h; cases h
  | some d =>
    rw [ha] at h
    simp only at h
    split at h
    · split at h
      · cases h
      · cases h; exact ⟨d, rfl, by assumption, by assumption, rfl⟩
    · cases h

/-- A read's fault is a bus fault at the address. -/
theorem memReadWord_error {s : State} {a : Nat} {f : Fault} (h : memReadWord a s = .error f) :
    ∃ k, f = .bus k a := by
  unfold memReadWord at h
  cases hb : busRead (fun d => d.readWord a) s.devices with
  | ok v => rw [hb] at h; cases h
  | error k => rw [hb] at h; cases h; exact ⟨k, rfl⟩

theorem memReadByte_error {s : State} {a : Nat} {f : Fault} (h : memReadByte a s = .error f) :
    ∃ k, f = .bus k a := by
  unfold memReadByte at h
  cases hb : busRead (fun d => d.readByte a) s.devices with
  | ok v => rw [hb] at h; cases h
  | error k => rw [hb] at h; cases h; exact ⟨k, rfl⟩

/-- Reads see the devices only. -/
theorem memReadByte_congr {s t : State} (h : t.devices = s.devices) (a : Nat) : memReadByte a t = memReadByte a s := by
  unfold memReadByte; rw [h]

theorem memReadWord_congr {s t : State} (h : t.devices = s.devices) (a : Nat) : memReadWord a t = memReadWord a s := by
  unfold memReadWord; rw [h]

/-! ## Writes -/

/-- A write that is served, whichever its width: one device, the first that claims the address, is replaced by one that
differs only in its storage, which reads `bs` from `a` up and as before elsewhere; it is writable, keeps its
canonical form, and nothing else of the state changes. -/
structure Replaces (s t : State) (a : Nat) (bs : List Byte) (pre : List Device) (d : Device) (post : List Device)
    (cells : Memory) : Prop where
  devices : s.devices = pre ++ d :: post
  next : t = s.setDevices (pre ++ { d with cells := cells } :: post)
  before : ∀ e ∈ pre, e.owns a = false
  owns : d.owns a = true
  writable : d.kind.writable = true
  inside : ∀ k, (h : k < bs.length) → cells.read (a + k) = bs[k]
  outside : ∀ b, ¬(a ≤ b ∧ b < a + bs.length) → cells.read b = d.cells.read b
  wf : DeviceWf d → DeviceWf { d with cells := cells }

theorem memWriteByte_ok {s t : State} {a : Nat} {v : Byte} (h : memWriteByte a v s = .ok t) :
    ∃ pre d post cells, Replaces s t a [v] pre d post cells := by
  unfold memWriteByte at h
  cases hb : busWrite (fun d => d.writeByte a v) s.devices with
  | error k => rw [hb] at h; cases h
  | ok ds =>
    rw [hb] at h
    cases h
    obtain ⟨pre, d, d', post, hs, rfl, hpre, ho, hd⟩ := busWrite_cases (fun d => d.writeByte_none a v) hb
    obtain ⟨_, hw, rfl⟩ := Device.writeByte_ok hd
    refine ⟨pre, d, post, _, hs, rfl, hpre, ho, hw, ?_, ?_, fun hwf => Device.putByte_wf v hwf ho⟩
    · intro k hk
      have : k = 0 := by simpa using hk
      subst this
      simp
    · intro b hb
      exact Memory.read_write_ne _ _ (by simp at hb; omega)

theorem memWriteWord_ok {s t : State} {a : Nat} {v : Word} (h : memWriteWord a v s = .ok t) :
    ∃ pre d post cells, Replaces s t a [hiByte v, loByte v] pre d post cells ∧ a ≠ d.last.toNat := by
  unfold memWriteWord at h
  cases hb : busWrite (fun d => d.writeWord a v) s.devices with
  | error k => rw [hb] at h; cases h
  | ok ds =>
    rw [hb] at h
    cases h
    obtain ⟨pre, d, d', post, hs, rfl, hpre, ho, hd⟩ := busWrite_cases (fun d => d.writeWord_none a v) hb
    obtain ⟨_, hw, hl, rfl⟩ := Device.writeWord_ok hd
    refine ⟨pre, d, post, _, ⟨hs, rfl, hpre, ho, hw, ?_, ?_, fun hwf => Device.putWord_wf v hwf ho hl⟩, hl⟩
    · intro k hk
      have hk' : k < 2 := by simpa using hk
      interval_cases k
      · show ((d.cells.write a (hiByte v)).write (a + 1) (loByte v)).read a = hiByte v
        rw [Memory.read_write_ne _ _ (by omega), Memory.read_write_self]
      · show ((d.cells.write a (hiByte v)).write (a + 1) (loByte v)).read (a + 1) = loByte v
        rw [Memory.read_write_self]
    · intro b hb
      have hb' : ¬(a ≤ b ∧ b < a + 2) := by simpa using hb
      rw [Memory.read_write_ne _ _ (by omega), Memory.read_write_ne _ _ (by omega)]

theorem memWriteByte_error {s : State} {a : Nat} {v : Byte} {f : Fault} :
    memWriteByte a v s = .error f ↔
      ∃ k, f = .bus k a ∧ busRead (fun d => d.writeByte a v) s.devices = .error k := by
  unfold memWriteByte
  cases hb : busWrite (fun d => d.writeByte a v) s.devices with
  | ok ds =>
    simp only [busFault, Except.map, reduceCtorEq, false_iff]
    rintro ⟨k, _, hk⟩
    rw [← busWrite_eq_error, hb] at hk; cases hk
  | error k =>
    have := busWrite_eq_error.1 hb
    rw [this]
    simp only [busFault, Except.map, Except.error.injEq]
    exact ⟨fun h => ⟨k, h.symm, rfl⟩, fun ⟨_, h, h'⟩ => by rw [h, h']⟩

theorem memWriteWord_error {s : State} {a : Nat} {v : Word} {f : Fault} :
    memWriteWord a v s = .error f ↔
      ∃ k, f = .bus k a ∧ busRead (fun d => d.writeWord a v) s.devices = .error k := by
  unfold memWriteWord
  cases hb : busWrite (fun d => d.writeWord a v) s.devices with
  | ok ds =>
    simp only [busFault, Except.map, reduceCtorEq, false_iff]
    rintro ⟨k, _, hk⟩
    rw [← busWrite_eq_error, hb] at hk; cases hk
  | error k =>
    have := busWrite_eq_error.1 hb
    rw [this]
    simp only [busFault, Except.map, Except.error.injEq]
    exact ⟨fun h => ⟨k, h.symm, rfl⟩, fun ⟨_, h, h'⟩ => by rw [h, h']⟩

namespace Replaces

variable {s t : State} {a : Nat} {bs : List Byte} {pre post : List Device} {d : Device} {cells : Memory}

theorem sameDevice (h : Replaces s t a bs pre d post cells) : SameDevice d { d with cells := cells } :=
  ⟨rfl, rfl, rfl, fun hw => by rw [h.writable] at hw; cases hw⟩

theorem arbitrate_before (h : Replaces s t a bs pre d post cells) : arbitrate s.devices a = some d := by
  rw [h.devices]; exact arbitrate_append_cons h.before h.owns

theorem arbitrate_after (h : Replaces s t a bs pre d post cells) :
    arbitrate t.devices a = some { d with cells := cells } := by
  rw [h.next]; exact arbitrate_append_cons h.before h.owns

/-- For every address, the answering device is the same as before, or it is the device written. -/
theorem arbitrate_cases (h : Replaces s t a bs pre d post cells) (b : Nat) :
    (arbitrate s.devices b = some d ∧ arbitrate t.devices b = some { d with cells := cells }) ∨
      arbitrate t.devices b = arbitrate s.devices b := by
  rw [h.next, h.devices]
  rcases arbitrate_replace (pre := pre) (post := post) (d := d) (d' := { d with cells := cells }) (fun _ => rfl) b with
    ⟨h1, _, h2⟩ | h2
  · exact .inl ⟨h1, h2⟩
  · exact .inr h2

theorem memReadByte_outside (h : Replaces s t a bs pre d post cells) {b : Nat} (hb : ¬(a ≤ b ∧ b < a + bs.length)) :
    memReadByte b t = memReadByte b s := by
  rw [memReadByte_of_arbitrate, memReadByte_of_arbitrate]
  rcases h.arbitrate_cases b with ⟨h1, h2⟩ | h2
  · rw [h1, h2]
    simp only [h.outside b hb]
  · rw [h2]

/-- The claims' form of a served write. -/
theorem stored (h : Replaces s t a bs pre d post cells) : Stored s t a bs :=
  ⟨by rw [h.next]; rfl, fun _ hb => h.memReadByte_outside hb,
    d, _, h.arbitrate_before, h.arbitrate_after, h.sameDevice, h.inside⟩

/-- A served write keeps every device's storage canonical and in range. -/
theorem devices_wf (h : Replaces s t a bs pre d post cells) (hs : ∀ e ∈ s.devices, DeviceWf e) :
    ∀ e ∈ t.devices, DeviceWf e := by
  intro e he
  rw [h.next] at he
  rw [h.devices] at hs
  simp only [State.setDevices, List.mem_append, List.mem_cons] at he hs
  rcases he with he | rfl | he
  · exact hs e (.inl he)
  · exact h.wf (hs d (.inr (.inl rfl)))
  · exact hs e (.inr (.inr he))

end Replaces

end Sys2Proof.Machine
end

