-- ==== Sys2Proof/Laws/Ops.lean ====
section
/-! SUPPORT. The shared operations over registers, the stack, operands and the fetch: for each, everything it can
answer. -/

namespace Sys2Proof.Machine

open Sys2Proof.Claims

/-! ## Sequencing -/

theorem Except.bind_eq_ok_iff {ε α β : Type} {x : Except ε α} {f : α → Except ε β} {b : β} :
    (x >>= f) = .ok b ↔ ∃ a, x = .ok a ∧ f a = .ok b := by
  cases x with
  | error e => simp [bind, Except.bind]
  | ok a => simp [bind, Except.bind]

theorem Except.bind_eq_error_iff {ε α β : Type} {x : Except ε α} {f : α → Except ε β} {e : ε} :
    (x >>= f) = .error e ↔ x = .error e ∨ ∃ a, x = .ok a ∧ f a = .error e := by
  cases x with
  | error e' => simp [bind, Except.bind]
  | ok a => simp [bind, Except.bind]

@[simp] theorem Except.ok_bind {ε α β : Type} (a : α) (f : α → Except ε β) : (Except.ok a >>= f) = f a := rfl

@[simp] theorem Except.error_bind {ε α β : Type} (e : ε) (f : α → Except ε β) :
    ((Except.error e : Except ε α) >>= f) = .error e := rfl

@[simp] theorem outcome_eq_next {x : Except Fault State} {t : State} : outcome x = .next t ↔ x = .ok t := by
  cases x <;> simp [outcome]

@[simp] theorem outcome_eq_fault {x : Except Fault State} {k : Fault} : outcome x = .fault k ↔ x = .error k := by
  cases x <;> simp [outcome]

theorem outcome_ne_refused (x : Except Fault State) (r : Refusal) : outcome x ≠ .refused r := by
  cases x <;> simp [outcome]

/-! ## Register indices -/

theorem Reg.ofIndex_eq_none_iff {n : Nat} : Reg.ofIndex n = none ↔ 8 < n := by
  constructor
  · intro h
    by_contra hn
    have : n ≤ 8 := by omega
    interval_cases n <;> cases h
  · intro h
    match n, h with
    | n + 9, _ => rfl

theorem Reg.ofIndex_isSome {n : Nat} (h : n ≤ 8) : ∃ x, Reg.ofIndex n = some x := by
  cases hx : Reg.ofIndex n with
  | some x => exact ⟨x, rfl⟩
  | none => exact absurd (Reg.ofIndex_eq_none_iff.1 hx) (by omega)

theorem regIndex_of_some {n : Nat} {x : Reg} (h : Reg.ofIndex n = some x) : regIndex n = .ok x := by
  simp [regIndex, h]

theorem regIndex_of_gt {n : Nat} (h : 8 < n) : regIndex n = .error (.invalidRegister n) := by
  simp [regIndex, Reg.ofIndex_eq_none_iff.2 h]

theorem regIndex_ok {n : Nat} {x : Reg} : regIndex n = .ok x ↔ Reg.ofIndex n = some x := by
  unfold regIndex
  cases Reg.ofIndex n <;> simp

theorem regIndex_error {n : Nat} {f : Fault} : regIndex n = .error f ↔ 8 < n ∧ f = .invalidRegister n := by
  rw [← Reg.ofIndex_eq_none_iff]
  unfold regIndex
  cases Reg.ofIndex n <;> simp [eq_comm]

/-! ## `advance` -/

theorem advance_ok {len : Nat} {s t : State} :
    advance len s = .ok t ↔
      s.regs.pc.toNat + len ≤ 0xFFFF ∧ t = s.setReg .pc (s.regs.pc + BitVec.ofNat 16 len) := by
  unfold advance
  by_cases h : 0xFFFF < s.regs.pc.toNat + len
  · rw [if_pos h]; simp; omega
  · rw [if_neg h]; simp [eq_comm]; omega

theorem advance_error {len : Nat} {s : State} {f : Fault} :
    advance len s = .error f ↔ 0xFFFF < s.regs.pc.toNat + len ∧ f = .pcOverflow s.regs.pc := by
  unfold advance
  by_cases h : 0xFFFF < s.regs.pc.toNat + len
  · rw [if_pos h]; simp [h, eq_comm]
  · rw [if_neg h]; simp [h]

/-- The claims' form of `advance`. -/
theorem advancesFrom_advance (len : Nat) (s : State) : AdvancesFrom (outcome (advance len s)) s len :=
  ⟨fun h => outcome_eq_next.2 (advance_ok.2 ⟨h, rfl⟩), fun h => outcome_eq_fault.2 (advance_error.2 ⟨h, rfl⟩)⟩

/-! ## The stack -/

/-- A push that is done, inverted: room below the top, the word stored at the old SP, SP grown by 2. -/
theorem push_ok {v : Word} {s t : State} :
    push v s = .ok t ↔
      spOf s ≤ 0xFFFD ∧ ∃ u, memWriteWord (spOf s) v s = .ok u ∧ t = u.setReg .sp (s.regs.sp + 2) := by
  unfold push spOf
  by_cases h : 0xFFFD < s.regs.sp.toNat
  · rw [if_pos h]; simp; omega
  · rw [if_neg h, Except.bind_eq_ok_iff]
    simp only [Except.ok.injEq, eq_comm (b := t)]
    exact ⟨fun h' => ⟨by omega, h'⟩, fun h' => h'.2⟩

theorem push_error {v : Word} {s : State} {f : Fault} :
    push v s = .error f ↔
      (0xFFFD < spOf s ∧ f = .stackOverflow s.regs.sp) ∨
        (spOf s ≤ 0xFFFD ∧ memWriteWord (spOf s) v s = .error f) := by
  unfold push spOf
  by_cases h : 0xFFFD < s.regs.sp.toNat
  · rw [if_pos h]
    simp only [h, Except.error.injEq, true_and, Nat.not_le.2 h, false_and, or_false]
    exact eq_comm
  · rw [if_neg h, Except.bind_eq_error_iff]
    simp [h, Nat.not_lt.1 h]

/-- A pop that is done, inverted: SP at least 2, the word read two below it, SP shrunk by 2. -/
theorem pop_ok {s t : State} {v : Word} :
    pop s = .ok (v, t) ↔
      2 ≤ spOf s ∧ memReadWord (spOf s - 2) s = .ok v ∧ t = s.setReg .sp (s.regs.sp - 2) := by
  unfold pop spOf
  by_cases h : s.regs.sp.toNat < 2
  · rw [if_pos h]; simp; omega
  · rw [if_neg h]
    have hsub : (s.regs.sp - 2).toNat = s.regs.sp.toNat - 2 := by
      rw [BitVec.toNat_sub]
      have := s.regs.sp.isLt
      simp; omega
    rw [Except.bind_eq_ok_iff]
    simp only [State.setReg_regs, Regs.set_sp, hsub]
    rw [memReadWord_congr (t := s.setReg .sp (s.regs.sp - 2)) (s := s) rfl]
    constructor
    · rintro ⟨a, ha, he⟩
      cases he
      exact ⟨by omega, ha, rfl⟩
    · rintro ⟨_, ha, rfl⟩
      exact ⟨v, ha, rfl⟩

theorem pop_error {s : State} {f : Fault} :
    pop s = .error f ↔
      (spOf s < 2 ∧ f = .stackUnderflow s.regs.sp) ∨ (2 ≤ spOf s ∧ memReadWord (spOf s - 2) s = .error f) := by
  unfold pop spOf
  by_cases h : s.regs.sp.toNat < 2
  · rw [if_pos h]
    simp only [h, Except.error.injEq, true_and, Nat.not_le.2 h, false_and, or_false]
    exact eq_comm
  · rw [if_neg h]
    have hsub : (s.regs.sp - 2).toNat = s.regs.sp.toNat - 2 := by
      rw [BitVec.toNat_sub]
      have := s.regs.sp.isLt
      simp; omega
    rw [Except.bind_eq_error_iff]
    simp only [State.setReg_regs, Regs.set_sp, hsub]
    rw [memReadWord_congr (t := s.setReg .sp (s.regs.sp - 2)) (s := s) rfl]
    simp [h, Nat.not_lt.1 h]

/-! ## Operands -/

theorem ea8_toNat (v : Byte) : (ea8 v).toNat = v.toNat := by
  simp only [ea8, BitVec.toNat_setWidth]
  exact Nat.mod_eq_of_lt (Nat.lt_trans v.isLt (by decide))

theorem ea16_toNat (v : Word) : (ea16 v).toNat = v.toNat := by
  simp only [ea16, BitVec.toNat_setWidth]
  exact Nat.mod_eq_of_lt (Nat.lt_trans v.isLt (by decide))

theorem ea20_toNat (ad : Nibble) (lo : Word) : (ea20 ad lo).toNat = ad.toNat * 0x10000 + lo.toNat := by
  unfold ea20
  have h := BitVec.toNat_append ad lo
  have : (ad ++ lo).toNat = ad.toNat * 0x10000 + lo.toNat := by
    rw [h, ← Nat.shiftLeft_add_eq_or_of_lt lo.isLt, Nat.shiftLeft_eq]
  exact this

theorem Src.value_error {y : Src} {s : State} {f : Fault} :
    y.value s = .error f ↔ ∃ b, y = .reg b ∧ 8 < b.toNat ∧ f = .invalidRegister b.toNat := by
  cases y with
  | imm8 v => simp [Src.value]
  | imm16 v => simp [Src.value]
  | reg b =>
    simp only [Src.value, Src.reg.injEq]
    cases h : regIndex b.toNat with
    | ok x =>
      have := Reg.ofIndex_eq_none_iff (n := b.toNat)
      rw [regIndex_ok.1 h] at this
      simp only [Except.map, reduceCtorEq, false_iff]
      rintro ⟨_, rfl, hb, _⟩
      exact absurd (this.2 hb) (by simp)
    | error e =>
      obtain ⟨hb, rfl⟩ := regIndex_error.1 h
      simp only [Except.map, Except.error.injEq]
      exact ⟨fun e => ⟨b, rfl, hb, e.symm⟩, fun ⟨_, hb', _, e⟩ => by rw [e, hb']⟩

theorem Place.addr_error {p : Place} {s : State} {f : Fault} :
    p.addr s = .error f ↔ ∃ b, p = .ind b ∧ 8 < b.toNat ∧ f = .invalidRegister b.toNat := by
  cases p with
  | abs8 v => simp [Place.addr]
  | abs16 v => simp [Place.addr]
  | abs20 ad lo => simp [Place.addr]
  | ind b =>
    simp only [Place.addr, Place.ind.injEq]
    cases h : regIndex b.toNat with
    | ok x =>
      have := Reg.ofIndex_eq_none_iff (n := b.toNat)
      rw [regIndex_ok.1 h] at this
      simp only [Except.map, reduceCtorEq, false_iff]
      rintro ⟨_, rfl, hb, _⟩
      exact absurd (this.2 hb) (by simp)
    | error e =>
      obtain ⟨hb, rfl⟩ := regIndex_error.1 h
      simp only [Except.map, Except.error.injEq]
      exact ⟨fun e => ⟨b, rfl, hb, e.symm⟩, fun ⟨_, hb', _, e⟩ => by rw [e, hb']⟩

/-- The address of a register-indirect place. -/
theorem Place.addr_ind_ok {b : Byte} {s : State} {ea : Addr} :
    (Place.ind b).addr s = .ok ea ↔ ∃ y, Reg.ofIndex b.toNat = some y ∧ ea = ea16 (s.getReg y) := by
  simp only [Place.addr]
  cases h : regIndex b.toNat with
  | ok x =>
    rw [regIndex_ok.1 h]
    simp only [Except.map, Except.ok.injEq, Option.some.injEq]
    exact ⟨fun e => ⟨x, rfl, e.symm⟩, fun ⟨_, hy, e⟩ => by rw [e, hy]⟩
  | error e =>
    have := Reg.ofIndex_eq_none_iff.2 (regIndex_error.1 h).1
    simp [Except.map, this]

theorem Target.value_ok {t : Target} {v : Word} :
    t.value = .ok v ↔ (∃ b, t = .abs8 b ∧ v = b.setWidth 16) ∨ t = .abs16 v ∨ t = .abs20 0 v := by
  cases t with
  | abs8 b => simp only [Target.value, Except.ok.injEq, Target.abs8.injEq, reduceCtorEq, or_false]
              exact ⟨fun e => ⟨b, rfl, e.symm⟩, fun ⟨_, h, e⟩ => by rw [e, h]⟩
  | abs16 w => simp [Target.value]
  | abs20 ad lo =>
    simp only [Target.value]
    split <;> simp_all

theorem Target.value_error {t : Target} {f : Fault} :
    t.value = .error f ↔ ∃ ad lo, t = .abs20 ad lo ∧ ad ≠ 0 ∧ f = .targetOutOfRange (ea20 ad lo) := by
  cases t with
  | abs8 b => simp [Target.value]
  | abs16 w => simp [Target.value]
  | abs20 ad lo =>
    simp only [Target.value, Target.abs20.injEq]
    by_cases h : ad = 0
    · rw [if_pos h]
      simp only [reduceCtorEq, false_iff]
      rintro ⟨_, _, ⟨rfl, _⟩, hne, _⟩
      exact hne h
    · rw [if_neg h, Except.error.injEq]
      exact ⟨fun e => ⟨ad, lo, ⟨rfl, rfl⟩, h, e.symm⟩, fun ⟨_, _, ⟨ha, hl⟩, _, e⟩ => by rw [e, ha, hl]⟩

/-! ## Input events -/

/-- What applying an input effect leaves alone: everything but the latch and the devices. -/
theorem State.applyInput_eq (s : State) (c : InputEffect) :
    ∃ q ds, s.applyInput c = { s with irq := q, devices := ds } := by
  unfold State.applyInput
  cases c.irq with
  | none => exact ⟨_, _, rfl⟩
  | some n => exact ⟨_, _, rfl⟩

/-- Consuming the oldest event takes it off the queue and changes nothing else but the latch and the devices. -/
theorem State.consumeInput_cons {s : State} {e : KeyEvent} {rest : List KeyEvent} (h : s.input = e :: rest)
    (f : KeyEvent → Irq → List Device → InputEffect) :
    ∃ q ds, s.consumeInput f = { s with input := rest, irq := q, devices := ds } := by
  simp only [State.consumeInput, h]
  exact State.applyInput_eq _ _

/-! ## The fetch -/

/-- A fetch that is done: the latches it wrote, the D flag of its width code, and nothing else changed. -/
theorem fetch_ok {s s' : State} {adhi : Nibble} (h : fetch s = .ok (s', adhi)) :
    ∃ l : Latches, s' = s.latched l ∧ memReadWord s.regs.pc.toNat s = .ok l.ir ∧
      l.len = (widthOf l.ir).length := by
  unfold fetch at h

  obtain ⟨ir, hir, h⟩ := Except.bind_eq_ok_iff.1 h
  cases hw : widthOf ir with
  | byte =>
    rw [hw] at h
    obtain ⟨b, _, h⟩ := Except.bind_eq_ok_iff.1 h
    cases h
    exact ⟨_, rfl, hir, by simp [Latches.ofByte, hw, Width.length]⟩
  | word =>
    rw [hw] at h
    obtain ⟨b, _, h⟩ := Except.bind_eq_ok_iff.1 h
    cases h
    exact ⟨_, rfl, hir, by simp [Latches.ofWord, hw, Width.length]⟩
  | long =>
    rw [hw] at h
    obtain ⟨b, _, h⟩ := Except.bind_eq_ok_iff.1 h
    obtain ⟨w, _, h⟩ := Except.bind_eq_ok_iff.1 h
    cases h
    exact ⟨_, rfl, hir, by simp [Latches.ofLong, hw, Width.length]⟩
  | none =>
    rw [hw] at h
    cases h
    exact ⟨_, rfl, hir, by simp [Latches.ofNone, hw, Width.length]⟩

theorem fetchDecode_ok {N : Numbering} {s s' : State} {i : Instr} (h : fetchDecode N s = .ok (s', i)) :
    ∃ adhi, fetch s = .ok (s', adhi) ∧ decodeLatches N s'.latches adhi = .ok i := by
  unfold fetchDecode at h
  obtain ⟨⟨u, adhi⟩, hf, h⟩ := Except.bind_eq_ok_iff.1 h
  obtain ⟨j, hd, h⟩ := Except.bind_eq_ok_iff.1 h
  cases h
  refine ⟨adhi, hf, ?_⟩
  cases hdec : decodeLatches N s'.latches adhi with
  | ok k => simp only [hdec, decodeFault] at hd; cases hd; rfl
  | error k => simp only [hdec, decodeFault] at hd; cases hd

end Sys2Proof.Machine
end

