-- ==== Sys2Proof/Laws/Exec.lean ====
section
/-! SUPPORT. The shared operation of each family: when it answers a next state and which, and which faults it raises
in which order. Every executor is `outcome` of one of these, by `rfl`. -/

namespace Sys2Proof.Machine

/-! ## Data movement -/

theorem moveReg_ok {a : Nibble} {b : Byte} {s t : State} :
    moveReg a b s = .ok t ↔ ∃ x y, Reg.ofIndex a.toNat = some x ∧ Reg.ofIndex b.toNat = some y ∧
      advance 3 (s.setReg x (s.getReg y)) = .ok t := by
  simp [moveReg, Except.bind_eq_ok_iff, regIndex_ok]

theorem moveReg_error {a : Nibble} {b : Byte} {s : State} {f : Fault} :
    moveReg a b s = .error f ↔
      regIndex a.toNat = .error f ∨ ∃ x, Reg.ofIndex a.toNat = some x ∧
        (regIndex b.toNat = .error f ∨ ∃ y, Reg.ofIndex b.toNat = some y ∧
          advance 3 (s.setReg x (s.getReg y)) = .error f) := by
  simp [moveReg, Except.bind_eq_error_iff, regIndex_ok]

theorem loadImm_ok {len : Nat} {a : Nibble} {v : Word} {s t : State} :
    loadImm len a v s = .ok t ↔ ∃ x, Reg.ofIndex a.toNat = some x ∧ advance len (s.setReg x v) = .ok t := by
  simp [loadImm, Except.bind_eq_ok_iff, regIndex_ok]

theorem loadImm_error {len : Nat} {a : Nibble} {v : Word} {s : State} {f : Fault} :
    loadImm len a v s = .error f ↔
      regIndex a.toNat = .error f ∨ ∃ x, Reg.ofIndex a.toNat = some x ∧ advance len (s.setReg x v) = .error f := by
  simp [loadImm, Except.bind_eq_error_iff, regIndex_ok]

theorem loadWord_ok {a : Nibble} {p : Place} {s t : State} :
    loadWord a p s = .ok t ↔ ∃ x ea v, Reg.ofIndex a.toNat = some x ∧ p.addr s = .ok ea ∧
      memReadWord ea.toNat s = .ok v ∧ advance p.len (s.setReg x v) = .ok t := by
  simp [loadWord, Except.bind_eq_ok_iff, regIndex_ok]

theorem loadWord_error {a : Nibble} {p : Place} {s : State} {f : Fault} :
    loadWord a p s = .error f ↔
      regIndex a.toNat = .error f ∨ ∃ x, Reg.ofIndex a.toNat = some x ∧
        (p.addr s = .error f ∨ ∃ ea, p.addr s = .ok ea ∧
          (memReadWord ea.toNat s = .error f ∨ ∃ v, memReadWord ea.toNat s = .ok v ∧
            advance p.len (s.setReg x v) = .error f)) := by
  simp [loadWord, Except.bind_eq_error_iff, regIndex_ok]

theorem loadByte_ok {a : Nibble} {p : Place} {s t : State} :
    loadByte a p s = .ok t ↔ ∃ x ea v, Reg.ofIndex a.toNat = some x ∧ p.addr s = .ok ea ∧
      memReadByte ea.toNat s = .ok v ∧ advance p.len (s.setReg x (v.setWidth 16)) = .ok t := by
  simp [loadByte, Except.bind_eq_ok_iff, regIndex_ok]

theorem loadByte_error {a : Nibble} {p : Place} {s : State} {f : Fault} :
    loadByte a p s = .error f ↔
      regIndex a.toNat = .error f ∨ ∃ x, Reg.ofIndex a.toNat = some x ∧
        (p.addr s = .error f ∨ ∃ ea, p.addr s = .ok ea ∧
          (memReadByte ea.toNat s = .error f ∨ ∃ v, memReadByte ea.toNat s = .ok v ∧
            advance p.len (s.setReg x (v.setWidth 16)) = .error f)) := by
  simp [loadByte, Except.bind_eq_error_iff, regIndex_ok]

theorem storeWord_ok {a : Nibble} {p : Place} {s t : State} :
    storeWord a p s = .ok t ↔ ∃ x ea u, Reg.ofIndex a.toNat = some x ∧ p.addr s = .ok ea ∧
      memWriteWord ea.toNat (s.getReg x) s = .ok u ∧ advance p.len u = .ok t := by
  simp [storeWord, putWordAt, Except.bind_eq_ok_iff, regIndex_ok]

theorem storeWord_error {a : Nibble} {p : Place} {s : State} {f : Fault} :
    storeWord a p s = .error f ↔
      regIndex a.toNat = .error f ∨ ∃ x, Reg.ofIndex a.toNat = some x ∧
        (p.addr s = .error f ∨ ∃ ea, p.addr s = .ok ea ∧
          (memWriteWord ea.toNat (s.getReg x) s = .error f ∨ ∃ u, memWriteWord ea.toNat (s.getReg x) s = .ok u ∧
            advance p.len u = .error f)) := by
  simp [storeWord, putWordAt, Except.bind_eq_error_iff, regIndex_ok]

theorem storeByte_ok {part : Word → Byte} {a : Nibble} {p : Place} {s t : State} :
    storeByte part a p s = .ok t ↔ ∃ x ea u, Reg.ofIndex a.toNat = some x ∧ p.addr s = .ok ea ∧
      memWriteByte ea.toNat (part (s.getReg x)) s = .ok u ∧ advance p.len u = .ok t := by
  simp [storeByte, putByteAt, Except.bind_eq_ok_iff, regIndex_ok]

theorem storeByte_error {part : Word → Byte} {a : Nibble} {p : Place} {s : State} {f : Fault} :
    storeByte part a p s = .error f ↔
      regIndex a.toNat = .error f ∨ ∃ x, Reg.ofIndex a.toNat = some x ∧
        (p.addr s = .error f ∨ ∃ ea, p.addr s = .ok ea ∧
          (memWriteByte ea.toNat (part (s.getReg x)) s = .error f ∨
            ∃ u, memWriteByte ea.toNat (part (s.getReg x)) s = .ok u ∧ advance p.len u = .error f)) := by
  simp [storeByte, putByteAt, Except.bind_eq_error_iff, regIndex_ok]

theorem pushImm_ok {len : Nat} {v : Word} {s t : State} :
    pushImm len v s = .ok t ↔ ∃ u, push v s = .ok u ∧ advance len u = .ok t := by
  simp [pushImm, Except.bind_eq_ok_iff]

theorem pushImm_error {len : Nat} {v : Word} {s : State} {f : Fault} :
    pushImm len v s = .error f ↔ push v s = .error f ∨ ∃ u, push v s = .ok u ∧ advance len u = .error f := by
  simp [pushImm, Except.bind_eq_error_iff]

theorem pushReg_ok {a : Nibble} {s t : State} :
    pushReg a s = .ok t ↔ ∃ x u, Reg.ofIndex a.toNat = some x ∧ push (s.getReg x) s = .ok u ∧ advance 2 u = .ok t := by
  simp [pushReg, pushRegAt, Except.bind_eq_ok_iff, regIndex_ok]

theorem pushReg_error {a : Nibble} {s : State} {f : Fault} :
    pushReg a s = .error f ↔
      regIndex a.toNat = .error f ∨ ∃ x, Reg.ofIndex a.toNat = some x ∧
        (push (s.getReg x) s = .error f ∨ ∃ u, push (s.getReg x) s = .ok u ∧ advance 2 u = .error f) := by
  simp [pushReg, pushRegAt, Except.bind_eq_error_iff, regIndex_ok]

theorem pushMem_ok {p : Place} {s t : State} :
    pushMem p s = .ok t ↔ ∃ ea v u, p.addr s = .ok ea ∧ memReadWord ea.toNat s = .ok v ∧ push v s = .ok u ∧
      advance p.len u = .ok t := by
  simp [pushMem, pushMemAt, Except.bind_eq_ok_iff]

theorem pushMem_error {p : Place} {s : State} {f : Fault} :
    pushMem p s = .error f ↔
      p.addr s = .error f ∨ ∃ ea, p.addr s = .ok ea ∧
        (memReadWord ea.toNat s = .error f ∨ ∃ v, memReadWord ea.toNat s = .ok v ∧
          (push v s = .error f ∨ ∃ u, push v s = .ok u ∧ advance p.len u = .error f)) := by
  simp [pushMem, pushMemAt, Except.bind_eq_error_iff]

theorem popReg_ok {a : Nibble} {s t : State} :
    popReg a s = .ok t ↔ ∃ x v u, Reg.ofIndex a.toNat = some x ∧ pop s = .ok (v, u) ∧
      advance 2 (u.setReg x v) = .ok t := by
  simp [popReg, Except.bind_eq_ok_iff, regIndex_ok]

theorem popReg_error {a : Nibble} {s : State} {f : Fault} :
    popReg a s = .error f ↔
      regIndex a.toNat = .error f ∨ ∃ x, Reg.ofIndex a.toNat = some x ∧
        (pop s = .error f ∨ ∃ v u, pop s = .ok (v, u) ∧ advance 2 (u.setReg x v) = .error f) := by
  simp [popReg, Except.bind_eq_error_iff, regIndex_ok]

/-! ## Compare, arithmetic and logic -/

theorem withOperands_ok {effect : Reg → Word → State → Except Fault State} {a : Nibble} {y : Src} {s t : State} :
    withOperands effect a y s = .ok t ↔ ∃ x v u, Reg.ofIndex a.toNat = some x ∧ y.value s = .ok v ∧
      effect x v s = .ok u ∧ advance y.len u = .ok t := by
  simp [withOperands, Except.bind_eq_ok_iff, regIndex_ok]

theorem withOperands_error {effect : Reg → Word → State → Except Fault State} {a : Nibble} {y : Src} {s : State}
    {f : Fault} :
    withOperands effect a y s = .error f ↔
      regIndex a.toNat = .error f ∨ ∃ x, Reg.ofIndex a.toNat = some x ∧
        (y.value s = .error f ∨ ∃ v, y.value s = .ok v ∧
          (effect x v s = .error f ∨ ∃ u, effect x v s = .ok u ∧ advance y.len u = .error f)) := by
  simp [withOperands, Except.bind_eq_error_iff, regIndex_ok]

/-- What an arithmetic or logic effect may change: the destination register and the flags. -/
def OnlyRegAndFlags (effect : Reg → Word → State → Except Fault State) : Prop :=
  ∀ x v s u, effect x v s = .ok u → ∃ w f, u = (s.setReg x w).setFlags f

theorem cmpEffect_only : OnlyRegAndFlags cmpEffect := by
  intro x v s u h
  cases h
  have hx : s.setReg x (s.getReg x) = s := by cases s; cases x <;> rfl
  exact ⟨s.getReg x, compareFlags (s.getReg x) v s.flags, by rw [hx]⟩

theorem addEffect_only : OnlyRegAndFlags addEffect := fun _ _ _ _ h => by cases h; exact ⟨_, _, rfl⟩

theorem subEffect_only : OnlyRegAndFlags subEffect := fun _ _ _ _ h => by cases h; exact ⟨_, _, rfl⟩

theorem andEffect_only : OnlyRegAndFlags andEffect := fun _ _ s _ h => by cases h; exact ⟨_, s.flags, rfl⟩

theorem orEffect_only : OnlyRegAndFlags orEffect := fun _ _ s _ h => by cases h; exact ⟨_, s.flags, rfl⟩

theorem xorEffect_only : OnlyRegAndFlags xorEffect := fun _ _ s _ h => by cases h; exact ⟨_, s.flags, rfl⟩

theorem lshEffect_ok {x : Reg} {v : Word} {s u : State} :
    lshEffect x v s = .ok u ↔ v.toNat ≤ 15 ∧ u = s.setReg x (s.getReg x <<< v.toNat) := by
  unfold lshEffect
  by_cases h : 15 < v.toNat
  · rw [if_pos h]; simp; omega
  · rw [if_neg h, Except.ok.injEq]; exact ⟨fun e => ⟨by omega, e.symm⟩, fun e => e.2.symm⟩

theorem rshEffect_ok {x : Reg} {v : Word} {s u : State} :
    rshEffect x v s = .ok u ↔ v.toNat ≤ 15 ∧ u = s.setReg x (s.getReg x >>> v.toNat) := by
  unfold rshEffect
  by_cases h : 15 < v.toNat
  · rw [if_pos h]; simp; omega
  · rw [if_neg h, Except.ok.injEq]; exact ⟨fun e => ⟨by omega, e.symm⟩, fun e => e.2.symm⟩

theorem modEffect_ok {x : Reg} {v : Word} {s u : State} :
    modEffect x v s = .ok u ↔ v ≠ 0 ∧ u = s.setReg x (s.getReg x % v) := by
  unfold modEffect
  by_cases h : v = 0
  · rw [if_pos h]; simp [h]
  · rw [if_neg h, Except.ok.injEq]; exact ⟨fun e => ⟨h, e.symm⟩, fun e => e.2.symm⟩

theorem lshEffect_error {x : Reg} {v : Word} {s : State} {f : Fault} :
    lshEffect x v s = .error f ↔ 15 < v.toNat ∧ f = .shiftOverflow v := by
  unfold lshEffect
  by_cases h : 15 < v.toNat
  · rw [if_pos h, Except.error.injEq]; exact ⟨fun e => ⟨h, e.symm⟩, fun e => e.2.symm⟩
  · rw [if_neg h]; simp [h]

theorem rshEffect_error {x : Reg} {v : Word} {s : State} {f : Fault} :
    rshEffect x v s = .error f ↔ 15 < v.toNat ∧ f = .shiftOverflow v := by
  unfold rshEffect
  by_cases h : 15 < v.toNat
  · rw [if_pos h, Except.error.injEq]; exact ⟨fun e => ⟨h, e.symm⟩, fun e => e.2.symm⟩
  · rw [if_neg h]; simp [h]

theorem modEffect_error {x : Reg} {v : Word} {s : State} {f : Fault} :
    modEffect x v s = .error f ↔ v = 0 ∧ f = .divideByZero := by
  unfold modEffect
  by_cases h : v = 0
  · rw [if_pos h, Except.error.injEq]; exact ⟨fun e => ⟨h, e.symm⟩, fun e => e.2.symm⟩
  · rw [if_neg h]; exact ⟨fun e => (nomatch e), fun e => absurd e.1 h⟩

theorem lshEffect_only : OnlyRegAndFlags lshEffect := fun _ _ s _ h => ⟨_, s.flags, (lshEffect_ok.1 h).2⟩

theorem rshEffect_only : OnlyRegAndFlags rshEffect := fun _ _ s _ h => ⟨_, s.flags, (rshEffect_ok.1 h).2⟩

theorem mulEffect_only : OnlyRegAndFlags mulEffect := fun _ _ _ _ h => by cases h; exact ⟨_, _, rfl⟩

theorem modEffect_only : OnlyRegAndFlags modEffect := fun _ _ s _ h => ⟨_, s.flags, (modEffect_ok.1 h).2⟩

/-! ## Control transfer -/

theorem branch_ok {cond : Flags → Bool} {tg : Target} {s t : State} :
    branch cond tg s = .ok t ↔ ∃ v, tg.value = .ok v ∧
      ((cond s.flags = true ∧ t = s.setReg .pc v) ∨ (cond s.flags = false ∧ advance tg.len s = .ok t)) := by
  simp only [branch, Except.bind_eq_ok_iff]
  cases cond s.flags <;> simp [eq_comm (b := t)]

theorem branch_error {cond : Flags → Bool} {tg : Target} {s : State} {f : Fault} :
    branch cond tg s = .error f ↔
      tg.value = .error f ∨ ∃ v, tg.value = .ok v ∧ cond s.flags = false ∧ advance tg.len s = .error f := by
  simp only [branch, Except.bind_eq_error_iff]
  cases cond s.flags <;> simp

theorem jump_ok {tg : Target} {s t : State} :
    jump tg s = .ok t ↔ ∃ v, tg.value = .ok v ∧ t = s.setReg .pc v := by
  simp [jump, Except.bind_eq_ok_iff, eq_comm (b := t)]

theorem jump_error {tg : Target} {s : State} {f : Fault} : jump tg s = .error f ↔ tg.value = .error f := by
  simp [jump, Except.bind_eq_error_iff]

theorem callSub_ok {tg : Target} {s t : State} :
    callSub tg s = .ok t ↔ ∃ v u, tg.value = .ok v ∧ s.regs.pc.toNat + tg.len ≤ 0xFFFF ∧
      push (s.regs.pc + BitVec.ofNat 16 tg.len) s = .ok u ∧ t = u.setReg .pc v := by
  simp only [callSub, Except.bind_eq_ok_iff]
  by_cases h : 0xFFFF < s.regs.pc.toNat + tg.len
  · simp only [if_pos h, reduceCtorEq, and_false, exists_false, false_iff]
    rintro ⟨_, _, _, h', _⟩
    omega
  · simp only [if_neg h, Except.bind_eq_ok_iff, Except.ok.injEq, eq_comm (b := t)]
    exact ⟨fun ⟨v, hv, u, hu, ht⟩ => ⟨v, u, hv, by omega, hu, ht⟩, fun ⟨v, u, hv, _, hu, ht⟩ => ⟨v, hv, u, hu, ht⟩⟩

theorem callSub_error {tg : Target} {s : State} {f : Fault} :
    callSub tg s = .error f ↔
      tg.value = .error f ∨ ∃ v, tg.value = .ok v ∧
        ((0xFFFF < s.regs.pc.toNat + tg.len ∧ f = .pcOverflow s.regs.pc) ∨
          (s.regs.pc.toNat + tg.len ≤ 0xFFFF ∧ push (s.regs.pc + BitVec.ofNat 16 tg.len) s = .error f)) := by
  simp only [callSub, Except.bind_eq_error_iff]
  by_cases h : 0xFFFF < s.regs.pc.toNat + tg.len
  · simp [h, Nat.not_le.2 h, eq_comm (b := f)]
  · simp [Except.bind_eq_error_iff, h, Nat.not_lt.1 h]

theorem returnSub_ok {s t : State} :
    returnSub s = .ok t ↔ ∃ v u, pop s = .ok (v, u) ∧ t = u.setReg .pc v := by
  simp [returnSub, Except.bind_eq_ok_iff, eq_comm (b := t)]

theorem returnSub_error {s : State} {f : Fault} : returnSub s = .error f ↔ pop s = .error f := by
  simp [returnSub, Except.bind_eq_error_iff]

/-! ## System -/

theorem requestInterrupt_ok {len : Nat} {n : Word} {s t : State} :
    requestInterrupt len n s = .ok t ↔
      ∃ h : n.toNat < 255, advance len (s.setIrq ⟨true, ⟨n.toNat, h⟩⟩) = .ok t := by
  unfold requestInterrupt
  by_cases h : n.toNat < 255 <;> simp [h]

theorem requestInterrupt_error {len : Nat} {n : Word} {s : State} {f : Fault} :
    requestInterrupt len n s = .error f ↔
      (254 < n.toNat ∧ f = .invalidInterrupt n) ∨
        ∃ h : n.toNat < 255, advance len (s.setIrq ⟨true, ⟨n.toNat, h⟩⟩) = .error f := by
  unfold requestInterrupt
  by_cases h : n.toNat < 255
  · have h' : ¬254 < n.toNat := by omega
    simp [h, h']
  · have h' : 254 < n.toNat := by omega
    simp [h, h', eq_comm (b := f)]

/-- REI, inverted: the PC, the flags word, then R6 down to R1. -/
theorem returnFromInterrupt_ok {s t : State} :
    returnFromInterrupt s = .ok t ↔ ∃ ret s1 w s2, pop s = .ok (ret, s1) ∧ pop (s1.setReg .pc ret) = .ok (w, s2) ∧
      popRegs savedRegs.reverse (s2.setFlags (flagsOfWord w)) = .ok t := by
  simp [returnFromInterrupt, Except.bind_eq_ok_iff]

/-- What a run of pops into registers leaves alone: everything but those registers and SP. -/
theorem popRegs_frame {xs : List Reg} {s t : State} (h : popRegs xs s = .ok t) :
    (∀ y, y ∉ xs → y ≠ .sp → t.getReg y = s.getReg y) ∧ t.flags = s.flags ∧ t.running = s.running ∧ t.irq = s.irq ∧
      t.latches = s.latches ∧ t.fault = s.fault ∧ t.devices = s.devices ∧ t.input = s.input ∧
      t.stopRequested = s.stopRequested := by
  induction xs generalizing s with
  | nil => cases h; exact ⟨fun _ _ _ => rfl, rfl, rfl, rfl, rfl, rfl, rfl, rfl, rfl⟩
  | cons x xs ih =>
    obtain ⟨⟨v, u⟩, hp, h⟩ := Except.bind_eq_ok_iff.1 h
    obtain ⟨_, _, rfl⟩ := pop_ok.1 hp
    obtain ⟨hr, h1, h2, h3, h4, h5, h6, h7, h8⟩ := ih h
    refine ⟨fun y hy hsp => ?_, h1, h2, h3, h4, h5, h6, h7, h8⟩
    rw [List.mem_cons, not_or] at hy
    rw [hr y hy.2 hsp, State.getReg_setReg_ne _ _ hy.1, State.getReg_setReg_ne _ _ hsp]

/-- A run of pops raises no fault but underflow or a bus fault. -/
theorem popRegs_error {xs : List Reg} {s : State} {f : Fault} (h : popRegs xs s = .error f) :
    ∃ u, pop u = .error f := by
  induction xs generalizing s with
  | nil => cases h
  | cons x xs ih =>
    rcases Except.bind_eq_error_iff.1 h with h | ⟨⟨v, u⟩, _, h⟩
    · exact ⟨s, h⟩
    · exact ih h

end Sys2Proof.Machine
end

