-- ==== Sys2Proof/Laws/PerInstr.lean ====
section
/-! SUPPORT. The family EncodingShape: one statement about the syntax of every instruction, and a lemma for each
constructor. -/

namespace Sys2Proof.Laws

/-- The encoding's length, under any numbering, is 2, 3, 4 or 5 bytes and the one that the width code in bits 3:2 of its
meta byte fixes (R90, R99); bits 1:0 of the meta byte are 0 (R94). -/
def EncodingShape.Statement (i : Instr) : Prop :=
  ∀ N : Numbering, (encodeWith N i).length = i.length ∧ 2 ≤ i.length ∧ i.length ≤ 5 ∧
    ∀ b0 b1, (encodeWith N i)[0]? = some b0 → (encodeWith N i)[1]? = some b1 →
      (widthOf (wordOfBytes b0 b1)).length = i.length ∧ reservedOf (wordOfBytes b0 b1) = 0

/-- The statement from the number of operand bytes. -/
theorem EncodingShape.of_operand (i : Instr) (h : i.parts.operand.length + 2 = i.length) : EncodingShape.Statement i := by
  have hl : 2 ≤ i.length ∧ i.length ≤ 5 := by
    unfold Instr.length
    cases i.parts.width <;> decide
  refine fun N => ⟨by simpa [encodeWith] using h, hl.1, hl.2, fun b0 b1 h0 h1 => ?_⟩
  simp only [encodeWith, List.getElem?_cons_zero, List.getElem?_cons_succ, Option.some.injEq] at h0 h1
  subst h0 h1
  rw [widthOf_metaByte, reservedOf_metaByte]
  exact ⟨rfl, rfl⟩

theorem EncodingShape.movRr (a : Nibble) (b : Byte) : EncodingShape.Statement (.movRr a b) :=
  EncodingShape.of_operand _ rfl

theorem EncodingShape.ldRi8 (a : Nibble) (imm : Byte) : EncodingShape.Statement (.ldRi8 a imm) :=
  EncodingShape.of_operand _ rfl

theorem EncodingShape.ldRi16 (a : Nibble) (imm : Word) : EncodingShape.Statement (.ldRi16 a imm) :=
  EncodingShape.of_operand _ rfl

theorem EncodingShape.ldRr (a : Nibble) (b : Byte) : EncodingShape.Statement (.ldRr a b) :=
  EncodingShape.of_operand _ rfl

theorem EncodingShape.ldRd8 (a : Nibble) (addr : Byte) : EncodingShape.Statement (.ldRd8 a addr) :=
  EncodingShape.of_operand _ rfl

theorem EncodingShape.ldRd16 (a : Nibble) (addr : Word) : EncodingShape.Statement (.ldRd16 a addr) :=
  EncodingShape.of_operand _ rfl

theorem EncodingShape.ldRd20 (a : Nibble) (ad : Nibble) (lo : Word) : EncodingShape.Statement (.ldRd20 a ad lo) :=
  EncodingShape.of_operand _ rfl

theorem EncodingShape.ldbRr (a : Nibble) (b : Byte) : EncodingShape.Statement (.ldbRr a b) :=
  EncodingShape.of_operand _ rfl

theorem EncodingShape.ldbRd8 (a : Nibble) (addr : Byte) : EncodingShape.Statement (.ldbRd8 a addr) :=
  EncodingShape.of_operand _ rfl

theorem EncodingShape.ldbRd16 (a : Nibble) (addr : Word) : EncodingShape.Statement (.ldbRd16 a addr) :=
  EncodingShape.of_operand _ rfl

theorem EncodingShape.ldbRd20 (a : Nibble) (ad : Nibble) (lo : Word) : EncodingShape.Statement (.ldbRd20 a ad lo) :=
  EncodingShape.of_operand _ rfl

theorem EncodingShape.pshI8 (imm : Byte) : EncodingShape.Statement (.pshI8 imm) :=
  EncodingShape.of_operand _ rfl

theorem EncodingShape.pshI16 (imm : Word) : EncodingShape.Statement (.pshI16 imm) :=
  EncodingShape.of_operand _ rfl

theorem EncodingShape.pshR (a : Nibble) : EncodingShape.Statement (.pshR a) :=
  EncodingShape.of_operand _ rfl

theorem EncodingShape.pshD8 (addr : Byte) : EncodingShape.Statement (.pshD8 addr) :=
  EncodingShape.of_operand _ rfl

theorem EncodingShape.pshD16 (addr : Word) : EncodingShape.Statement (.pshD16 addr) :=
  EncodingShape.of_operand _ rfl

theorem EncodingShape.pshD20 (ad : Nibble) (lo : Word) : EncodingShape.Statement (.pshD20 ad lo) :=
  EncodingShape.of_operand _ rfl

theorem EncodingShape.popR (a : Nibble) : EncodingShape.Statement (.popR a) :=
  EncodingShape.of_operand _ rfl

theorem EncodingShape.stRr (a : Nibble) (b : Byte) : EncodingShape.Statement (.stRr a b) :=
  EncodingShape.of_operand _ rfl

theorem EncodingShape.stRd8 (a : Nibble) (addr : Byte) : EncodingShape.Statement (.stRd8 a addr) :=
  EncodingShape.of_operand _ rfl

theorem EncodingShape.stRd16 (a : Nibble) (addr : Word) : EncodingShape.Statement (.stRd16 a addr) :=
  EncodingShape.of_operand _ rfl

theorem EncodingShape.stRd20 (a : Nibble) (ad : Nibble) (lo : Word) : EncodingShape.Statement (.stRd20 a ad lo) :=
  EncodingShape.of_operand _ rfl

theorem EncodingShape.stlRr (a : Nibble) (b : Byte) : EncodingShape.Statement (.stlRr a b) :=
  EncodingShape.of_operand _ rfl

theorem EncodingShape.stlRd8 (a : Nibble) (addr : Byte) : EncodingShape.Statement (.stlRd8 a addr) :=
  EncodingShape.of_operand _ rfl

theorem EncodingShape.stlRd16 (a : Nibble) (addr : Word) : EncodingShape.Statement (.stlRd16 a addr) :=
  EncodingShape.of_operand _ rfl

theorem EncodingShape.stlRd20 (a : Nibble) (ad : Nibble) (lo : Word) : EncodingShape.Statement (.stlRd20 a ad lo) :=
  EncodingShape.of_operand _ rfl

theorem EncodingShape.sthRr (a : Nibble) (b : Byte) : EncodingShape.Statement (.sthRr a b) :=
  EncodingShape.of_operand _ rfl

theorem EncodingShape.sthRd8 (a : Nibble) (addr : Byte) : EncodingShape.Statement (.sthRd8 a addr) :=
  EncodingShape.of_operand _ rfl

theorem EncodingShape.sthRd16 (a : Nibble) (addr : Word) : EncodingShape.Statement (.sthRd16 a addr) :=
  EncodingShape.of_operand _ rfl

theorem EncodingShape.sthRd20 (a : Nibble) (ad : Nibble) (lo : Word) : EncodingShape.Statement (.sthRd20 a ad lo) :=
  EncodingShape.of_operand _ rfl

theorem EncodingShape.cmpRi8 (a : Nibble) (imm : Byte) : EncodingShape.Statement (.cmpRi8 a imm) :=
  EncodingShape.of_operand _ rfl

theorem EncodingShape.cmpRi16 (a : Nibble) (imm : Word) : EncodingShape.Statement (.cmpRi16 a imm) :=
  EncodingShape.of_operand _ rfl

theorem EncodingShape.cmpRr (a : Nibble) (b : Byte) : EncodingShape.Statement (.cmpRr a b) :=
  EncodingShape.of_operand _ rfl

theorem EncodingShape.beqD8 (addr : Byte) : EncodingShape.Statement (.beqD8 addr) :=
  EncodingShape.of_operand _ rfl

theorem EncodingShape.beqD16 (addr : Word) : EncodingShape.Statement (.beqD16 addr) :=
  EncodingShape.of_operand _ rfl

theorem EncodingShape.beqD20 (ad : Nibble) (lo : Word) : EncodingShape.Statement (.beqD20 ad lo) :=
  EncodingShape.of_operand _ rfl

theorem EncodingShape.bgtD8 (addr : Byte) : EncodingShape.Statement (.bgtD8 addr) :=
  EncodingShape.of_operand _ rfl

theorem EncodingShape.bgtD16 (addr : Word) : EncodingShape.Statement (.bgtD16 addr) :=
  EncodingShape.of_operand _ rfl

theorem EncodingShape.bgtD20 (ad : Nibble) (lo : Word) : EncodingShape.Statement (.bgtD20 ad lo) :=
  EncodingShape.of_operand _ rfl

theorem EncodingShape.bltD8 (addr : Byte) : EncodingShape.Statement (.bltD8 addr) :=
  EncodingShape.of_operand _ rfl

theorem EncodingShape.bltD16 (addr : Word) : EncodingShape.Statement (.bltD16 addr) :=
  EncodingShape.of_operand _ rfl

theorem EncodingShape.bltD20 (ad : Nibble) (lo : Word) : EncodingShape.Statement (.bltD20 ad lo) :=
  EncodingShape.of_operand _ rfl

theorem EncodingShape.bofD8 (addr : Byte) : EncodingShape.Statement (.bofD8 addr) :=
  EncodingShape.of_operand _ rfl

theorem EncodingShape.bofD16 (addr : Word) : EncodingShape.Statement (.bofD16 addr) :=
  EncodingShape.of_operand _ rfl

theorem EncodingShape.bofD20 (ad : Nibble) (lo : Word) : EncodingShape.Statement (.bofD20 ad lo) :=
  EncodingShape.of_operand _ rfl

theorem EncodingShape.bneD8 (addr : Byte) : EncodingShape.Statement (.bneD8 addr) :=
  EncodingShape.of_operand _ rfl

theorem EncodingShape.bneD16 (addr : Word) : EncodingShape.Statement (.bneD16 addr) :=
  EncodingShape.of_operand _ rfl

theorem EncodingShape.bneD20 (ad : Nibble) (lo : Word) : EncodingShape.Statement (.bneD20 ad lo) :=
  EncodingShape.of_operand _ rfl

theorem EncodingShape.jmpD8 (addr : Byte) : EncodingShape.Statement (.jmpD8 addr) :=
  EncodingShape.of_operand _ rfl

theorem EncodingShape.jmpD16 (addr : Word) : EncodingShape.Statement (.jmpD16 addr) :=
  EncodingShape.of_operand _ rfl

theorem EncodingShape.jmpD20 (ad : Nibble) (lo : Word) : EncodingShape.Statement (.jmpD20 ad lo) :=
  EncodingShape.of_operand _ rfl

theorem EncodingShape.jsrD8 (addr : Byte) : EncodingShape.Statement (.jsrD8 addr) :=
  EncodingShape.of_operand _ rfl

theorem EncodingShape.jsrD16 (addr : Word) : EncodingShape.Statement (.jsrD16 addr) :=
  EncodingShape.of_operand _ rfl

theorem EncodingShape.jsrD20 (ad : Nibble) (lo : Word) : EncodingShape.Statement (.jsrD20 ad lo) :=
  EncodingShape.of_operand _ rfl

theorem EncodingShape.addRi8 (a : Nibble) (imm : Byte) : EncodingShape.Statement (.addRi8 a imm) :=
  EncodingShape.of_operand _ rfl

theorem EncodingShape.addRi16 (a : Nibble) (imm : Word) : EncodingShape.Statement (.addRi16 a imm) :=
  EncodingShape.of_operand _ rfl

theorem EncodingShape.addRr (a : Nibble) (b : Byte) : EncodingShape.Statement (.addRr a b) :=
  EncodingShape.of_operand _ rfl

theorem EncodingShape.subRi8 (a : Nibble) (imm : Byte) : EncodingShape.Statement (.subRi8 a imm) :=
  EncodingShape.of_operand _ rfl

theorem EncodingShape.subRi16 (a : Nibble) (imm : Word) : EncodingShape.Statement (.subRi16 a imm) :=
  EncodingShape.of_operand _ rfl

theorem EncodingShape.subRr (a : Nibble) (b : Byte) : EncodingShape.Statement (.subRr a b) :=
  EncodingShape.of_operand _ rfl

theorem EncodingShape.retN : EncodingShape.Statement (.retN) :=
  EncodingShape.of_operand _ rfl

theorem EncodingShape.hltN : EncodingShape.Statement (.hltN) :=
  EncodingShape.of_operand _ rfl

theorem EncodingShape.nopN : EncodingShape.Statement (.nopN) :=
  EncodingShape.of_operand _ rfl

theorem EncodingShape.intI8 (imm : Byte) : EncodingShape.Statement (.intI8 imm) :=
  EncodingShape.of_operand _ rfl

theorem EncodingShape.intI16 (imm : Word) : EncodingShape.Statement (.intI16 imm) :=
  EncodingShape.of_operand _ rfl

theorem EncodingShape.reiN : EncodingShape.Statement (.reiN) :=
  EncodingShape.of_operand _ rfl

theorem EncodingShape.andRi8 (a : Nibble) (imm : Byte) : EncodingShape.Statement (.andRi8 a imm) :=
  EncodingShape.of_operand _ rfl

theorem EncodingShape.andRi16 (a : Nibble) (imm : Word) : EncodingShape.Statement (.andRi16 a imm) :=
  EncodingShape.of_operand _ rfl

theorem EncodingShape.andRr (a : Nibble) (b : Byte) : EncodingShape.Statement (.andRr a b) :=
  EncodingShape.of_operand _ rfl

theorem EncodingShape.orRi8 (a : Nibble) (imm : Byte) : EncodingShape.Statement (.orRi8 a imm) :=
  EncodingShape.of_operand _ rfl

theorem EncodingShape.orRi16 (a : Nibble) (imm : Word) : EncodingShape.Statement (.orRi16 a imm) :=
  EncodingShape.of_operand _ rfl

theorem EncodingShape.orRr (a : Nibble) (b : Byte) : EncodingShape.Statement (.orRr a b) :=
  EncodingShape.of_operand _ rfl

theorem EncodingShape.xorRi8 (a : Nibble) (imm : Byte) : EncodingShape.Statement (.xorRi8 a imm) :=
  EncodingShape.of_operand _ rfl

theorem EncodingShape.xorRi16 (a : Nibble) (imm : Word) : EncodingShape.Statement (.xorRi16 a imm) :=
  EncodingShape.of_operand _ rfl

theorem EncodingShape.xorRr (a : Nibble) (b : Byte) : EncodingShape.Statement (.xorRr a b) :=
  EncodingShape.of_operand _ rfl

theorem EncodingShape.lshRi8 (a : Nibble) (imm : Byte) : EncodingShape.Statement (.lshRi8 a imm) :=
  EncodingShape.of_operand _ rfl

theorem EncodingShape.lshRi16 (a : Nibble) (imm : Word) : EncodingShape.Statement (.lshRi16 a imm) :=
  EncodingShape.of_operand _ rfl

theorem EncodingShape.lshRr (a : Nibble) (b : Byte) : EncodingShape.Statement (.lshRr a b) :=
  EncodingShape.of_operand _ rfl

theorem EncodingShape.rshRi8 (a : Nibble) (imm : Byte) : EncodingShape.Statement (.rshRi8 a imm) :=
  EncodingShape.of_operand _ rfl

theorem EncodingShape.rshRi16 (a : Nibble) (imm : Word) : EncodingShape.Statement (.rshRi16 a imm) :=
  EncodingShape.of_operand _ rfl

theorem EncodingShape.rshRr (a : Nibble) (b : Byte) : EncodingShape.Statement (.rshRr a b) :=
  EncodingShape.of_operand _ rfl

theorem EncodingShape.mulRi8 (a : Nibble) (imm : Byte) : EncodingShape.Statement (.mulRi8 a imm) :=
  EncodingShape.of_operand _ rfl

theorem EncodingShape.mulRi16 (a : Nibble) (imm : Word) : EncodingShape.Statement (.mulRi16 a imm) :=
  EncodingShape.of_operand _ rfl

theorem EncodingShape.mulRr (a : Nibble) (b : Byte) : EncodingShape.Statement (.mulRr a b) :=
  EncodingShape.of_operand _ rfl

theorem EncodingShape.modRi8 (a : Nibble) (imm : Byte) : EncodingShape.Statement (.modRi8 a imm) :=
  EncodingShape.of_operand _ rfl

theorem EncodingShape.modRi16 (a : Nibble) (imm : Word) : EncodingShape.Statement (.modRi16 a imm) :=
  EncodingShape.of_operand _ rfl

theorem EncodingShape.modRr (a : Nibble) (b : Byte) : EncodingShape.Statement (.modRr a b) :=
  EncodingShape.of_operand _ rfl

theorem EncodingShape.bgeD8 (addr : Byte) : EncodingShape.Statement (.bgeD8 addr) :=
  EncodingShape.of_operand _ rfl

theorem EncodingShape.bgeD16 (addr : Word) : EncodingShape.Statement (.bgeD16 addr) :=
  EncodingShape.of_operand _ rfl

theorem EncodingShape.bgeD20 (ad : Nibble) (lo : Word) : EncodingShape.Statement (.bgeD20 ad lo) :=
  EncodingShape.of_operand _ rfl

theorem EncodingShape.bleD8 (addr : Byte) : EncodingShape.Statement (.bleD8 addr) :=
  EncodingShape.of_operand _ rfl

theorem EncodingShape.bleD16 (addr : Word) : EncodingShape.Statement (.bleD16 addr) :=
  EncodingShape.of_operand _ rfl

theorem EncodingShape.bleD20 (ad : Nibble) (lo : Word) : EncodingShape.Statement (.bleD20 ad lo) :=
  EncodingShape.of_operand _ rfl

end Sys2Proof.Laws
end

