-- ==== Sys2Proof/Laws/Step.lean ====
section
/-! SUPPORT. What an executor and a tick can do to a state, said once: a chain of changes outside the devices and of
bus writes, from which every invariant of the device list follows by one induction. -/

namespace Sys2Proof.Machine

/-- `t` comes from `s` by changes to the registers, flags, running bit and request latch, and by served bus writes. -/
inductive Evolves : State → State → Prop where
  | refl (s : State) : Evolves s s
  | cpu {s t : State} (regs : Regs) (flags : Flags) (running : Bool) (irq : Irq) (h : Evolves s t) :
    Evolves s { t with regs := regs, flags := flags, running := running, irq := irq }
  | byte {s t u : State} {a : Nat} {v : Byte} (h : Evolves s t) (hw : memWriteByte a v t = .ok u) : Evolves s u
  | word {s t u : State} {a : Nat} {v : Word} (h : Evolves s t) (hw : memWriteWord a v t = .ok u) : Evolves s u

namespace Evolves

variable {s t u : State}

theorem setReg (h : Evolves s t) (x : Reg) (v : Word) : Evolves s (t.setReg x v) :=
  .cpu (t.regs.set x v) t.flags t.running t.irq h

theorem setFlags (h : Evolves s t) (f : Flags) : Evolves s (t.setFlags f) := .cpu t.regs f t.running t.irq h

theorem setIrq (h : Evolves s t) (q : Irq) : Evolves s (t.setIrq q) := .cpu t.regs t.flags t.running q h

theorem advance {len : Nat} (h : Evolves s t) (e : Machine.advance len t = .ok u) : Evolves s u := by
  obtain ⟨_, rfl⟩ := advance_ok.1 e
  exact h.setReg _ _

theorem push {v : Word} (h : Evolves s t) (e : Machine.push v t = .ok u) : Evolves s u := by
  obtain ⟨_, _, hw, rfl⟩ := push_ok.1 e
  exact (h.word hw).setReg _ _

theorem pop {v : Word} (h : Evolves s t) (e : Machine.pop t = .ok (v, u)) : Evolves s u := by
  obtain ⟨_, _, rfl⟩ := pop_ok.1 e
  exact h.setReg _ _

theorem pushAll {vs : List Word} (h : Evolves s t) (e : Machine.pushAll vs t = .ok u) : Evolves s u := by
  induction vs generalizing t with
  | nil => cases e; exact h
  | cons v vs ih =>
    obtain ⟨t', hp, e⟩ := Except.bind_eq_ok_iff.1 e
    exact ih (h.push hp) e

theorem popRegs {xs : List Reg} (h : Evolves s t) (e : Machine.popRegs xs t = .ok u) : Evolves s u := by
  induction xs generalizing t with
  | nil => cases e; exact h
  | cons x xs ih =>
    obtain ⟨⟨v, t'⟩, hp, e⟩ := Except.bind_eq_ok_iff.1 e
    exact ih ((h.pop hp).setReg x v) e

/-- What an evolution leaves alone. -/
theorem frame (h : Evolves s t) :
    t.latches = s.latches ∧ t.fault = s.fault ∧ t.input = s.input ∧ t.stopRequested = s.stopRequested := by
  induction h with
  | refl => exact ⟨rfl, rfl, rfl, rfl⟩
  | cpu _ _ _ _ _ ih => exact ih
  | byte _ hw ih =>
    obtain ⟨_, _, _, _, R⟩ := memWriteByte_ok hw
    rw [R.next]; exact ih
  | word _ hw ih =>
    obtain ⟨_, _, _, _, R, _⟩ := memWriteWord_ok hw
    rw [R.next]; exact ih

end Evolves

/-! ## The shared operations -/

theorem withOperands_evolves {effect : Reg → Word → State → Except Fault State} (he : OnlyRegAndFlags effect)
    {a : Nibble} {y : Src} {s t : State} (h : withOperands effect a y s = .ok t) : Evolves s t := by
  obtain ⟨x, v, u, _, _, hu, h⟩ := withOperands_ok.1 h
  obtain ⟨w, f, rfl⟩ := he _ _ _ _ hu
  exact (((Evolves.refl s).setReg x w).setFlags f).advance h

theorem branch_evolves {cond : Flags → Bool} {tg : Target} {s t : State} (h : branch cond tg s = .ok t) :
    Evolves s t := by
  obtain ⟨v, _, ⟨_, rfl⟩ | ⟨_, h⟩⟩ := branch_ok.1 h
  · exact (Evolves.refl s).setReg _ _
  · exact (Evolves.refl s).advance h

theorem jump_evolves {tg : Target} {s t : State} (h : jump tg s = .ok t) : Evolves s t := by
  obtain ⟨v, _, rfl⟩ := jump_ok.1 h
  exact (Evolves.refl s).setReg _ _

theorem callSub_evolves {tg : Target} {s t : State} (h : callSub tg s = .ok t) : Evolves s t := by
  obtain ⟨v, u, _, _, hp, rfl⟩ := callSub_ok.1 h
  exact ((Evolves.refl s).push hp).setReg _ _

theorem returnSub_evolves {s t : State} (h : returnSub s = .ok t) : Evolves s t := by
  obtain ⟨v, u, hp, rfl⟩ := returnSub_ok.1 h
  exact ((Evolves.refl s).pop hp).setReg _ _

theorem moveReg_evolves {a : Nibble} {b : Byte} {s t : State} (h : moveReg a b s = .ok t) : Evolves s t := by
  obtain ⟨x, y, _, _, h⟩ := moveReg_ok.1 h
  exact ((Evolves.refl s).setReg _ _).advance h

theorem loadImm_evolves {len : Nat} {a : Nibble} {v : Word} {s t : State} (h : loadImm len a v s = .ok t) :
    Evolves s t := by
  obtain ⟨x, _, h⟩ := loadImm_ok.1 h
  exact ((Evolves.refl s).setReg _ _).advance h

theorem loadWord_evolves {a : Nibble} {p : Place} {s t : State} (h : loadWord a p s = .ok t) : Evolves s t := by
  obtain ⟨x, ea, v, _, _, _, h⟩ := loadWord_ok.1 h
  exact ((Evolves.refl s).setReg _ _).advance h

theorem loadByte_evolves {a : Nibble} {p : Place} {s t : State} (h : loadByte a p s = .ok t) : Evolves s t := by
  obtain ⟨x, ea, v, _, _, _, h⟩ := loadByte_ok.1 h
  exact ((Evolves.refl s).setReg _ _).advance h

theorem storeWord_evolves {a : Nibble} {p : Place} {s t : State} (h : storeWord a p s = .ok t) : Evolves s t := by
  obtain ⟨x, ea, u, _, _, hw, h⟩ := storeWord_ok.1 h
  exact ((Evolves.refl s).word hw).advance h

theorem storeByte_evolves {part : Word → Byte} {a : Nibble} {p : Place} {s t : State}
    (h : storeByte part a p s = .ok t) : Evolves s t := by
  obtain ⟨x, ea, u, _, _, hw, h⟩ := storeByte_ok.1 h
  exact ((Evolves.refl s).byte hw).advance h

theorem pushImm_evolves {len : Nat} {v : Word} {s t : State} (h : pushImm len v s = .ok t) : Evolves s t := by
  obtain ⟨u, hp, h⟩ := pushImm_ok.1 h
  exact ((Evolves.refl s).push hp).advance h

theorem pushReg_evolves {a : Nibble} {s t : State} (h : pushReg a s = .ok t) : Evolves s t := by
  obtain ⟨x, u, _, hp, h⟩ := pushReg_ok.1 h
  exact ((Evolves.refl s).push hp).advance h

theorem pushMem_evolves {p : Place} {s t : State} (h : pushMem p s = .ok t) : Evolves s t := by
  obtain ⟨ea, v, u, _, _, hp, h⟩ := pushMem_ok.1 h
  exact ((Evolves.refl s).push hp).advance h

theorem popReg_evolves {a : Nibble} {s t : State} (h : popReg a s = .ok t) : Evolves s t := by
  obtain ⟨x, v, u, _, hp, h⟩ := popReg_ok.1 h
  exact (((Evolves.refl s).pop hp).setReg _ _).advance h

theorem requestInterrupt_evolves {len : Nat} {n : Word} {s t : State} (h : requestInterrupt len n s = .ok t) :
    Evolves s t := by
  obtain ⟨_, h⟩ := requestInterrupt_ok.1 h
  exact ((Evolves.refl s).setIrq _).advance h

theorem halt_evolves {s t : State} (h : halt s = .ok t) : Evolves s t := by
  cases h
  exact .cpu s.regs s.flags false s.irq (.refl s)

theorem returnFromInterrupt_evolves {s t : State} (h : returnFromInterrupt s = .ok t) : Evolves s t := by
  obtain ⟨ret, s1, w, s2, h1, h2, h⟩ := returnFromInterrupt_ok.1 h
  exact (((((Evolves.refl s).pop h1).setReg _ _).pop h2).setFlags _).popRegs h

theorem interruptDispatch_evolves {s t : State} (h : interruptDispatch s = .ok t) : Evolves s t := by
  unfold interruptDispatch at h
  obtain ⟨v, _, h⟩ := Except.bind_eq_ok_iff.1 h
  by_cases hv : v = 0
  · rw [if_pos hv] at h
    cases h
    exact (Evolves.refl s).setIrq _
  · rw [if_neg hv] at h
    obtain ⟨u, hp, h⟩ := Except.bind_eq_ok_iff.1 h
    cases h
    exact (((Evolves.refl s).pushAll hp).setReg _ _).setIrq _

/-! ## Every executor and every tick -/

/-- No executor does more to a state than evolve it. -/
theorem exec_evolves {i : Instr} {s t : State} (h : exec i s = .next t) : Evolves s t := by
  cases i with
  | movRr _ _ =>
    exact moveReg_evolves (outcome_eq_next.1 h)
  | ldRi8 _ _ | ldRi16 _ _ =>
    exact loadImm_evolves (outcome_eq_next.1 h)
  | ldRr _ _ | ldRd8 _ _ | ldRd16 _ _ | ldRd20 _ _ _ =>
    exact loadWord_evolves (outcome_eq_next.1 h)
  | ldbRr _ _ | ldbRd8 _ _ | ldbRd16 _ _ | ldbRd20 _ _ _ =>
    exact loadByte_evolves (outcome_eq_next.1 h)
  | pshI8 _ | pshI16 _ =>
    exact pushImm_evolves (outcome_eq_next.1 h)
  | pshR _ =>
    exact pushReg_evolves (outcome_eq_next.1 h)
  | pshD8 _ | pshD16 _ | pshD20 _ _ =>
    exact pushMem_evolves (outcome_eq_next.1 h)
  | popR _ =>
    exact popReg_evolves (outcome_eq_next.1 h)
  | stRr _ _ | stRd8 _ _ | stRd16 _ _ | stRd20 _ _ _ =>
    exact storeWord_evolves (outcome_eq_next.1 h)
  | stlRr _ _ | stlRd8 _ _ | stlRd16 _ _ | stlRd20 _ _ _ | sthRr _ _ | sthRd8 _ _ | sthRd16 _ _
  | sthRd20 _ _ _ =>
    exact storeByte_evolves (outcome_eq_next.1 h)
  | cmpRi8 _ _ | cmpRi16 _ _ | cmpRr _ _ =>
    exact withOperands_evolves cmpEffect_only (outcome_eq_next.1 h)
  | beqD8 _ | beqD16 _ | beqD20 _ _ | bgtD8 _ | bgtD16 _ | bgtD20 _ _ | bltD8 _ | bltD16 _ | bltD20 _ _
  | bofD8 _ | bofD16 _ | bofD20 _ _ | bneD8 _ | bneD16 _ | bneD20 _ _ | bgeD8 _ | bgeD16 _ | bgeD20 _ _
  | bleD8 _ | bleD16 _ | bleD20 _ _ =>
    exact branch_evolves (outcome_eq_next.1 h)
  | jmpD8 v => exact jump_evolves (tg := .abs8 v) (outcome_eq_next.1 h)
  | jmpD16 w => exact jump_evolves (tg := .abs16 w) (outcome_eq_next.1 h)
  | jmpD20 ad lo => exact jump_evolves (tg := .abs20 ad lo) (outcome_eq_next.1 h)
  | jsrD8 _ | jsrD16 _ | jsrD20 _ _ =>
    exact callSub_evolves (outcome_eq_next.1 h)
  | addRi8 _ _ | addRi16 _ _ | addRr _ _ =>
    exact withOperands_evolves addEffect_only (outcome_eq_next.1 h)
  | subRi8 _ _ | subRi16 _ _ | subRr _ _ =>
    exact withOperands_evolves subEffect_only (outcome_eq_next.1 h)
  | retN =>
    exact returnSub_evolves (outcome_eq_next.1 h)
  | hltN =>
    exact halt_evolves (outcome_eq_next.1 h)
  | nopN =>
    exact (Evolves.refl s).advance (outcome_eq_next.1 h)
  | intI8 _ | intI16 _ =>
    exact requestInterrupt_evolves (outcome_eq_next.1 h)
  | reiN =>
    exact returnFromInterrupt_evolves (outcome_eq_next.1 h)
  | andRi8 _ _ | andRi16 _ _ | andRr _ _ =>
    exact withOperands_evolves andEffect_only (outcome_eq_next.1 h)
  | orRi8 _ _ | orRi16 _ _ | orRr _ _ =>
    exact withOperands_evolves orEffect_only (outcome_eq_next.1 h)
  | xorRi8 _ _ | xorRi16 _ _ | xorRr _ _ =>
    exact withOperands_evolves xorEffect_only (outcome_eq_next.1 h)
  | lshRi8 _ _ | lshRi16 _ _ | lshRr _ _ =>
    exact withOperands_evolves lshEffect_only (outcome_eq_next.1 h)
  | rshRi8 _ _ | rshRi16 _ _ | rshRr _ _ =>
    exact withOperands_evolves rshEffect_only (outcome_eq_next.1 h)
  | mulRi8 _ _ | mulRi16 _ _ | mulRr _ _ =>
    exact withOperands_evolves mulEffect_only (outcome_eq_next.1 h)
  | modRi8 _ _ | modRi16 _ _ | modRr _ _ =>
    exact withOperands_evolves modEffect_only (outcome_eq_next.1 h)

/-- A tick that answers a next state, inverted: it was idle, a dispatch, or one fetched and decoded instruction. -/
theorem tick_next {N : Numbering} {s t : State} (h : tick N s = .next t) :
    s.fault = none ∧
      ((s.running = false ∧ t = s) ∨
        (s.running = true ∧ s.irq.pending = true ∧ interruptDispatch s = .ok t) ∨
        (s.running = true ∧ s.irq.pending = false ∧ ∃ s' i u, fetchDecode N s = .ok (s', i) ∧ exec i s' = .next u ∧
          t = u.clearLatches)) := by
  unfold tick at h
  cases hf : s.fault with
  | some k => rw [hf] at h; cases h
  | none =>
    rw [hf] at h
    refine ⟨rfl, ?_⟩
    cases hr : s.running with
    | false => simp only [hr] at h; cases h; exact .inl ⟨rfl, rfl⟩
    | true =>
      simp only [hr, if_true] at h
      cases hp : s.irq.pending with
      | true =>
        simp only [hp, if_true] at h
        exact .inr (.inl ⟨rfl, rfl, outcome_eq_next.1 h⟩)
      | false =>
        simp only [hp, Bool.false_eq_true, if_false] at h
        refine .inr (.inr ⟨rfl, rfl, ?_⟩)
        unfold runInstr at h
        cases hd : fetchDecode N s with
        | error k => rw [hd] at h; cases h
        | ok q =>
          obtain ⟨s', i⟩ := q
          rw [hd] at h
          simp only at h
          cases he : exec i s' with
          | next u => rw [he] at h; cases h; exact ⟨s', i, u, rfl, he, rfl⟩
          | fault k => rw [he] at h; cases h
          | refused r => rw [he] at h; cases h

end Sys2Proof.Machine
end

