-- ==== Sys2Proof/Tests/Slice0.lean ====
section
/-! SUPPORT. Tests. Expected results are the spec's: the vectors T1 to T113 of 95_test_vectors.md, the encodings of
opcode_table.json with A = 5, B = 8 and distinct operands, and for each statement of Obligations.lean a witness that
meets its hypotheses, at the boundary values of each clause. -/

namespace Sys2Proof.Tests

open Sys2Proof.Machine Sys2Proof.Claims

/-! ## Helpers -/

/-- The next state, if there is one. -/
def next (o : Host.Outcome State Fault Refusal) : Option State :=
  match o with
  | .next t => some t
  | .fault _ => none
  | .refused _ => none

/-- The fault, if there is one. -/
def fault (o : Host.Outcome State Fault Refusal) : Option Fault :=
  match o with
  | .next _ => none
  | .fault k => some k
  | .refused _ => none

/-- The reference map with a program at an address and PC there (R62, R382). -/
def prog (pc : Word) (code : List Byte) : State :=
  boot (pokeBytes referenceDevices pc.toNat code) [] pc

/-- The state with bytes stored from an address up. -/
def put (a : Nat) (bs : List Byte) (s : State) : State := s.setDevices (pokeBytes s.devices a bs)

/-- Bytes as the CPU reads them. -/
def bytes (s : State) (a n : Nat) : List (Option Byte) :=
  (List.range n).map (fun k => (memReadByte (a + k) s).toOption)

/-- RAM over the whole address space. -/
def wide : State := boot [⟨.ram, 0, 0xFFFFF, []⟩] [] 0x4402

/-- The reference map with a write-only device at 0x10000 to 0x1000F. -/
def mixed : State := (boot referenceDevices [] 0x4402).addDevice ⟨.custom false true, 0x10000, 0x1000F, []⟩

/-- No device at all. -/
def bare : State := boot [] [] 0x4402

/-- A request for number 254, its vector 0x4500, and SP so high that the frame just fits (R170, R345). -/
def requested : State := ((wide.installVector 254 0x4500).setReg .sp 0xFFEF).assertIrq 254

/-- The start state of T113: the eighth push of the entry lands in ROM. -/
def entry113 : State :=
  ((((put 0x0006 [0x45, 0x00] (prog 0x4402 [])).setReg .sp 0x43F2).setReg .r1 0x1111).setReg .r6 0x6666).assertIrq 3

/-! ## WellFormed: one ill-formed term for each check -/

theorem test_wf_accepts : Instr.WellFormed (.movRr 8 8) = true := by decide

theorem test_wf_refuses_A : Instr.WellFormed (.movRr 9 0) = false ∧ Instr.WellFormed (.pshR 15) = false := by decide

theorem test_wf_refuses_B : Instr.WellFormed (.movRr 0 9) = false ∧ Instr.WellFormed (.addRr 8 255) = false := by decide

/-! ## Decoding: a word of every row -/

theorem test_decode_mov :
    decode [0x40, 0x50, 0x08] = .ok (.movRr 5 8, []) := by
  decide

theorem test_decode_ld :
    decode [0x01, 0x50, 0xA7] = .ok (.ldRi8 5 0xA7, []) ∧
    decode [0x01, 0x54, 0xBE, 0xEF] = .ok (.ldRi16 5 0xBEEF, []) ∧
    decode [0x41, 0x50, 0x08] = .ok (.ldRr 5 8, []) ∧
    decode [0x81, 0x50, 0xA7] = .ok (.ldRd8 5 0xA7, []) ∧
    decode [0x81, 0x54, 0x12, 0x34] = .ok (.ldRd16 5 0x1234, []) ∧
    decode [0x81, 0x58, 0x09, 0x12, 0x34] = .ok (.ldRd20 5 9 0x1234, []) := by
  decide

theorem test_decode_ldb :
    decode [0x42, 0x50, 0x08] = .ok (.ldbRr 5 8, []) ∧
    decode [0x82, 0x50, 0xA7] = .ok (.ldbRd8 5 0xA7, []) ∧
    decode [0x82, 0x54, 0x12, 0x34] = .ok (.ldbRd16 5 0x1234, []) ∧
    decode [0x82, 0x58, 0x09, 0x12, 0x34] = .ok (.ldbRd20 5 9 0x1234, []) := by
  decide

theorem test_decode_psh :
    decode [0x03, 0x00, 0xA7] = .ok (.pshI8 0xA7, []) ∧
    decode [0x03, 0x04, 0xBE, 0xEF] = .ok (.pshI16 0xBEEF, []) ∧
    decode [0x43, 0x5C] = .ok (.pshR 5, []) ∧
    decode [0x83, 0x00, 0xA7] = .ok (.pshD8 0xA7, []) ∧
    decode [0x83, 0x04, 0x12, 0x34] = .ok (.pshD16 0x1234, []) ∧
    decode [0x83, 0x08, 0x09, 0x12, 0x34] = .ok (.pshD20 9 0x1234, []) := by
  decide

theorem test_decode_pop :
    decode [0x44, 0x5C] = .ok (.popR 5, []) := by
  decide

theorem test_decode_st :
    decode [0x45, 0x50, 0x08] = .ok (.stRr 5 8, []) ∧
    decode [0x85, 0x50, 0xA7] = .ok (.stRd8 5 0xA7, []) ∧
    decode [0x85, 0x54, 0x12, 0x34] = .ok (.stRd16 5 0x1234, []) ∧
    decode [0x85, 0x58, 0x09, 0x12, 0x34] = .ok (.stRd20 5 9 0x1234, []) := by
  decide

theorem test_decode_stl :
    decode [0x46, 0x50, 0x08] = .ok (.stlRr 5 8, []) ∧
    decode [0x86, 0x50, 0xA7] = .ok (.stlRd8 5 0xA7, []) ∧
    decode [0x86, 0x54, 0x12, 0x34] = .ok (.stlRd16 5 0x1234, []) ∧
    decode [0x86, 0x58, 0x09, 0x12, 0x34] = .ok (.stlRd20 5 9 0x1234, []) := by
  decide

theorem test_decode_sth :
    decode [0x47, 0x50, 0x08] = .ok (.sthRr 5 8, []) ∧
    decode [0x87, 0x50, 0xA7] = .ok (.sthRd8 5 0xA7, []) ∧
    decode [0x87, 0x54, 0x12, 0x34] = .ok (.sthRd16 5 0x1234, []) ∧
    decode [0x87, 0x58, 0x09, 0x12, 0x34] = .ok (.sthRd20 5 9 0x1234, []) := by
  decide

theorem test_decode_cmp :
    decode [0x08, 0x50, 0xA7] = .ok (.cmpRi8 5 0xA7, []) ∧
    decode [0x08, 0x54, 0xBE, 0xEF] = .ok (.cmpRi16 5 0xBEEF, []) ∧
    decode [0x48, 0x50, 0x08] = .ok (.cmpRr 5 8, []) := by
  decide

theorem test_decode_beq :
    decode [0x89, 0x00, 0xA7] = .ok (.beqD8 0xA7, []) ∧
    decode [0x89, 0x04, 0x12, 0x34] = .ok (.beqD16 0x1234, []) ∧
    decode [0x89, 0x08, 0x09, 0x12, 0x34] = .ok (.beqD20 9 0x1234, []) := by
  decide

theorem test_decode_bgt :
    decode [0x8A, 0x00, 0xA7] = .ok (.bgtD8 0xA7, []) ∧
    decode [0x8A, 0x04, 0x12, 0x34] = .ok (.bgtD16 0x1234, []) ∧
    decode [0x8A, 0x08, 0x09, 0x12, 0x34] = .ok (.bgtD20 9 0x1234, []) := by
  decide

theorem test_decode_blt :
    decode [0x8B, 0x00, 0xA7] = .ok (.bltD8 0xA7, []) ∧
    decode [0x8B, 0x04, 0x12, 0x34] = .ok (.bltD16 0x1234, []) ∧
    decode [0x8B, 0x08, 0x09, 0x12, 0x34] = .ok (.bltD20 9 0x1234, []) := by
  decide

theorem test_decode_bof :
    decode [0x8C, 0x00, 0xA7] = .ok (.bofD8 0xA7, []) ∧
    decode [0x8C, 0x04, 0x12, 0x34] = .ok (.bofD16 0x1234, []) ∧
    decode [0x8C, 0x08, 0x09, 0x12, 0x34] = .ok (.bofD20 9 0x1234, []) := by
  decide

theorem test_decode_bne :
    decode [0x8D, 0x00, 0xA7] = .ok (.bneD8 0xA7, []) ∧
    decode [0x8D, 0x04, 0x12, 0x34] = .ok (.bneD16 0x1234, []) ∧
    decode [0x8D, 0x08, 0x09, 0x12, 0x34] = .ok (.bneD20 9 0x1234, []) := by
  decide

theorem test_decode_jmp :
    decode [0x8E, 0x00, 0xA7] = .ok (.jmpD8 0xA7, []) ∧
    decode [0x8E, 0x04, 0x12, 0x34] = .ok (.jmpD16 0x1234, []) ∧
    decode [0x8E, 0x08, 0x09, 0x12, 0x34] = .ok (.jmpD20 9 0x1234, []) := by
  decide

theorem test_decode_jsr :
    decode [0x8F, 0x00, 0xA7] = .ok (.jsrD8 0xA7, []) ∧
    decode [0x8F, 0x04, 0x12, 0x34] = .ok (.jsrD16 0x1234, []) ∧
    decode [0x8F, 0x08, 0x09, 0x12, 0x34] = .ok (.jsrD20 9 0x1234, []) := by
  decide

theorem test_decode_add :
    decode [0x10, 0x50, 0xA7] = .ok (.addRi8 5 0xA7, []) ∧
    decode [0x10, 0x54, 0xBE, 0xEF] = .ok (.addRi16 5 0xBEEF, []) ∧
    decode [0x50, 0x50, 0x08] = .ok (.addRr 5 8, []) := by
  decide

theorem test_decode_sub :
    decode [0x11, 0x50, 0xA7] = .ok (.subRi8 5 0xA7, []) ∧
    decode [0x11, 0x54, 0xBE, 0xEF] = .ok (.subRi16 5 0xBEEF, []) ∧
    decode [0x51, 0x50, 0x08] = .ok (.subRr 5 8, []) := by
  decide

theorem test_decode_ret :
    decode [0xD2, 0x0C] = .ok (.retN, []) := by
  decide

theorem test_decode_hlt :
    decode [0xD3, 0x0C] = .ok (.hltN, []) := by
  decide

theorem test_decode_nop :
    decode [0xD4, 0x0C] = .ok (.nopN, []) := by
  decide

theorem test_decode_int :
    decode [0x15, 0x00, 0xA7] = .ok (.intI8 0xA7, []) ∧
    decode [0x15, 0x04, 0xBE, 0xEF] = .ok (.intI16 0xBEEF, []) := by
  decide

theorem test_decode_rei :
    decode [0xD6, 0x0C] = .ok (.reiN, []) := by
  decide

theorem test_decode_and :
    decode [0x17, 0x50, 0xA7] = .ok (.andRi8 5 0xA7, []) ∧
    decode [0x17, 0x54, 0xBE, 0xEF] = .ok (.andRi16 5 0xBEEF, []) ∧
    decode [0x57, 0x50, 0x08] = .ok (.andRr 5 8, []) := by
  decide

theorem test_decode_or :
    decode [0x18, 0x50, 0xA7] = .ok (.orRi8 5 0xA7, []) ∧
    decode [0x18, 0x54, 0xBE, 0xEF] = .ok (.orRi16 5 0xBEEF, []) ∧
    decode [0x58, 0x50, 0x08] = .ok (.orRr 5 8, []) := by
  decide

theorem test_decode_xor :
    decode [0x19, 0x50, 0xA7] = .ok (.xorRi8 5 0xA7, []) ∧
    decode [0x19, 0x54, 0xBE, 0xEF] = .ok (.xorRi16 5 0xBEEF, []) ∧
    decode [0x59, 0x50, 0x08] = .ok (.xorRr 5 8, []) := by
  decide

theorem test_decode_lsh :
    decode [0x1A, 0x50, 0xA7] = .ok (.lshRi8 5 0xA7, []) ∧
    decode [0x1A, 0x54, 0xBE, 0xEF] = .ok (.lshRi16 5 0xBEEF, []) ∧
    decode [0x5A, 0x50, 0x08] = .ok (.lshRr 5 8, []) := by
  decide

theorem test_decode_rsh :
    decode [0x1B, 0x50, 0xA7] = .ok (.rshRi8 5 0xA7, []) ∧
    decode [0x1B, 0x54, 0xBE, 0xEF] = .ok (.rshRi16 5 0xBEEF, []) ∧
    decode [0x5B, 0x50, 0x08] = .ok (.rshRr 5 8, []) := by
  decide

theorem test_decode_mul :
    decode [0x1C, 0x50, 0xA7] = .ok (.mulRi8 5 0xA7, []) ∧
    decode [0x1C, 0x54, 0xBE, 0xEF] = .ok (.mulRi16 5 0xBEEF, []) ∧
    decode [0x5C, 0x50, 0x08] = .ok (.mulRr 5 8, []) := by
  decide

theorem test_decode_mod :
    decode [0x1D, 0x50, 0xA7] = .ok (.modRi8 5 0xA7, []) ∧
    decode [0x1D, 0x54, 0xBE, 0xEF] = .ok (.modRi16 5 0xBEEF, []) ∧
    decode [0x5D, 0x50, 0x08] = .ok (.modRr 5 8, []) := by
  decide

theorem test_decode_bge :
    decode [0x9E, 0x00, 0xA7] = .ok (.bgeD8 0xA7, []) ∧
    decode [0x9E, 0x04, 0x12, 0x34] = .ok (.bgeD16 0x1234, []) ∧
    decode [0x9E, 0x08, 0x09, 0x12, 0x34] = .ok (.bgeD20 9 0x1234, []) := by
  decide

theorem test_decode_ble :
    decode [0x9F, 0x00, 0xA7] = .ok (.bleD8 0xA7, []) ∧
    decode [0x9F, 0x04, 0x12, 0x34] = .ok (.bleD16 0x1234, []) ∧
    decode [0x9F, 0x08, 0x09, 0x12, 0x34] = .ok (.bleD20 9 0x1234, []) := by
  decide

/-- T1 to T3: opcode bytes with no entry; T4 to T9: the form checks. -/
theorem test_decode_rejects :
    decode [0x00, 0x00, 0x00] = .error (.invalidOpcode 0x00) ∧
    decode [0x20, 0x0C] = .error (.invalidOpcode 0x20) ∧
    decode [0xFF, 0x0C] = .error (.invalidOpcode 0xFF) ∧
    decode [0x01, 0x0C] = .error (.badForm 0x010C) ∧
    decode [0x40, 0x11, 0x02] = .error (.badForm 0x4011) ∧
    decode [0xD3, 0x1C] = .error (.badForm 0xD31C) ∧
    decode [0x81, 0x08, 0x10, 0x00, 0x00] = .error (.badForm 0x8108) ∧
    decode [0x40, 0x08, 0x00, 0x00, 0x02] = .error (.badForm 0x4008) ∧
    decode [0x89, 0x14, 0x44, 0x10] = .error (.badForm 0x8914) ∧
    decode [0x40, 0x10] = .error .truncated := by
  decide

/-- The table's numbering: the opcode word in bits 15:0, operand words above. -/
theorem test_decodeTableWord :
    decodeTableWord 16 0x4050 = some (.movRr 5 0) ∧ decodeTableWord 16 0xD30C = some .hltN ∧
    decodeTableWord 24 0x084050 = some (.movRr 5 8) ∧ decodeTableWord 32 0xDEAD0104 = some (.ldRi16 0 0xDEAD) ∧
    decodeTableWord 40 0x2345018108 = some (.ldRd20 0 1 0x2345) ∧ decodeTableWord 16 0x000C = none := by
  decide

/-- The placed instruction is the one the next step runs, from reset. -/
theorem test_withFetchWord :
    (next (step (State.reset.withFetchWord 16 0x0104))).map (fun t => (t.regs.r1, t.regs.pc)) = some (0, 4) ∧
    (next (step (State.reset.withFetchWord 24 0x7F0100))).map (fun t => (t.regs.r1, t.regs.pc)) = some (0x7F, 3) := by
  decide

/-! ## Fetch, decode and advance -/

theorem test_T1_T5 :
    fault (step (prog 0x4402 [0x00, 0x00, 0x00])) = some (.invalidOpcode 0x00) ∧
    fault (step (prog 0x4402 [0x40, 0x11, 0x02])) = some (.badForm 0x4011) := by decide

theorem test_T10_T11 :
    fault (step (prog 0x4402 [0x40, 0x00, 0x09])) = some (.invalidRegister 9) ∧
    fault (step (prog 0x4402 [0x01, 0x90, 0x05])) = some (.invalidRegister 9) := by decide

theorem test_T12_T13 :
    (next (step ((prog 0x4402 [0xD4, 0x0C]).setFlags ⟨false, false, false, false, true⟩))).map
      (fun t => (t.regs.pc, t.flags.d, t.latches)) = some (0x4404, false, ⟨0, 0, 0, 0⟩) := by decide

theorem test_T14 :
    (next (step (put 0x100 [0x12, 0x34] (prog 0x4402 [0x81, 0x08, 0x00, 0x01, 0x00])))).map
      (fun t => (t.regs.r1, t.flags.d, t.regs.pc)) = some (0x1234, true, 0x4407) := by decide

theorem test_T15 : fault (step (prog 0xFFFE [0xD4, 0x0C])) = some (.pcOverflow 0xFFFE) := by decide

/-- R334: a fetch that reads past the last device faults before the decode. -/
theorem test_fetch_straddle : fault (step (prog 0xFFFF [0x00])) = some (.bus .straddle 0xFFFF) := by decide

/-! ## Data movement -/

theorem test_T20 :
    (next (step ((prog 0x4402 [0x40, 0x10, 0x02]).setReg .r3 0x1234))).map (fun t => (t.regs.r2, t.regs.pc)) =
      some (0x1234, 0x4405) := by decide

theorem test_T21 :
    (next (step ((prog 0x4402 [0x40, 0x60, 0x00]).setReg .r1 0x4500))).map (fun t => t.regs.pc) = some 0x4503 := by
  decide

theorem test_T22 :
    (next (step (prog 0x4402 [0x01, 0x00, 0x7F]))).map (fun t => (t.regs.r1, t.regs.pc)) = some (0x007F, 0x4405) := by
  decide

theorem test_T23 :
    (next (step (prog 0x4402 [0x01, 0x04, 0xDE, 0xAD]))).map (fun t => (t.regs.r1, t.regs.pc)) =
      some (0xDEAD, 0x4406) := by decide

theorem test_T25 :
    (next (step (put 0x300 [0x12, 0x34, 0x56] ((prog 0x4402 [0x41, 0x00, 0x01]).setReg .r2 0x0301)))).map
      (fun t => t.regs.r1) = some 0x3456 := by decide

theorem test_T26 : fault (step (prog 0x4402 [0x81, 0x04, 0x43, 0xFF])) = some (.bus .straddle 0x43FF) := by decide

theorem test_T27 :
    (next (step (put 0x43FF [0xAB] (prog 0x4402 [0x82, 0x04, 0x43, 0xFF])))).map (fun t => t.regs.r1) =
      some 0x00AB := by decide

theorem test_T28 : fault (step (prog 0x4402 [0x81, 0x08, 0x01, 0x00, 0x00])) = some (.bus .noDevices 0x10000) := by
  decide

theorem test_T29 :
    (next (step (((prog 0x4402 [0x45, 0x00, 0x01]).setReg .r1 0xBEEF).setReg .r2 0x0300))).map
      (fun t => (bytes t 0x2FF 4, t.regs.pc)) = some ([some 0, some 0xBE, some 0xEF, some 0], 0x4405) := by decide

theorem test_T30 :
    fault (step ((prog 0x4402 [0x85, 0x04, 0x44, 0x00]).setReg .r1 0xBEEF)) = some (.bus .readOnly 0x4400) := by decide

theorem test_T31 :
    (next (step ((prog 0x4402 [0x86, 0x00, 0x10]).setReg .r1 0xBEEF))).map (fun t => bytes t 0x0F 3) =
      some [some 0, some 0xEF, some 0] := by decide

theorem test_T32 :
    (next (step (((prog 0x4402 [0x47, 0x00, 0x01]).setReg .r1 0xBEEF).setReg .r2 0x0303))).map
      (fun t => bytes t 0x302 3) = some [some 0, some 0xBE, some 0] := by decide

theorem test_T33 :
    (next (step ((prog 0x4402 [0x03, 0x00, 0x07]).setReg .sp 0x0200))).map (fun t => (bytes t 0x200 2, t.regs.sp)) =
      some ([some 0x00, some 0x07], 0x0202) := by decide

theorem test_T34 :
    (next (step ((prog 0x4402 [0x43, 0x7C]).setReg .sp 0x0200))).map (fun t => (bytes t 0x200 2, t.regs.sp)) =
      some ([some 0x02, some 0x00], 0x0202) := by decide

theorem test_T35 :
    (next (step (put 0x1F4 [0xAB, 0xCD] ((prog 0x4402 [0x83, 0x04, 0x01, 0xF4]).setReg .sp 0x0200)))).map
      (fun t => (bytes t 0x200 2, t.regs.sp)) = some ([some 0xAB, some 0xCD], 0x0202) := by decide

theorem test_T36 :
    (next (step (put 0x200 [0xAB, 0xCD] ((prog 0x4402 [0x44, 0x1C]).setReg .sp 0x0202)))).map
      (fun t => (t.regs.r2, t.regs.sp)) = some (0xABCD, 0x0200) := by decide

theorem test_T37_T38 :
    (next (step (put 0x200 [0x12, 0x34] ((prog 0x4402 [0x44, 0x7C]).setReg .sp 0x0202)))).map
      (fun t => t.regs.sp) = some 0x1234 ∧
    (next (step (put 0x200 [0x45, 0x00] ((prog 0x4402 [0x44, 0x6C]).setReg .sp 0x0202)))).map
      (fun t => (t.regs.pc, t.regs.sp)) = some (0x4502, 0x0200) := by decide

theorem test_T39_T40_T41 :
    fault (step ((prog 0x4402 [0x44, 0x1C]).setReg .sp 0x0001)) = some (.stackUnderflow 0x0001) ∧
    fault (step ((prog 0x4402 [0x43, 0x0C]).setReg .sp 0xFFFE)) = some (.stackOverflow 0xFFFE) ∧
    fault (step ((prog 0x4402 [0x43, 0x0C]).setReg .sp 0x4400)) = some (.bus .readOnly 0x4400) := by decide

/-! ## Compare, arithmetic and logic -/

theorem test_T52 :
    (next (step ((prog 0x4402 [0x08, 0x00, 0x07]).setReg .r1 0xFFFF))).map (fun t => t.flags) =
      some ⟨false, false, false, true, false⟩ := by decide

theorem test_T53_T54 :
    (next (step ((prog 0x4402 [0x48, 0x00, 0x01]).setReg .r2 0xFFFF))).map (fun t => t.flags) =
      some ⟨false, false, true, false, false⟩ ∧
    (next (step (((prog 0x4402 [0x08, 0x00, 0x03]).setReg .r1 0x0003).setFlags ⟨false, true, false, false, false⟩))).map
      (fun t => t.flags) = some ⟨true, true, false, false, false⟩ := by decide

theorem test_T55 :
    (next (step ((prog 0x4402 [0x10, 0x00, 0x02]).setReg .r1 0xFFFE))).map (fun t => (t.regs.r1, t.flags.o)) =
      some (0x0000, true) := by decide

theorem test_T56 :
    (next (step (prog 0x4402 [0x11, 0x00, 0x01]))).map (fun t => (t.regs.r1, t.flags.o)) = some (0xFFFF, true) := by
  decide

theorem test_T57 :
    (next (step ((((prog 0x4402 [0x50, 0x00, 0x01]).setReg .r1 0x0001).setReg .r2 0x0002).setFlags
      ⟨false, true, false, false, false⟩))).map (fun t => (t.regs.r1, t.flags.o)) = some (0x0003, false) := by decide

theorem test_T58 :
    (next (step (((prog 0x4402 [0x11, 0x00, 0x05]).setReg .r1 0x0005).setFlags ⟨true, false, false, false, false⟩))).map
      (fun t => (t.regs.r1, t.flags.o, t.flags.z)) = some (0x0000, false, true) := by decide

theorem test_T59_T60 :
    (next (step ((prog 0x4402 [0x17, 0x04, 0x0F, 0x0F]).setReg .r1 0x1234))).map (fun t => t.regs.r1) =
      some 0x0204 ∧
    (next (step ((prog 0x4402 [0x17, 0x00, 0xFF]).setReg .r1 0x1234))).map (fun t => t.regs.r1) = some 0x0034 := by
  decide

theorem test_T61 :
    (next (step (((prog 0x4402 [0x58, 0x00, 0x01]).setReg .r1 0x1200).setReg .r2 0x0034))).map (fun t => t.regs.r1) =
      some 0x1234 := by decide

theorem test_T62 :
    (next (step ((prog 0x4402 [0x59, 0x00, 0x00]).setReg .r1 0x1234))).map (fun t => t.regs.r1) = some 0x0000 := by
  decide

theorem test_T64_T65 :
    (next (step ((prog 0x4402 [0x1A, 0x00, 0x0F]).setReg .r1 0x8001))).map (fun t => t.regs.r1) = some 0x8000 ∧
    fault (step ((prog 0x4402 [0x1A, 0x00, 0x10]).setReg .r1 0x1234)) = some (.shiftOverflow 0x0010) := by decide

theorem test_T66_T67 :
    (next (step ((prog 0x4402 [0x1B, 0x00, 0x04]).setReg .r1 0x8234))).map (fun t => t.regs.r1) = some 0x0823 ∧
    (next (step ((prog 0x4402 [0x5B, 0x00, 0x01]).setReg .r1 0x1234))).map (fun t => t.regs.r1) = some 0x1234 := by
  decide

theorem test_T68_T69 :
    (next (step (((prog 0x4402 [0x5C, 0x00, 0x01]).setReg .r1 0x0100).setReg .r2 0x0100))).map
      (fun t => (t.regs.r1, t.flags.o)) = some (0x0000, true) ∧
    (next (step ((prog 0x4402 [0x1C, 0x00, 0x03]).setReg .r1 0x0007))).map (fun t => (t.regs.r1, t.flags.o)) =
      some (0x0015, false) := by decide

theorem test_T70_T72 :
    (next (step ((prog 0x4402 [0x1D, 0x00, 0x05]).setReg .r1 0x0011))).map (fun t => t.regs.r1) = some 0x0002 ∧
    fault (step ((prog 0x4402 [0x1D, 0x00, 0x00]).setReg .r1 0x0011)) = some .divideByZero := by decide

/-! ## Control transfer: T80 to T89 as (opcode byte, flags, next PC) -/

theorem test_T80_to_T89 :
    (([(0x89, ⟨true, false, false, false, false⟩), (0x89, ⟨false, false, false, false, false⟩),
        (0x8A, ⟨false, false, false, true, false⟩), (0x8B, ⟨false, false, false, false, false⟩),
        (0x8C, ⟨false, true, false, false, false⟩), (0x8D, ⟨false, false, false, false, false⟩),
        (0x9E, ⟨true, false, false, false, false⟩), (0x9E, ⟨false, false, true, false, false⟩),
        (0x9F, ⟨false, false, false, true, false⟩), (0x9F, ⟨false, false, true, true, false⟩)] :
        List (Byte × Flags)).map (fun c =>
      (next (step ((prog 0x4402 [c.1, 0x04, 0x44, 0x10]).setFlags c.2))).map (fun t => t.regs.pc))) =
    [some 0x4410, some 0x4406, some 0x4410, some 0x4406, some 0x4410, some 0x4410, some 0x4410, some 0x4406,
      some 0x4406, some 0x4410] := by decide

theorem test_T91_T92 :
    (next (step (prog 0x4402 [0x8E, 0x08, 0x00, 0x45, 0x00]))).map (fun t => (t.regs.pc, t.flags.d)) =
      some (0x4500, true) ∧
    fault (step (prog 0x4402 [0x8E, 0x08, 0x01, 0x23, 0x45])) = some (.targetOutOfRange 0x12345) := by decide

theorem test_T93 :
    fault (step (prog 0x4402 [0x89, 0x08, 0x01, 0x23, 0x45])) = some (.targetOutOfRange 0x12345) := by decide

theorem test_T94_T95 :
    (next (step ((prog 0x4402 [0x8F, 0x04, 0x44, 0x80]).setReg .sp 0x1000))).map
      (fun t => (bytes t 0x1000 2, t.regs.sp, t.regs.pc)) = some ([some 0x44, some 0x06], 0x1002, 0x4480) ∧
    fault (step ((prog 0xFFFC [0x8F, 0x04, 0x44, 0x80]).setReg .sp 0x1000)) = some (.pcOverflow 0xFFFC) := by decide

theorem test_T96_T97 :
    (next (step (put 0x1000 [0x44, 0x0D] ((prog 0x4402 [0xD2, 0x0C]).setReg .sp 0x1002)))).map
      (fun t => (t.regs.pc, t.regs.sp)) = some (0x440D, 0x1000) ∧
    fault (step (prog 0x4402 [0xD2, 0x0C])) = some (.stackUnderflow 0x0000) := by decide

/-! ## System instructions and interrupt dispatch -/

theorem test_T100 :
    (next (step (prog 0x4402 [0xD3, 0x0C]))).map (fun t => (t.running, t.regs.pc)) = some (false, 0x4402) := by decide

theorem test_T102_T103_T104 :
    (next (step (prog 0x4402 [0x15, 0x00, 0x03]))).map (fun t => (t.irq, t.regs.pc)) = some (⟨true, 3⟩, 0x4405) ∧
    fault (step (prog 0x4402 [0x15, 0x00, 0xFF])) = some (.invalidInterrupt 0x00FF) ∧
    (next (step (prog 0x4402 [0x15, 0x00, 0xFE]))).map (fun t => t.irq) = some ⟨true, 254⟩ := by decide

theorem test_T105 :
    (next (step (put 0x1000 [0x00, 0x15, 0, 0, 0, 0, 0, 0, 0, 0, 0, 0, 0x00, 0x19, 0x44, 0x10]
      ((prog 0x4402 [0xD6, 0x0C]).setReg .sp 0x1010)))).map
      (fun t => (t.regs.pc, t.regs.r1, t.regs.sp, t.flags)) =
      some (0x4410, 0x0015, 0x1000, ⟨true, false, false, true, true⟩) := by decide

theorem test_T106 :
    fault (step ((prog 0x4402 [0xD6, 0x0C]).setReg .sp 0x000E)) = some (.stackUnderflow 0x0000) := by decide

theorem test_T110 :
    (next (step ({ (put 0x0006 [0x45, 0x00] (prog 0x4402 [0xD4, 0x0C])) with
      regs := ⟨1, 2, 3, 4, 5, 6, 0x4402, 0x1000, 0⟩, flags := ⟨true, false, false, true, false⟩,
      irq := ⟨true, 3⟩ }))).map (fun t => (bytes t 0x1000 16, t.regs.sp, t.regs.pc, t.irq)) =
    some ([0x00, 0x01, 0x00, 0x02, 0x00, 0x03, 0x00, 0x04, 0x00, 0x05, 0x00, 0x06, 0x00, 0x09, 0x44, 0x02].map some,
      0x1010, 0x4500, ⟨false, 0⟩) := by decide

theorem test_T111 :
    (next (step (((prog 0x4402 [0xD4, 0x0C]).setReg .sp 0x1000).assertIrq 4))).map
      (fun t => (t.regs.pc, t.regs.sp, t.irq)) = some (0x4402, 0x1000, ⟨false, 0⟩) := by decide

theorem test_T112 :
    fault (step (((put 0x0006 [0x45, 0x00] (prog 0x4402 [0xD4, 0x0C])).setReg .sp 0xFFF0).assertIrq 3)) =
      some (.bus .readOnly 0xFFF0) := by decide

/-- T113: the entry faults at the eighth push, and the record of the tick has the seven words written before it. -/
theorem test_T113 :
    fault (step entry113) = some (.bus .readOnly 0x4400) ∧
    bytes (recordTick Config.numbering entry113) 0x43F2 14 =
      [0x11, 0x11, 0, 0, 0, 0, 0, 0, 0, 0, 0x66, 0x66, 0, 0].map some := by decide

/-- R332: a push whose `advance()` overflows has written its word. -/
theorem test_push_then_overflow :
    fault (step ((prog 0xFFFE [0x43, 0x6C]).setReg .sp 0x0200)) = some (.pcOverflow 0xFFFE) ∧
    bytes (recordTick Config.numbering ((prog 0xFFFE [0x43, 0x6C]).setReg .sp 0x0200)) 0x0200 2 =
      [some 0xFF, some 0xFE] := by decide

/-- L1-6: the device in range serves the access, no other is touched, no range is `NoDevices`. -/
theorem test_L1_6 :
    ((memWriteWord 0x150 0x1234 (boot [⟨.ram, 0, 0xFF, []⟩, ⟨.ram, 0x100, 0x1FF, []⟩] [] 0)).toOption.map
      (fun t => t.devices)) = some [⟨.ram, 0, 0xFF, []⟩, ⟨.ram, 0x100, 0x1FF, [(0x150, 0x12), (0x151, 0x34)]⟩] ∧
    memReadWord 0x300 (boot [⟨.ram, 0, 0xFF, []⟩, ⟨.ram, 0x100, 0x1FF, []⟩] [] 0) =
      .error (.bus .noDevices 0x300) := by decide

/-! ## The host's side (R360 to R364, R395) -/

theorem test_runLoop_stops :
    (next (runLoop 5 (prog 0x4402 [0xD3, 0x0C]))).map (fun t => (t.running, t.regs.pc)) = some (false, 0x4402) ∧
    (next (runLoop 5 (prog 0x4402 [0xD4, 0x0C]).requestStop)).map (fun t => t.regs.pc) = some 0x4402 ∧
    runEnd (runLoop 5 (prog 0x4402 [0x44, 0x0C])) = some (.faulted (.stackUnderflow 0)) := by decide

theorem test_input_fifo :
    ((State.reset.enqueueInput 2 (.down 65)).bind (fun s => s.enqueueInput 2 (.up 65))).map
      (fun s => (s.input, (s.enqueueInput 2 (.down 66)).isNone,
        (s.consumeInput (fun _ _ _ => ⟨some 7, [(0x10, 0x41)]⟩)).irq,
        (s.consumeInput (fun _ _ _ => ⟨some 7, [(0x10, 0x41)]⟩)).input)) =
    some ([.down 65, .up 65], true, ⟨true, 7⟩, [.up 65]) := by decide

/-- D34: an effect that reads a device byte and stores it changed. -/
theorem test_input_read_modify_write :
    bytes ((put 0x10 [0x41] ((prog 0x4402 []).setInput [.down 65])).consumeInput (fun _ _ ds =>
      match busRead (fun d => d.readByte 0x10) ds with
      | .ok b => ⟨none, [(0x10, b + 1)]⟩
      | .error _ => ⟨none, []⟩)) 0x10 1 = [some 0x42] := by decide

/-! ## Witnesses: a state and operands that meet the hypotheses of each statement, clause by clause -/

theorem witness_DecodeEncodeEveryNumbering : Config.numbering.Injective := by
  constructor <;> intro a b <;> cases a <;> cases b <;> decide

theorem witness_AcceptedBytesAreTheEncoding :
    decodeWith Config.numbering [0x81, 0xF8, 0x0F, 0xFF, 0xFF, 0xD3] = .ok (.ldRd20 15 15 0xFFFF, [0xD3]) ∧
    decodeWith Config.numbering [0x44, 0x0C] = .ok (.popR 0, []) := by decide

/-- No entry; an entry whose word passes; and a word that fails each check alone: width, reserved bits, nibble, AD. -/
theorem witness_DecodeChecks :
    (lookup Config.numbering (hiByte 0x0000)).isNone = true ∧
    (lookup Config.numbering (hiByte 0x8908)).map (fun row => row.shape.form) = some .d ∧
    decodeLatches Config.numbering ⟨0x8908, 0xFFFF, 0xF, 5⟩ 0 = .ok (.beqD20 0xF 0xFFFF) ∧
    decodeLatches Config.numbering ⟨0x890C, 0, 0, 2⟩ 0 = .error (.badForm 0x890C) ∧
    decodeLatches Config.numbering ⟨0x8903, 0, 0, 3⟩ 0 = .error (.badForm 0x8903) ∧
    decodeLatches Config.numbering ⟨0x8910, 0, 0, 3⟩ 0 = .error (.badForm 0x8910) ∧
    decodeLatches Config.numbering ⟨0x8908, 0, 0, 5⟩ 1 = .error (.badForm 0x8908) ∧
    decodeLatches Config.numbering ⟨0x8900, 0, 0, 3⟩ 1 = .ok (.beqD8 0) := by decide

/-- One word for each width code, with its operand bytes readable. -/
theorem witness_FetchByWidthCode :
    (memReadWord 0x4402 (prog 0x4402 [0x01, 0x00, 0xFF]) = .ok 0x0100 ∧
      (0x0100#16).extractLsb' 2 2 = 0b00 ∧ memReadByte 0x4404 (prog 0x4402 [0x01, 0x00, 0xFF]) = .ok 0xFF) ∧
    (memReadWord 0x4402 (prog 0x4402 [0x01, 0x04, 0xFF, 0xFE]) = .ok 0x0104 ∧
      (0x0104#16).extractLsb' 2 2 = 0b01 ∧ memReadWord 0x4404 (prog 0x4402 [0x01, 0x04, 0xFF, 0xFE]) = .ok 0xFFFE) ∧
    (memReadWord 0x4402 (prog 0x4402 [0x81, 0x08, 0x0F, 0xFF, 0xFE]) = .ok 0x8108 ∧
      (0x8108#16).extractLsb' 2 2 = 0b10 ∧ memReadByte 0x4404 (prog 0x4402 [0x81, 0x08, 0x0F, 0xFF, 0xFE]) = .ok 0x0F ∧
      memReadWord 0x4405 (prog 0x4402 [0x81, 0x08, 0x0F, 0xFF, 0xFE]) = .ok 0xFFFE) ∧
    (memReadWord 0xFFFE (prog 0xFFFE [0xD4, 0x0C]) = .ok 0xD40C ∧ (0xD40C#16).extractLsb' 2 2 = 0b11) := by
  decide

/-- A fetched and decoded instruction that has a next state, and one that faults. -/
theorem witness_StepRunsDecodedInstruction :
    ((prog 0x4402 [0x40, 0x10, 0x02]).fault = none ∧ (prog 0x4402 [0x40, 0x10, 0x02]).running = true ∧
      (prog 0x4402 [0x40, 0x10, 0x02]).irq.pending = false) ∧
    fetch (prog 0x4402 [0x40, 0x10, 0x02]) =
      .ok ((prog 0x4402 [0x40, 0x10, 0x02]).latched ⟨0x4010, 0x0002, 0, 3⟩, 0) ∧
    decodeLatches Config.numbering ⟨0x4010, 0x0002, 0, 3⟩ 0 = .ok (.movRr 1 2) ∧
    (next (exec (.movRr 1 2) (prog 0x4402 [0x40, 0x10, 0x02]))).isSome = true ∧
    decodeLatches Config.numbering ⟨0x4010, 0x0009, 0, 3⟩ 0 = .ok (.movRr 1 9) ∧
    (fault (exec (.movRr 1 9) (prog 0x4402 [0x40, 0x10, 0x09]))).isSome = true := by decide

theorem witness_StepRunsBytesAtPc :
    decode [0x81, 0x08, 0x00, 0x01, 0x00] = .ok (.ldRd20 0 0 0x0100, []) ∧
    ((prog 0x4402 [0x81, 0x08, 0x00, 0x01, 0x00]).fault = none ∧
      (prog 0x4402 [0x81, 0x08, 0x00, 0x01, 0x00]).running = true ∧
      (prog 0x4402 [0x81, 0x08, 0x00, 0x01, 0x00]).irq.pending = false) ∧
    HeldAt (prog 0x4402 [0x81, 0x08, 0x00, 0x01, 0x00]) 0x4402 [0x81, 0x08, 0x00, 0x01, 0x00] :=
  ⟨by decide, by decide, ⟨.rom, 0x04400, 0x0FFFF, [(0x4402, 0x81), (0x4403, 0x08), (0x4405, 0x01)]⟩, rfl, by decide⟩

/-- Each of the six places a fetch or decode can fault. -/
theorem witness_FetchAndDecodeFaultsInOrder :
    memReadWord 0xFFFF (prog 0xFFFF []) = .error (.bus .straddle 0xFFFF) ∧
    (memReadWord 0xFFFE (prog 0xFFFE [0x01, 0x00]) = .ok 0x0100 ∧ widthOf 0x0100 = .byte ∧
      memReadByte 0x10000 (prog 0xFFFE [0x01, 0x00]) = .error (.bus .noDevices 0x10000)) ∧
    (memReadWord 0xFFFD (prog 0xFFFD [0x01, 0x04]) = .ok 0x0104 ∧ widthOf 0x0104 = .word ∧
      memReadWord 0xFFFF (prog 0xFFFD [0x01, 0x04]) = .error (.bus .straddle 0xFFFF)) ∧
    (memReadWord 0xFFFC (prog 0xFFFC [0x81, 0x08]) = .ok 0x8108 ∧ widthOf 0x8108 = .long ∧
      memReadByte 0xFFFE (prog 0xFFFC [0x81, 0x08]) = .ok 0 ∧
      memReadWord 0xFFFF (prog 0xFFFC [0x81, 0x08]) = .error (.bus .straddle 0xFFFF)) ∧
    (fetch (prog 0x4402 []) = .ok ((prog 0x4402 []).latched ⟨0x0000, 0, 0, 3⟩, 0) ∧
      decodeLatches Config.numbering ⟨0x0000, 0, 0, 3⟩ 0 = .error (.invalidOpcode 0x00)) ∧
    (fetch (prog 0x4402 [0xD3, 0x1C]) = .ok ((prog 0x4402 [0xD3, 0x1C]).latched ⟨0xD31C, 0, 0, 2⟩, 0) ∧
      decodeLatches Config.numbering ⟨0xD31C, 0, 0, 2⟩ 0 = .error (.badForm 0xD31C)) ∧
    (prog 0xFFFF []).fault = none ∧ (prog 0xFFFF []).running = true ∧ (prog 0xFFFF []).irq.pending = false := by
  decide

theorem witness_HaltedForGood :
    ((prog 0x4402 [0xD4, 0x0C]).setRunning false).running = false ∧
    ((prog 0x4402 [0xD4, 0x0C]).setRunning false).fault = none := by decide

/-- The last number, the last PC that can advance and the last SP that takes the frame. -/
theorem witness_IntIsDispatchedNextTick :
    ((requested.setReg .pc 0xFFFC).fault = none ∧ (requested.setReg .pc 0xFFFC).running = true ∧
      (254#8).toNat ≤ 254 ∧ (requested.setReg .pc 0xFFFC).regs.pc.toNat + 3 ≤ 0xFFFF ∧
      readFault (requested.setReg .pc 0xFFFC) (2 * (254#8).toNat) true = none ∧
      storedWord (requested.setReg .pc 0xFFFC) (2 * (254#8).toNat) ≠ 0 ∧
      spOf (requested.setReg .pc 0xFFFC) + 16 ≤ 0xFFFF) ∧
    WritableRun (requested.setReg .pc 0xFFFC) (spOf (requested.setReg .pc 0xFFFC)) 16 :=
  ⟨by decide, ⟨.ram, 0, 0xFFFFF, [(508, 0x45)]⟩, rfl, by decide⟩

theorem witness_StepKeepsInvariant :
    Inv (prog 0x4402 [0xD4, 0x0C]) ∧ (next (step (prog 0x4402 [0xD4, 0x0C]))).isSome = true :=
  ⟨⟨by unfold DeviceWf; decide, rfl⟩, by decide⟩

theorem witness_StepKeepsDeviceMapAndRom :
    (next (step ((prog 0x4402 [0x43, 0x0C]).setReg .sp 0x43FE))).map (fun t => t.devices.length) = some 2 ∧
    (prog 0x4402 [0x43, 0x0C]).devices.map (fun d => d.kind.writable) = [true, false] := by decide

/-- Every answer of a byte read and of a word read, at the ends of the devices. -/
theorem witness_BusReadAnswers :
    [0x00000, 0x043FF, 0x0FFFF, 0x10000, 0x1000F, 0x10010].map (fun a => readFault mixed a false) =
      [none, none, none, some .writeOnly, some .writeOnly, some .noDevices] ∧
    [0x00000, 0x043FE, 0x043FF, 0x0FFFE, 0x0FFFF, 0x1000E, 0x1000F, 0x10010].map (fun a => readFault mixed a true) =
      [none, none, some .straddle, none, some .straddle, some .writeOnly, some .writeOnly, some .noDevices] := by
  decide

theorem witness_BusWriteAnswers :
    [0x00000, 0x043FF, 0x04400, 0x0FFFF, 0x1000F, 0x10010].map (fun a => writeFault mixed a false) =
      [none, none, some .readOnly, some .readOnly, none, some .noDevices] ∧
    [0x043FE, 0x043FF, 0x0FFFE, 0x0FFFF, 0x1000E, 0x1000F, 0x10010].map (fun a => writeFault mixed a true) =
      [none, some .straddle, some .readOnly, some .readOnly, none, some .straddle, some .noDevices] := by decide

theorem witness_MixedWidthAccess :
    (arbitrate mixed.devices 0x43FE = arbitrate mixed.devices 0x43FF ∧
      (arbitrate mixed.devices 0x43FE).map (fun d => d.kind.readable) = some true) ∧
    (memWriteWord 0x43FE 0xFFFF mixed).toOption.isSome = true ∧
    (memWriteByte 0x43FE 0xFF mixed).toOption.isSome = true ∧
    (memWriteByte 0x43FF 0x01 mixed).toOption.isSome = true := by decide

theorem witness_FlagsWordLayout :
    (0xFFE9#16).extractLsb' 0 5 = (0x0009#16).extractLsb' 0 5 ∧ flagsWord ⟨true, false, false, true, true⟩ = 0x0019 := by
  decide

/-- A CMP, and another instruction from flags of which at most one comparison flag is set. -/
theorem witness_ComparisonFlagsExclusive :
    (next (exec (.cmpRi8 0 0) wide)).isSome = true ∧ (next (exec .nopN wide)).isSome = true ∧
    AtMostOneComparison wide.flags :=
  ⟨by decide, by decide, by unfold AtMostOneComparison; decide⟩

/-- Index 9 in A, index 8 in A with 9 in B, index 8 in both; the last PC that advances and the first that does not. -/
theorem witness_MovResult :
    fault (exec (.movRr 9 9) wide) = some (.invalidRegister 9) ∧
    fault (exec (.movRr 8 9) wide) = some (.invalidRegister 9) ∧
    (next (exec (.movRr 8 8) (wide.setReg .pc 0xFFFC))).map (fun t => t.regs.pc) = some 0xFFFF ∧
    fault (exec (.movRr 8 8) (wide.setReg .pc 0xFFFD)) = some (.pcOverflow 0xFFFD) := by decide

theorem witness_LdImmediateResult :
    fault (exec (.ldRi8 9 0) wide) = some (.invalidRegister 9) ∧
    fault (exec (.ldRi16 9 0) wide) = some (.invalidRegister 9) ∧
    (next (exec (.ldRi8 8 0xFF) (wide.setReg .pc 0xFFFC))).map (fun t => (t.regs.bp, t.regs.pc)) =
      some (0x00FF, 0xFFFF) ∧
    (next (exec (.ldRi16 8 0xFFFF) (wide.setReg .pc 0xFFFB))).map (fun t => (t.regs.bp, t.regs.pc)) =
      some (0xFFFF, 0xFFFF) ∧
    fault (exec (.ldRi8 8 0) (wide.setReg .pc 0xFFFD)) = some (.pcOverflow 0xFFFD) ∧
    fault (exec (.ldRi16 8 0) (wide.setReg .pc 0xFFFC)) = some (.pcOverflow 0xFFFC) := by decide

/-- A served load of each form, a load that straddles, and both register checks. -/
theorem witness_LdMemoryResult :
    fault (exec (.ldRr 9 9) mixed) = some (.invalidRegister 9) ∧
    fault (exec (.ldRr 8 9) mixed) = some (.invalidRegister 9) ∧
    readFault mixed 0x43FE true = none ∧ readFault mixed 0x43FF true = some .straddle ∧
    (next (exec (.ldRr 8 0) (mixed.setReg .r1 0x43FE))).isSome = true ∧
    (next (exec (.ldRd8 8 0xFF) (mixed.setReg .pc 0xFFFC))).map (fun t => t.regs.pc) = some 0xFFFF ∧
    (next (exec (.ldRd16 8 0x43FE) mixed)).isSome = true ∧
    (next (exec (.ldRd20 8 0xF 0xFFFE) wide)).isSome = true ∧
    fault (exec (.ldRd16 8 0x43FF) mixed) = some (.bus .straddle 0x43FF) ∧
    fault (exec (.ldRd8 8 0xFF) (mixed.setReg .pc 0xFFFD)) = some (.pcOverflow 0xFFFD) := by decide

theorem witness_LdbResult :
    fault (exec (.ldbRr 9 9) mixed) = some (.invalidRegister 9) ∧
    fault (exec (.ldbRr 8 9) mixed) = some (.invalidRegister 9) ∧
    readFault mixed 0x43FF false = none ∧ readFault mixed 0x10010 false = some .noDevices ∧
    (next (exec (.ldbRr 8 0) (mixed.setReg .r1 0x43FF))).isSome = true ∧
    (next (exec (.ldbRd8 8 0xFF) (mixed.setReg .pc 0xFFFC))).map (fun t => t.regs.pc) = some 0xFFFF ∧
    (next (exec (.ldbRd16 8 0xFFFF) mixed)).isSome = true ∧
    (next (exec (.ldbRd20 8 0xF 0xFFFF) wide)).isSome = true ∧
    fault (exec (.ldbRd20 8 1 0x0010) mixed) = some (.bus .noDevices 0x10010) := by decide

/-- A served store of each form, one refused for each reason, and both register checks. -/
theorem witness_StResult :
    fault (exec (.stRr 9 9) mixed) = some (.invalidRegister 9) ∧
    fault (exec (.stRr 8 9) mixed) = some (.invalidRegister 9) ∧
    writeFault mixed 0x43FE true = none ∧ writeFault mixed 0x43FF true = some .straddle ∧
    (next (exec (.stRr 8 0) (mixed.setReg .r1 0x43FE))).isSome = true ∧
    (next (exec (.stRd8 8 0xFF) (mixed.setReg .pc 0xFFFC))).map (fun t => t.regs.pc) = some 0xFFFF ∧
    (next (exec (.stRd16 8 0x43FE) mixed)).isSome = true ∧
    (next (exec (.stRd20 8 1 0x000E) mixed)).isSome = true ∧
    fault (exec (.stRd16 8 0x4400) mixed) = some (.bus .readOnly 0x4400) ∧
    fault (exec (.stRd8 8 0xFF) (mixed.setReg .pc 0xFFFD)) = some (.pcOverflow 0xFFFD) := by decide

theorem witness_StlSthResult :
    fault (exec (.stlRr 9 9) mixed) = some (.invalidRegister 9) ∧
    fault (exec (.sthRr 8 9) mixed) = some (.invalidRegister 9) ∧
    writeFault mixed 0x43FF false = none ∧ writeFault mixed 0x4400 false = some .readOnly ∧
    (next (exec (.stlRr 8 0) (mixed.setReg .r1 0x43FF))).isSome = true ∧
    (next (exec (.stlRd8 8 0xFF) mixed)).isSome = true ∧ (next (exec (.stlRd16 8 0x43FF) mixed)).isSome = true ∧
    (next (exec (.stlRd20 8 1 0x000F) mixed)).isSome = true ∧
    (next (exec (.sthRr 8 0) (mixed.setReg .r1 0x43FF))).isSome = true ∧
    (next (exec (.sthRd8 8 0xFF) (mixed.setReg .pc 0xFFFC))).isSome = true ∧
    (next (exec (.sthRd16 8 0x43FF) mixed)).isSome = true ∧ (next (exec (.sthRd20 8 1 0x000F) mixed)).isSome = true ∧
    fault (exec (.sthRd16 8 0x4400) mixed) = some (.bus .readOnly 0x4400) := by decide

/-- The last SP that takes a push and the first that does not, a push the bus refuses, the register check. -/
theorem witness_PshResult :
    pushFault (wide.setReg .sp 0xFFFD) = none ∧
    pushFault (wide.setReg .sp 0xFFFE) = some (.stackOverflow 0xFFFE) ∧
    pushFault (mixed.setReg .sp 0x4400) = some (.bus .readOnly 0x4400) ∧
    (next (exec (.pshI8 0xFF) (wide.setReg .sp 0xFFFD))).map (fun t => t.regs.sp) = some 0xFFFF ∧
    (next (exec (.pshI16 0xFFFF) wide)).isSome = true ∧ (next (exec (.pshR 8) wide)).isSome = true ∧
    fault (exec (.pshR 9) wide) = some (.invalidRegister 9) ∧
    fault (exec (.pshR 8) (wide.setReg .pc 0xFFFE)) = some (.pcOverflow 0xFFFE) := by decide

theorem witness_PshMemoryResult :
    readFault mixed 0x43FF true = some .straddle ∧ readFault wide 0xFFFFE true = none ∧
    pushFault (wide.setReg .sp 0xFFFE) = some (.stackOverflow 0xFFFE) ∧
    fault (exec (.pshD16 0x43FF) (mixed.setReg .sp 0xFFFE)) = some (.bus .straddle 0x43FF) ∧
    fault (exec (.pshD8 0xFF) (wide.setReg .sp 0xFFFE)) = some (.stackOverflow 0xFFFE) ∧
    (next (exec (.pshD8 0xFF) (wide.setReg .sp 0xFFFD))).isSome = true ∧
    (next (exec (.pshD16 0xFFFF) wide)).isSome = true ∧
    (next (exec (.pshD20 0xF 0xFFFE) wide)).isSome = true := by decide

theorem witness_PopResult :
    popFault (wide.setReg .sp 1) = some (.stackUnderflow 1) ∧ popFault (wide.setReg .sp 2) = none ∧
    popFault (bare.setReg .sp 2) = some (.bus .noDevices 0) ∧
    fault (exec (.popR 9) wide) = some (.invalidRegister 9) ∧
    (next (exec (.popR 8) (wide.setReg .sp 2))).map (fun t => t.regs.sp) = some 0 ∧
    fault (exec (.popR 8) ((wide.setReg .sp 2).setReg .pc 0xFFFE)) = some (.pcOverflow 0xFFFE) := by decide

/-- Equal, less and greater; both register checks; the ends of `advance()`. -/
theorem witness_CmpResult :
    fault (exec (.cmpRr 9 9) wide) = some (.invalidRegister 9) ∧
    fault (exec (.cmpRr 8 9) wide) = some (.invalidRegister 9) ∧
    (next (exec (.cmpRr 8 8) (wide.setReg .pc 0xFFFC))).map (fun t => t.flags.z) = some true ∧
    (next (exec (.cmpRi8 0 1) wide)).map (fun t => t.flags.l) = some true ∧
    (next (exec (.cmpRi16 0 0xFFFE) (wide.setReg .r1 0xFFFF))).map (fun t => t.flags.g) = some true ∧
    fault (exec (.cmpRi16 0 0) (wide.setReg .pc 0xFFFC)) = some (.pcOverflow 0xFFFC) := by decide

theorem witness_AddResult :
    fault (exec (.addRr 9 9) wide) = some (.invalidRegister 9) ∧
    fault (exec (.addRr 8 9) wide) = some (.invalidRegister 9) ∧
    (next (exec (.addRr 8 8) (wide.setReg .bp 0x8000))).map (fun t => (t.regs.bp, t.flags.o)) = some (0, true) ∧
    (next (exec (.addRi8 0 1) (wide.setReg .r1 0xFFFE))).map (fun t => (t.regs.r1, t.flags.o)) =
      some (0xFFFF, false) ∧
    (next (exec (.addRi16 0 0xFFFF) (wide.setReg .pc 0xFFFB))).map (fun t => t.regs.pc) = some 0xFFFF ∧
    fault (exec (.addRi8 0 0) (wide.setReg .pc 0xFFFD)) = some (.pcOverflow 0xFFFD) := by decide

theorem witness_SubResult :
    fault (exec (.subRr 9 9) wide) = some (.invalidRegister 9) ∧
    fault (exec (.subRr 8 9) wide) = some (.invalidRegister 9) ∧
    (next (exec (.subRr 8 8) (wide.setReg .bp 0x8000))).map (fun t => (t.regs.bp, t.flags.o)) = some (0, false) ∧
    (next (exec (.subRi16 0 0xFFFF) wide)).map (fun t => (t.regs.r1, t.flags.o)) = some (1, true) ∧
    (next (exec (.subRi8 0 0xFF) (wide.setReg .pc 0xFFFC))).map (fun t => t.regs.pc) = some 0xFFFF ∧
    fault (exec (.subRi8 0 0) (wide.setReg .pc 0xFFFD)) = some (.pcOverflow 0xFFFD) := by decide

theorem witness_LogicResults :
    fault (exec (.andRr 9 9) wide) = some (.invalidRegister 9) ∧
    fault (exec (.orRr 8 9) wide) = some (.invalidRegister 9) ∧
    (next (exec (.andRi8 8 0xFF) (wide.setReg .bp 0xFFFF))).map (fun t => t.regs.bp) = some 0x00FF ∧
    (next (exec (.andRi16 0 0) wide)).isSome = true ∧ (next (exec (.andRr 8 8) wide)).isSome = true ∧
    (next (exec (.orRi8 0 0xFF) wide)).isSome = true ∧ (next (exec (.orRi16 0 0xFFFF) wide)).isSome = true ∧
    (next (exec (.orRr 8 8) wide)).isSome = true ∧ (next (exec (.xorRi8 0 0xFF) wide)).isSome = true ∧
    (next (exec (.xorRi16 0 0xFFFF) wide)).isSome = true ∧ (next (exec (.xorRr 8 8) wide)).isSome = true ∧
    fault (exec (.xorRi16 0 0) (wide.setReg .pc 0xFFFC)) = some (.pcOverflow 0xFFFC) := by decide

/-- Amounts 15 and 16 in each form. -/
theorem witness_ShiftResults :
    fault (exec (.lshRr 9 9) wide) = some (.invalidRegister 9) ∧
    fault (exec (.rshRr 8 9) wide) = some (.invalidRegister 9) ∧
    (next (exec (.lshRi8 8 15) (wide.setReg .bp 1))).map (fun t => t.regs.bp) = some 0x8000 ∧
    fault (exec (.lshRi8 8 16) wide) = some (.shiftOverflow 16) ∧
    (next (exec (.lshRi16 0 15) wide)).isSome = true ∧ (next (exec (.lshRr 0 8) (wide.setReg .bp 15))).isSome = true ∧
    (next (exec (.rshRi8 8 15) (wide.setReg .bp 0x8000))).map (fun t => t.regs.bp) = some 1 ∧
    (next (exec (.rshRi16 0 15) wide)).isSome = true ∧ (next (exec (.rshRr 0 8) (wide.setReg .bp 15))).isSome = true ∧
    fault (exec (.rshRr 0 8) (wide.setReg .bp 16)) = some (.shiftOverflow 16) ∧
    fault (exec (.lshRi8 0 0) (wide.setReg .pc 0xFFFD)) = some (.pcOverflow 0xFFFD) := by decide

theorem witness_MulResult :
    fault (exec (.mulRr 9 9) wide) = some (.invalidRegister 9) ∧
    fault (exec (.mulRr 8 9) wide) = some (.invalidRegister 9) ∧
    (next (exec (.mulRr 8 8) (wide.setReg .bp 0xFFFF))).map (fun t => (t.regs.bp, t.flags.o)) = some (1, true) ∧
    (next (exec (.mulRi8 0 0xFF) (wide.setReg .r1 0x0101))).map (fun t => (t.regs.r1, t.flags.o)) =
      some (0xFFFF, false) ∧
    (next (exec (.mulRi16 0 0xFFFF) wide)).isSome = true ∧
    fault (exec (.mulRi8 0 0) (wide.setReg .pc 0xFFFD)) = some (.pcOverflow 0xFFFD) := by decide

theorem witness_ModResult :
    fault (exec (.modRr 9 9) wide) = some (.invalidRegister 9) ∧
    fault (exec (.modRr 8 9) wide) = some (.invalidRegister 9) ∧
    (next (exec (.modRi8 8 1) (wide.setReg .bp 0xFFFF))).map (fun t => t.regs.bp) = some 0 ∧
    (next (exec (.modRi16 8 0xFFFF) (wide.setReg .bp 0xFFFE))).map (fun t => t.regs.bp) = some 0xFFFE ∧
    (next (exec (.modRr 8 8) (wide.setReg .bp 0xFFFF))).map (fun t => t.regs.bp) = some 0 ∧
    fault (exec (.modRi16 8 0) wide) = some .divideByZero ∧
    fault (exec (.modRi8 0 1) (wide.setReg .pc 0xFFFD)) = some (.pcOverflow 0xFFFD) := by decide

/-- Each branch taken and not taken, the long target at its last legal and first illegal nibble. -/
theorem witness_BranchResults :
    ((next (exec (.beqD8 0xFF) (wide.setFlags ⟨true, false, false, false, false⟩))).isSome = true ∧
      (next (exec (.beqD16 0) (wide.setReg .pc 0xFFFB))).map (fun t => t.regs.pc) = some 0xFFFF ∧
      fault (exec (.beqD16 0) (wide.setReg .pc 0xFFFC)) = some (.pcOverflow 0xFFFC) ∧
      (next (exec (.beqD20 0 0xFFFF) wide)).isSome = true ∧
      fault (exec (.beqD20 1 0x0000) wide) = some (.targetOutOfRange 0x10000)) ∧
    ([(.bgtD16 0xFFFF, ⟨false, false, false, true, false⟩), (.bgtD8 0, ⟨false, false, false, false, false⟩),
        (.bltD16 0xFFFF, ⟨false, false, true, false, false⟩), (.bltD8 0, ⟨false, false, false, false, false⟩),
        (.bofD16 0xFFFF, ⟨false, true, false, false, false⟩), (.bofD8 0, ⟨false, false, false, false, false⟩),
        (.bneD16 0xFFFF, ⟨false, false, false, false, false⟩), (.bneD8 0, ⟨true, false, false, false, false⟩),
        (.bgeD16 0xFFFF, ⟨true, false, false, false, false⟩), (.bgeD8 0, ⟨false, false, true, false, false⟩),
        (.bleD16 0xFFFF, ⟨false, false, true, false, false⟩), (.bleD8 0, ⟨false, false, false, true, false⟩)] :
        List (Instr × Flags)).map (fun c => (next (exec c.1 (wide.setFlags c.2))).map (fun t => t.regs.pc)) =
      [some 0xFFFF, some 0x4405, some 0xFFFF, some 0x4405, some 0xFFFF, some 0x4405, some 0xFFFF, some 0x4405,
        some 0xFFFF, some 0x4405, some 0xFFFF, some 0x4405] := by decide

theorem witness_JmpResult :
    (next (exec (.jmpD8 0xFF) wide)).map (fun t => t.regs.pc) = some 0x00FF ∧
    (next (exec (.jmpD16 0xFFFF) wide)).map (fun t => t.regs.pc) = some 0xFFFF ∧
    (next (exec (.jmpD20 0 0xFFFF) wide)).map (fun t => t.regs.pc) = some 0xFFFF ∧
    fault (exec (.jmpD20 0xF 0xFFFF) wide) = some (.targetOutOfRange 0xFFFFF) := by decide

theorem witness_JsrResult :
    (next (exec (.jsrD8 0) (wide.setReg .pc 0xFFFC))).isSome = true ∧
    (next (exec (.jsrD16 0) ((wide.setReg .pc 0xFFFB).setReg .sp 0xFFFD))).map (fun t => t.regs.sp) = some 0xFFFF ∧
    (next (exec (.jsrD20 0 0) wide)).isSome = true ∧
    fault (exec (.jsrD8 0) ((wide.setReg .pc 0xFFFD).setReg .sp 0xFFFE)) = some (.pcOverflow 0xFFFD) ∧
    fault (exec (.jsrD8 0) (wide.setReg .sp 0xFFFE)) = some (.stackOverflow 0xFFFE) ∧
    fault (exec (.jsrD20 1 0) wide) = some (.targetOutOfRange 0x10000) := by decide

theorem witness_RetResult :
    popFault (wide.setReg .sp 1) = some (.stackUnderflow 1) ∧ popFault (bare.setReg .sp 2) = some (.bus .noDevices 0) ∧
    popFault (wide.setReg .sp 2) = none ∧ (next (exec .retN (wide.setReg .sp 2))).isSome = true := by decide

theorem witness_HltNopResults :
    (next (exec .nopN (wide.setReg .pc 0xFFFD))).map (fun t => t.regs.pc) = some 0xFFFF ∧
    fault (exec .nopN (wide.setReg .pc 0xFFFE)) = some (.pcOverflow 0xFFFE) := by decide

/-- Numbers 254 and 255 in both widths. -/
theorem witness_IntResult :
    fault (exec (.intI8 255) wide) = some (.invalidInterrupt 255) ∧
    fault (exec (.intI16 255) wide) = some (.invalidInterrupt 255) ∧
    (next (exec (.intI8 254) wide)).map (fun t => t.irq.number) = some 254 ∧
    (next (exec (.intI16 254) (wide.setReg .pc 0xFFFB))).map (fun t => t.regs.pc) = some 0xFFFF ∧
    fault (exec (.intI8 254) (wide.setReg .pc 0xFFFD)) = some (.pcOverflow 0xFFFD) := by decide

/-- SP at 16, with every read of the frame served, and at 15. -/
theorem witness_ReiResult :
    (16 ≤ spOf (wide.setReg .sp 16) ∧ ∀ k < 8, readFault (wide.setReg .sp 16) (spOf (wide.setReg .sp 16) - 16 + 2 * k) true = none) ∧
    (spOf (wide.setReg .sp 15) < 16 ∧
      ∀ k < 8, 1 ≤ k → 2 * k ≤ 15 → readFault (wide.setReg .sp 15) (spOf (wide.setReg .sp 15) - 2 * k) true = none) ∧
    fault (exec .reiN (wide.setReg .sp 15)) = some (.stackUnderflow 1) ∧
    (next (exec .reiN (wide.setReg .sp 16))).map (fun t => t.regs.sp) = some 0 := by decide

theorem witness_InvalidRegisterFirst :
    Instr.regA (.stRr 9 9) = some 9 ∧ Instr.regB (.stRr 8 9) = some 9 ∧
    fault (exec (.stRr 15 9) bare) = some (.invalidRegister 15) ∧
    fault (exec (.stRr 8 255) bare) = some (.invalidRegister 255) ∧ Instr.WellFormed (.stRr 8 8) = true := by decide

/-- One instruction for each fault an executor can raise. -/
theorem witness_OnlyListedFaults :
    fault (exec (.ldRd8 0 0) bare) = some (.bus .noDevices 0) ∧
    fault (exec (.popR 9) bare) = some (.invalidRegister 9) ∧ fault (exec .retN bare) = some (.stackUnderflow 0) ∧
    fault (exec (.modRi8 0 0) bare) = some .divideByZero ∧
    fault (exec (.pshR 0) (bare.setReg .sp 0xFFFE)) = some (.stackOverflow 0xFFFE) ∧
    fault (exec .nopN (bare.setReg .pc 0xFFFE)) = some (.pcOverflow 0xFFFE) ∧
    fault (exec (.jmpD20 1 0) bare) = some (.targetOutOfRange 0x10000) ∧
    fault (exec (.lshRi8 0 16) bare) = some (.shiftOverflow 16) ∧
    fault (exec (.intI8 255) bare) = some (.invalidInterrupt 255) := by decide

theorem witness_DispatchEntry :
    (requested.fault = none ∧ requested.running = true ∧ requested.irq.pending = true ∧
      readFault requested (2 * requested.irq.number.val) true = none ∧
      storedWord requested (2 * requested.irq.number.val) ≠ 0 ∧ spOf requested + 16 ≤ 0xFFFF) ∧
    WritableRun requested (spOf requested) 16 :=
  ⟨by decide, ⟨.ram, 0, 0xFFFFF, [(508, 0x45)]⟩, rfl, by decide⟩

/-- A vector that cannot be read, and one that is 0. -/
theorem witness_DispatchZeroOrUnreadableVector :
    (readFault (bare.assertIrq 254) 508 true = some .noDevices ∧ (bare.assertIrq 254).irq.pending = true ∧
      (bare.assertIrq 254).running = true ∧ (bare.assertIrq 254).fault = none) ∧
    (readFault (wide.assertIrq 0) 0 true = none ∧ storedWord (wide.assertIrq 0) 0 = 0 ∧
      (wide.assertIrq 0).irq.pending = true ∧ (wide.assertIrq 0).running = true ∧
      (wide.assertIrq 0).fault = none) := by decide

/-- No push served (an overflowing SP), and seven served with the eighth in ROM, as in T113. -/
theorem witness_FaultedEntryKeepsEarlierPushes :
    ((requested.setReg .sp 0xFFFE).fault = none ∧ (requested.setReg .sp 0xFFFE).running = true ∧
      (requested.setReg .sp 0xFFFE).irq.pending = true ∧ readFault (requested.setReg .sp 0xFFFE) 508 true = none ∧
      storedWord (requested.setReg .sp 0xFFFE) 508 ≠ 0 ∧ 0xFFFD < spOf (requested.setReg .sp 0xFFFE) + 2 * 0) ∧
    WritableRun (requested.setReg .sp 0xFFFE) (spOf (requested.setReg .sp 0xFFFE)) (2 * 0) ∧
    (entry113.fault = none ∧ entry113.running = true ∧ entry113.irq.pending = true ∧
      readFault entry113 (2 * entry113.irq.number.val) true = none ∧
      storedWord entry113 (2 * entry113.irq.number.val) ≠ 0 ∧ spOf entry113 + 2 * 7 ≤ 0xFFFF ∧
      writeFault entry113 (spOf entry113 + 2 * 7) true ≠ none) ∧
    WritableRun entry113 (spOf entry113) (2 * 7) :=
  ⟨by decide, ⟨⟨.ram, 0, 0xFFFFF, []⟩, rfl, by decide⟩, by decide,
    ⟨.ram, 0x00000, 0x043FF, [(0x0006, 0x45)]⟩, rfl, by decide⟩

theorem witness_DispatchThenReiRestores :
    (requested.fault = none ∧ requested.running = true ∧ requested.irq.pending = true ∧
      readFault requested (2 * requested.irq.number.val) true = none ∧
      storedWord requested (2 * requested.irq.number.val) ≠ 0 ∧
      spOf requested + 16 ≤ 0xFFFF ∧ ∀ k < 8, readFault requested (spOf requested + 2 * k) true = none) ∧
    WritableRun requested (spOf requested) 16 :=
  ⟨by decide, ⟨.ram, 0, 0xFFFFF, [(508, 0x45)]⟩, rfl, by decide⟩

theorem witness_StackDiscipline :
    [0x0#4, 0x8#4].map (fun a => Reg.ofIndex a.toNat) = [Reg.r1, .bp].map some ∧ [Reg.r1, .bp].Nodup ∧
    [Reg.r1, .bp].length = [0xFFFF#16, 0x0001#16].length ∧ Reg.sp ∉ [Reg.r1, .bp] ∧ Reg.pc ∉ [Reg.r1, .bp] ∧
    (next (execAll ([0xFFFF#16, 0x0001#16].map Instr.pshI16 ++ [0x0#4, 0x8#4].map Instr.popR) wide)).isSome = true := by
  decide

theorem witness_CallThenReturn :
    (Instr.parts (.jsrD8 0)).op = .jsr ∧ (next (exec (.jsrD8 0) (wide.setReg .sp 0xFFFD))).isSome = true ∧
    readFault (wide.setReg .sp 0xFFFD) (spOf (wide.setReg .sp 0xFFFD)) true = none := by decide

/-- A CMP of each form that has a next state with room for a branch after it. -/
theorem witness_BranchAfterCompare :
    Reg.ofIndex (8#4).toNat = some .bp ∧ Reg.ofIndex (8#8).toNat = some .bp ∧
    [(Instr.cmpRi16 8 0xFFFF), (.cmpRi8 8 0xFF), (.cmpRr 8 8)].map
      (fun c => (next (exec c (wide.setReg .pc 0xFFF7))).map (fun t => decide (t.regs.pc.toNat + 4 ≤ 0xFFFF))) =
      [some true, some true, some true] := by decide

/-- An instruction with a next state whose written registers leave some register out. -/
theorem witness_RegisterFrame :
    (next (exec (.popR 8) (wide.setReg .sp 2))).isSome = true ∧ ¬mayWriteReg (.popR 8) .r1 :=
  ⟨by decide, by rintro (h | ⟨a, h, h'⟩) <;> cases h; cases h'⟩

theorem witness_FlagFrame :
    (next (exec (.addRi8 0 1) wide)).isSome = true ∧ (next (exec (.cmpRi8 0 1) wide)).isSome = true ∧
    (next (exec .nopN wide)).isSome = true := by decide

theorem witness_MemoryFrame :
    ((next (exec (.stRr 0 1) (wide.setReg .r2 0xFFFE))).isSome = true ∧
      storeSpan (.stRr 0 1) (wide.setReg .r2 0xFFFE) = some (0xFFFE, 2)) ∧
    ((next (exec (.ldRd8 0 0) wide)).isSome = true ∧ storeSpan (.ldRd8 0 0) wide = none) := by decide

theorem witness_ControlStateFrame :
    (next (exec .nopN wide)).isSome = true ∧ (next (exec .hltN wide)).isSome = true ∧
    (next (exec (.intI8 0) wide)).isSome = true := by decide

end Sys2Proof.Tests
end

/-! PROOFS. The statements on the state: the invariant of a tick, the frame of every instruction, the comparison flags,
reset and the flags word. -/

namespace Sys2Proof.Machine

open Sys2Proof.Claims

/-! ## The invariant of a tick -/

/-- An evolution keeps every device's storage canonical and in range: its bus writes do, and nothing else in it touches
a device. -/
theorem Evolves.devices_wf {s t : State} (h : Evolves s t) (hs : ∀ d ∈ s.devices, DeviceWf d) :
    ∀ d ∈ t.devices, DeviceWf d := by
  induction h with
  | refl => exact hs
  | cpu _ _ _ _ _ ih => exact ih
  | byte _ hw ih =>
    obtain ⟨_, _, _, _, R⟩ := memWriteByte_ok hw
    exact R.devices_wf ih
  | word _ hw ih =>
    obtain ⟨_, _, _, _, R, _⟩ := memWriteWord_ok hw
    exact R.devices_wf ih

theorem fetchDecode_devices {N : Numbering} {s s' : State} {i : Instr} (h : fetchDecode N s = .ok (s', i)) :
    s'.devices = s.devices := by
  obtain ⟨_, hf, _⟩ := fetchDecode_ok h
  obtain ⟨_, rfl, _, _⟩ := fetch_ok hf
  rfl

theorem tick_keeps_inv {N : Numbering} {s t : State} (hs : Inv s) (h : tick N s = .next t) : Inv t := by
  obtain ⟨hwf, hlatches⟩ := hs
  obtain ⟨_, ⟨_, rfl⟩ | ⟨_, _, hdispatch⟩ | ⟨_, _, s', i, u, hfetch, hexec, rfl⟩⟩ := tick_next h
  · exact ⟨hwf, hlatches⟩
  · have hev := interruptDispatch_evolves hdispatch
    exact ⟨hev.devices_wf hwf, hev.frame.1.trans hlatches⟩
  · exact ⟨(exec_evolves hexec).devices_wf (fetchDecode_devices hfetch ▸ hwf), rfl⟩

/-- Settles O14: a tick is idle, a dispatch or one instruction; the last two evolve the devices by served writes. -/
theorem stepKeepsInvariant : Obligations.StepKeepsInvariant :=
  fun _ _ => tick_keeps_inv

/-! ## The frame of an instruction -/

/-- What executing `i` may change from `s` to `t`, by mnemonic: the registers of `mayWriteReg`, the flags of R25, the
running bit (R29) and the request latch (R30). -/
structure ExecFrame (i : Instr) (s t : State) : Prop where
  reg : ∀ y, y ≠ Reg.pc → ¬mayWriteReg i y → t.getReg y = s.getReg y
  comparison : i.parts.op ∉ [Opcode.cmp, .rei] →
    t.flags.z = s.flags.z ∧ t.flags.l = s.flags.l ∧ t.flags.g = s.flags.g
  overflow : i.parts.op ∉ [Opcode.add, .sub, .mul, .rei] → t.flags.o = s.flags.o
  longForm : i.parts.op ≠ .rei → t.flags.d = s.flags.d
  running : i.parts.op ≠ .hlt → t.running = s.running
  irq : i.parts.op ≠ .int → t.irq = s.irq

namespace ExecFrame

variable {i : Instr} {s t u : State}

theorem refl (i : Instr) (s : State) : ExecFrame i s s :=
  ⟨fun _ _ _ => rfl, fun _ => ⟨rfl, rfl, rfl⟩, fun _ => rfl, fun _ => rfl, fun _ => rfl, fun _ => rfl⟩

theorem setPc (h : ExecFrame i s t) (v : Word) : ExecFrame i s (t.setReg .pc v) :=
  { h with reg := fun y hpc hy => (State.getReg_setReg_ne t v hpc).trans (h.reg y hpc hy) }

theorem setReg (h : ExecFrame i s t) {x : Reg} (hx : mayWriteReg i x) (v : Word) : ExecFrame i s (t.setReg x v) :=
  { h with
    reg := fun y hpc hy =>
      (State.getReg_setReg_ne t v (by rintro rfl; exact hy hx)).trans (h.reg y hpc hy) }

theorem compare (h : ExecFrame i s t) (hop : i.parts.op = .cmp) (x y : Word) :
    ExecFrame i s (t.setFlags (compareFlags x y t.flags)) :=
  { h with comparison := fun hn => absurd (by simp [hop]) hn }

theorem withOverflow (h : ExecFrame i s t) (hop : i.parts.op ∈ [Opcode.add, .sub, .mul, .rei]) (o : Bool) :
    ExecFrame i s (t.setFlags (withOverflow o t.flags)) :=
  { h with overflow := fun hn => absurd hop hn }

theorem restoreFlags (h : ExecFrame i s t) (hop : i.parts.op = .rei) (f : Flags) : ExecFrame i s (t.setFlags f) :=
  { h with
    comparison := fun hn => absurd (by simp [hop]) hn
    overflow := fun hn => absurd (by simp [hop]) hn
    longForm := fun hn => absurd hop hn }

theorem setRunning (h : ExecFrame i s t) (hop : i.parts.op = .hlt) (b : Bool) : ExecFrame i s (t.setRunning b) :=
  { h with running := fun hn => absurd hop hn }

theorem setIrq (h : ExecFrame i s t) (hop : i.parts.op = .int) (q : Irq) : ExecFrame i s (t.setIrq q) :=
  { h with irq := fun hn => absurd hop hn }

theorem setDevices (h : ExecFrame i s t) (ds : List Device) : ExecFrame i s (t.setDevices ds) := { h with }

theorem writeByte {a : Nat} {v : Byte} (h : ExecFrame i s t) (e : memWriteByte a v t = .ok u) : ExecFrame i s u := by
  obtain ⟨_, _, _, _, R⟩ := memWriteByte_ok e
  exact R.next ▸ h.setDevices _

theorem writeWord {a : Nat} {v : Word} (h : ExecFrame i s t) (e : memWriteWord a v t = .ok u) : ExecFrame i s u := by
  obtain ⟨_, _, _, _, R, _⟩ := memWriteWord_ok e
  exact R.next ▸ h.setDevices _

theorem advance {len : Nat} (h : ExecFrame i s t) (e : Machine.advance len t = .ok u) : ExecFrame i s u := by
  obtain ⟨_, rfl⟩ := advance_ok.1 e
  exact h.setPc _

theorem push {v : Word} (h : ExecFrame i s t) (hsp : mayWriteReg i .sp) (e : Machine.push v t = .ok u) :
    ExecFrame i s u := by
  obtain ⟨_, _, hw, rfl⟩ := push_ok.1 e
  exact (h.writeWord hw).setReg hsp _

theorem pop {v : Word} (h : ExecFrame i s t) (hsp : mayWriteReg i .sp) (e : Machine.pop t = .ok (v, u)) :
    ExecFrame i s u := by
  obtain ⟨_, _, rfl⟩ := pop_ok.1 e
  exact h.setReg hsp _

theorem popRegs {xs : List Reg} (h : ExecFrame i s t) (hsp : mayWriteReg i .sp) (hxs : ∀ x ∈ xs, mayWriteReg i x)
    (e : Machine.popRegs xs t = .ok u) : ExecFrame i s u := by
  induction xs generalizing t with
  | nil => cases e; exact h
  | cons x xs ih =>
    obtain ⟨⟨v, t'⟩, hp, e⟩ := Except.bind_eq_ok_iff.1 e
    exact ih ((h.pop hsp hp).setReg (hxs x List.mem_cons_self) v) (fun y hy => hxs y (List.mem_cons_of_mem x hy)) e

/-- CMP: the three comparison flags, then `advance()`. -/
theorem withCompare {a : Nibble} {y : Src} (hop : i.parts.op = .cmp)
    (e : withOperands cmpEffect a y s = .ok t) : ExecFrame i s t := by
  obtain ⟨x, v, _, _, _, hu, e⟩ := withOperands_ok.1 e
  cases hu
  exact ((refl i s).compare hop (s.getReg x) v).advance e

/-- The two-operand instructions that write a result and no flag. -/
theorem withResult {effect : Reg → Word → State → Except Fault State} {a : Nibble} {y : Src}
    (ha : ∀ x, Reg.ofIndex a.toNat = some x → mayWriteReg i x)
    (he : ∀ x v u, effect x v s = .ok u → ∃ w, u = s.setReg x w)
    (e : withOperands effect a y s = .ok t) : ExecFrame i s t := by
  obtain ⟨x, v, u, hx, _, hu, e⟩ := withOperands_ok.1 e
  obtain ⟨w, rfl⟩ := he x v u hu
  exact ((refl i s).setReg (ha x hx) w).advance e

/-- The two-operand instructions that write a result and the overflow flag. -/
theorem withResultAndOverflow {effect : Reg → Word → State → Except Fault State} {a : Nibble} {y : Src}
    (ha : ∀ x, Reg.ofIndex a.toNat = some x → mayWriteReg i x) (hop : i.parts.op ∈ [Opcode.add, .sub, .mul, .rei])
    (he : ∀ x v u, effect x v s = .ok u → ∃ w o, u = (s.setReg x w).setFlags (Machine.withOverflow o s.flags))
    (e : withOperands effect a y s = .ok t) : ExecFrame i s t := by
  obtain ⟨x, v, u, hx, _, hu, e⟩ := withOperands_ok.1 e
  obtain ⟨w, o, rfl⟩ := he x v u hu
  exact (((refl i s).setReg (ha x hx) w).withOverflow hop o).advance e

/-- MOV and every load: the destination, then `advance()`. -/
theorem load {x : Reg} {v : Word} {len : Nat} (hx : mayWriteReg i x)
    (e : Machine.advance len (s.setReg x v) = .ok t) : ExecFrame i s t :=
  ((refl i s).setReg hx v).advance e

theorem branch {cond : Flags → Bool} {tg : Target} (e : Machine.branch cond tg s = .ok t) : ExecFrame i s t := by
  obtain ⟨v, _, ⟨_, rfl⟩ | ⟨_, e⟩⟩ := branch_ok.1 e
  · exact (refl i s).setPc v
  · exact (refl i s).advance e

theorem jump {tg : Target} (e : Machine.jump tg s = .ok t) : ExecFrame i s t := by
  obtain ⟨v, _, rfl⟩ := jump_ok.1 e
  exact (refl i s).setPc v

theorem callSub {tg : Target} (hsp : mayWriteReg i .sp) (e : Machine.callSub tg s = .ok t) : ExecFrame i s t := by
  obtain ⟨v, _, _, _, hp, rfl⟩ := callSub_ok.1 e
  exact ((refl i s).push hsp hp).setPc v

theorem storeWord {a : Nibble} {p : Place} (e : Machine.storeWord a p s = .ok t) : ExecFrame i s t := by
  obtain ⟨_, _, _, _, _, hw, e⟩ := storeWord_ok.1 e
  exact ((refl i s).writeWord hw).advance e

theorem storeByte {part : Word → Byte} {a : Nibble} {p : Place} (e : Machine.storeByte part a p s = .ok t) :
    ExecFrame i s t := by
  obtain ⟨_, _, _, _, _, hw, e⟩ := storeByte_ok.1 e
  exact ((refl i s).writeByte hw).advance e

theorem pushImm {len : Nat} {v : Word} (hsp : mayWriteReg i .sp) (e : Machine.pushImm len v s = .ok t) :
    ExecFrame i s t := by
  obtain ⟨_, hp, e⟩ := pushImm_ok.1 e
  exact ((refl i s).push hsp hp).advance e

theorem pushReg {a : Nibble} (hsp : mayWriteReg i .sp) (e : Machine.pushReg a s = .ok t) : ExecFrame i s t := by
  obtain ⟨_, _, _, hp, e⟩ := pushReg_ok.1 e
  exact ((refl i s).push hsp hp).advance e

theorem pushMem {p : Place} (hsp : mayWriteReg i .sp) (e : Machine.pushMem p s = .ok t) : ExecFrame i s t := by
  obtain ⟨_, _, _, _, _, hp, e⟩ := pushMem_ok.1 e
  exact ((refl i s).push hsp hp).advance e

theorem popReg {a : Nibble} (hsp : mayWriteReg i .sp) (ha : ∀ x, Reg.ofIndex a.toNat = some x → mayWriteReg i x)
    (e : Machine.popReg a s = .ok t) : ExecFrame i s t := by
  obtain ⟨x, v, _, hx, hp, e⟩ := popReg_ok.1 e
  exact (((refl i s).pop hsp hp).setReg (ha x hx) v).advance e

theorem returnSub (hsp : mayWriteReg i .sp) (e : Machine.returnSub s = .ok t) : ExecFrame i s t := by
  obtain ⟨v, _, hp, rfl⟩ := returnSub_ok.1 e
  exact ((refl i s).pop hsp hp).setPc v

theorem requestInterrupt {len : Nat} {n : Word} (hop : i.parts.op = .int)
    (e : Machine.requestInterrupt len n s = .ok t) : ExecFrame i s t := by
  obtain ⟨_, e⟩ := requestInterrupt_ok.1 e
  exact ((refl i s).setIrq hop _).advance e

theorem returnFromInterrupt (e : Machine.returnFromInterrupt s = .ok t) : ExecFrame .reiN s t := by
  obtain ⟨ret, _, w, _, h1, h2, e⟩ := returnFromInterrupt_ok.1 e
  have hsp : mayWriteReg .reiN .sp := .inl rfl
  exact (((((refl .reiN s).pop hsp h1).setPc ret).pop hsp h2).restoreFlags rfl (flagsOfWord w)).popRegs hsp
    (fun x hx => .inr (List.mem_reverse.1 hx)) e

end ExecFrame

/-- Every executor keeps to its mnemonic's frame. -/
theorem exec_frame {i : Instr} {s t : State} (h : exec i s = .next t) : ExecFrame i s t := by
  cases i with
  | movRr _ _ =>
    obtain ⟨_, _, hx, _, h⟩ := moveReg_ok.1 (outcome_eq_next.1 h)
    exact .load ⟨_, rfl, hx⟩ h
  | ldRi8 _ _ | ldRi16 _ _ =>
    obtain ⟨_, hx, h⟩ := loadImm_ok.1 (outcome_eq_next.1 h)
    exact .load ⟨_, rfl, hx⟩ h
  | ldRr _ _ | ldRd8 _ _ | ldRd16 _ _ | ldRd20 _ _ _ =>
    obtain ⟨_, _, _, hx, _, _, h⟩ := loadWord_ok.1 (outcome_eq_next.1 h)
    exact .load ⟨_, rfl, hx⟩ h
  | ldbRr _ _ | ldbRd8 _ _ | ldbRd16 _ _ | ldbRd20 _ _ _ =>
    obtain ⟨_, _, _, hx, _, _, h⟩ := loadByte_ok.1 (outcome_eq_next.1 h)
    exact .load ⟨_, rfl, hx⟩ h
  | pshI8 _ | pshI16 _ => exact .pushImm rfl (outcome_eq_next.1 h)
  | pshR _ => exact .pushReg rfl (outcome_eq_next.1 h)
  | pshD8 _ | pshD16 _ | pshD20 _ _ => exact .pushMem rfl (outcome_eq_next.1 h)
  | popR _ =>
    exact .popReg (.inl rfl) (fun _ hx => .inr ⟨_, rfl, hx⟩) (outcome_eq_next.1 h)
  | stRr _ _ | stRd8 _ _ | stRd16 _ _ | stRd20 _ _ _ => exact .storeWord (outcome_eq_next.1 h)
  | stlRr _ _ | stlRd8 _ _ | stlRd16 _ _ | stlRd20 _ _ _ | sthRr _ _ | sthRd8 _ _ | sthRd16 _ _ | sthRd20 _ _ _ =>
    exact .storeByte (outcome_eq_next.1 h)
  | cmpRi8 _ _ | cmpRi16 _ _ | cmpRr _ _ => exact .withCompare rfl (outcome_eq_next.1 h)
  | addRi8 _ _ | addRi16 _ _ | addRr _ _ | subRi8 _ _ | subRi16 _ _ | subRr _ _ | mulRi8 _ _ | mulRi16 _ _
  | mulRr _ _ =>
    exact .withResultAndOverflow (fun _ hx => ⟨_, rfl, hx⟩) (of_decide_eq_true rfl)
      (fun _ _ _ he => by cases he; exact ⟨_, _, rfl⟩) (outcome_eq_next.1 h)
  | andRi8 _ _ | andRi16 _ _ | andRr _ _ | orRi8 _ _ | orRi16 _ _ | orRr _ _ | xorRi8 _ _ | xorRi16 _ _
  | xorRr _ _ =>
    exact .withResult (fun _ hx => ⟨_, rfl, hx⟩) (fun _ _ _ he => by cases he; exact ⟨_, rfl⟩)
      (outcome_eq_next.1 h)
  | lshRi8 _ _ | lshRi16 _ _ | lshRr _ _ =>
    exact .withResult (fun _ hx => ⟨_, rfl, hx⟩) (fun _ _ _ he => ⟨_, (lshEffect_ok.1 he).2⟩) (outcome_eq_next.1 h)
  | rshRi8 _ _ | rshRi16 _ _ | rshRr _ _ =>
    exact .withResult (fun _ hx => ⟨_, rfl, hx⟩) (fun _ _ _ he => ⟨_, (rshEffect_ok.1 he).2⟩) (outcome_eq_next.1 h)
  | modRi8 _ _ | modRi16 _ _ | modRr _ _ =>
    exact .withResult (fun _ hx => ⟨_, rfl, hx⟩) (fun _ _ _ he => ⟨_, (modEffect_ok.1 he).2⟩) (outcome_eq_next.1 h)
  | beqD8 _ | beqD16 _ | beqD20 _ _ | bgtD8 _ | bgtD16 _ | bgtD20 _ _ | bltD8 _ | bltD16 _ | bltD20 _ _
  | bofD8 _ | bofD16 _ | bofD20 _ _ | bneD8 _ | bneD16 _ | bneD20 _ _ | bgeD8 _ | bgeD16 _ | bgeD20 _ _
  | bleD8 _ | bleD16 _ | bleD20 _ _ => exact .branch (outcome_eq_next.1 h)
  | jmpD8 v => exact .jump (tg := .abs8 v) (outcome_eq_next.1 h)
  | jmpD16 w => exact .jump (tg := .abs16 w) (outcome_eq_next.1 h)
  | jmpD20 ad lo => exact .jump (tg := .abs20 ad lo) (outcome_eq_next.1 h)
  | jsrD8 _ | jsrD16 _ | jsrD20 _ _ => exact .callSub rfl (outcome_eq_next.1 h)
  | retN => exact .returnSub rfl (outcome_eq_next.1 h)
  | hltN => cases h; exact .setRunning (.refl _ s) rfl false
  | nopN => exact (ExecFrame.refl _ s).advance (outcome_eq_next.1 h)
  | intI8 _ | intI16 _ => exact .requestInterrupt rfl (outcome_eq_next.1 h)
  | reiN => exact .returnFromInterrupt (outcome_eq_next.1 h)

/-- Settles O54, from the frame of every executor. -/
theorem registerFrame : Obligations.RegisterFrame :=
  fun _ _ _ h => (exec_frame h).reg

/-- Settles O55, from the frame of every executor. -/
theorem flagFrame : Obligations.FlagFrame :=
  fun _ _ _ h => ⟨(exec_frame h).comparison, (exec_frame h).overflow, (exec_frame h).longForm⟩

/-- Settles O57: `running` and the latch by the frame of every executor, the rest because an executor only evolves the
state. -/
theorem controlStateFrame : Obligations.ControlStateFrame :=
  fun _ _ _ h => ⟨(exec_frame h).running, (exec_frame h).irq, (exec_evolves h).frame⟩

/-! ## The comparison flags -/

/-- Two unsigned numbers stand in exactly one of the three relations (R28, R200). -/
theorem compareFlags_exactlyOne (x y : Word) (f : Flags) : ExactlyOneComparison (compareFlags x y f) := by
  simp only [ExactlyOneComparison, AtMostOneComparison, compareFlags, decide_eq_true_eq, ← BitVec.toNat_inj]
  omega

theorem withOperands_cmp_flags {a : Nibble} {y : Src} {s t : State} (h : withOperands cmpEffect a y s = .ok t) :
    ∃ v w, t.flags = compareFlags v w s.flags := by
  obtain ⟨x, v, u, _, _, hu, h⟩ := withOperands_ok.1 h
  obtain ⟨_, rfl⟩ := advance_ok.1 h
  cases hu
  exact ⟨_, _, rfl⟩

theorem exec_cmp_flags {i : Instr} {s t : State} (hop : i.parts.op = .cmp) (h : exec i s = .next t) :
    ∃ v w, t.flags = compareFlags v w s.flags := by
  cases i with
  | cmpRi8 _ _ | cmpRi16 _ _ | cmpRr _ _ => exact withOperands_cmp_flags (outcome_eq_next.1 h)
  | _ => cases hop

/-- Settles O20: a CMP writes the three flags from one comparison; every other instruction but REI leaves them as they
were. -/
theorem comparisonFlagsExclusive : Obligations.ComparisonFlagsExclusive := by
  intro i s t h
  have hcmp : i.parts.op = .cmp → ExactlyOneComparison t.flags := fun hop => by
    obtain ⟨v, w, hf⟩ := exec_cmp_flags hop h
    exact hf ▸ compareFlags_exactlyOne v w s.flags
  refine ⟨hcmp, fun hrei hs => ?_⟩
  by_cases hop : i.parts.op = .cmp
  · exact (hcmp hop).1
  · obtain ⟨hz, hl, hg⟩ := (exec_frame h).comparison (by simp [hop, hrei])
    simpa only [AtMostOneComparison, hz, hl, hg] using hs

/-! ## Reset -/

theorem boot_regs (devices : List Device) (contents : List Host.Cell) (entry : Word) :
    (boot devices contents entry).regs = { Regs.zero with pc := entry } := rfl

/-- Settles O12: the values of R37's table, register by register. -/
theorem resetValues : Obligations.ResetValues :=
  ⟨fun x => by cases x <;> rfl, rfl, rfl, rfl, rfl, rfl, boot_regs⟩

/-- The devices of the reset state list no byte. -/
theorem State.reset_cells : ∀ d ∈ State.reset.devices, d.cells = [] := by decide

/-- Settles O13: empty storage is canonical, and no listed byte is out of range. -/
theorem resetMeetsInvariant : Obligations.ResetMeetsInvariant :=
  ⟨fun d hd => ⟨State.reset_cells_wf d hd, by simp [State.reset_cells d hd]⟩, rfl⟩

/-! ## The flags word -/

/-- R27's layout, for the 32 values of the flags. -/
theorem flagsWord_bits : ∀ z o l g d : Bool,
    (flagsWord ⟨z, o, l, g, d⟩).getLsbD 0 = z ∧ (flagsWord ⟨z, o, l, g, d⟩).getLsbD 1 = o ∧
    (flagsWord ⟨z, o, l, g, d⟩).getLsbD 2 = l ∧ (flagsWord ⟨z, o, l, g, d⟩).getLsbD 3 = g ∧
    (flagsWord ⟨z, o, l, g, d⟩).getLsbD 4 = d ∧ (flagsWord ⟨z, o, l, g, d⟩).extractLsb' 5 11 = 0 := by
  decide

/-- A popped word restores the flags from its low five bits. -/
theorem flagsOfWord_eq_extract (w : Word) : flagsOfWord w = flagsOfWord ((w.extractLsb' 0 5).setWidth 16) := by
  simp [flagsOfWord]

/-- Settles O19: the layout by the 32 values of the flags, the ignored bits because only the low five are read. -/
theorem flagsWordLayout : Obligations.FlagsWordLayout := by
  refine ⟨fun f => flagsWord_bits f.z f.o f.l f.g f.d, fun _ => rfl, fun w w' h => ?_⟩
  rw [flagsOfWord_eq_extract w, flagsOfWord_eq_extract w', h]

end Sys2Proof.Machine

/-! PROOFS. The statements on memory: what each bus access answers, accesses of mixed width, the device map that no tick
changes, and the bytes that an instruction leaves alone. -/

namespace Sys2Proof.Claims

open Sys2Proof.Machine

/-! ## A device as a tick keeps it -/

theorem SameDevice.refl (d : Device) : SameDevice d d := ⟨rfl, rfl, rfl, fun _ => rfl⟩

theorem SameDevice.trans {d e f : Device} (h : SameDevice d e) (h' : SameDevice e f) : SameDevice d f := by
  obtain ⟨hkind, hfirst, hlast, hcells⟩ := h
  obtain ⟨hkind', hfirst', hlast', hcells'⟩ := h'
  exact ⟨hkind'.trans hkind, hfirst'.trans hfirst, hlast'.trans hlast,
    fun hw => (hcells' (hkind ▸ hw)).trans (hcells hw)⟩

/-! ## Bytes outside a store -/

/-- A change outside the devices after a store shows no other byte. -/
theorem SameBytesOutside.devices {s t u : State} {a n : Nat} (h : SameBytesOutside s t a n)
    (e : u.devices = t.devices) : SameBytesOutside s u a n :=
  fun b hb => (memReadByte_congr e b).trans (h b hb)

/-! ## Bytes held in one readable device -/

theorem HeldAt.readByte {s : State} {a : Nat} {bs : List Byte} (h : HeldAt s a bs) (k : Nat) (hk : k < bs.length) :
    memReadByte (a + k) s = .ok bs[k] := by
  obtain ⟨d, hr, hd⟩ := h
  obtain ⟨ha, hread⟩ := hd k hk
  rw [memReadByte_of_arbitrate, ha]
  simp [hr, hread]

/-- A word is read big-endian; the device claims both addresses, so the word does not straddle its end. -/
theorem HeldAt.readWord {s : State} {a : Nat} {b c : Byte} (h : HeldAt s a [b, c]) :
    memReadWord a s = .ok (wordOfBytes b c) := by
  obtain ⟨d, hr, hd⟩ := h
  obtain ⟨ha, hb⟩ : arbitrate s.devices a = some d ∧ d.cells.read a = b := hd 0 (by simp)
  obtain ⟨ha', hc⟩ : arbitrate s.devices (a + 1) = some d ∧ d.cells.read (a + 1) = c := hd 1 (by simp)
  have hlast : a ≠ d.last.toNat := by
    have := (d.owns_iff (a + 1)).1 (arbitrate_owns ha')
    omega
  rw [memReadWord_of_arbitrate, ha]
  simp [hr, hlast, Device.wordAt, hb, hc]

end Sys2Proof.Claims

namespace Sys2Proof.Machine

open Sys2Proof.Claims

/-! ## The device map and what cannot be written -/

/-- The device lists agree device by device: same length, and each device as in `SameDevice`. -/
def SameMap (ds ds' : List Device) : Prop := List.Forall₂ SameDevice ds ds'

theorem SameMap.refl (ds : List Device) : SameMap ds ds := List.forall₂_same.2 fun d _ => SameDevice.refl d

theorem SameMap.trans {ds es fs : List Device} (h : SameMap ds es) (h' : SameMap es fs) : SameMap ds fs := by
  induction h generalizing fs with
  | nil => exact h'
  | cons hd _ ih =>
    cases h' with
    | cons hd' hes => exact .cons (hd.trans hd') (ih hes)

theorem SameMap.length_eq {ds ds' : List Device} (h : SameMap ds ds') : ds'.length = ds.length :=
  (List.Forall₂.length_eq h).symm

theorem SameMap.sameDevice {ds ds' : List Device} {k : Nat} {d d' : Device} (h : SameMap ds ds')
    (hd : ds[k]? = some d) (hd' : ds'[k]? = some d') : SameDevice d d' := by
  obtain ⟨hk, rfl⟩ := List.getElem?_eq_some_iff.1 hd
  obtain ⟨hk', rfl⟩ := List.getElem?_eq_some_iff.1 hd'
  exact List.Forall₂.get h hk hk'

/-- A served write exchanges one writable device for itself with other storage. -/
theorem Replaces.sameMap {s t : State} {a : Nat} {bs : List Byte} {pre post : List Device} {d : Device}
    {cells : Memory} (h : Replaces s t a bs pre d post cells) : SameMap s.devices t.devices := by
  rw [h.devices, h.next]
  exact List.rel_append (SameMap.refl pre) (.cons h.sameDevice (SameMap.refl post))

theorem Evolves.sameMap {s t : State} (h : Evolves s t) : SameMap s.devices t.devices := by
  induction h with
  | refl => exact .refl _
  | cpu _ _ _ _ _ ih => exact ih
  | byte _ hw ih =>
    obtain ⟨_, _, _, _, R⟩ := memWriteByte_ok hw
    exact ih.trans R.sameMap
  | word _ hw ih =>
    obtain ⟨_, _, _, _, R, _⟩ := memWriteWord_ok hw
    exact ih.trans R.sameMap

theorem tick_sameMap {N : Numbering} {s t : State} (h : tick N s = .next t) : SameMap s.devices t.devices := by
  obtain ⟨_, ⟨_, rfl⟩ | ⟨_, _, hdispatch⟩ | ⟨_, _, s', i, u, hfetch, hexec, rfl⟩⟩ := tick_next h
  · exact .refl _
  · exact (interruptDispatch_evolves hdispatch).sameMap
  · exact fetchDecode_devices hfetch ▸ (exec_evolves hexec).sameMap

/-- Settles O15: a tick evolves the devices by served writes, and each keeps the map and every device that cannot be
written. -/
theorem stepKeepsDeviceMapAndRom : Obligations.StepKeepsDeviceMapAndRom := by
  intro s t h
  have hmap := tick_sameMap h
  exact ⟨hmap.length_eq, fun _ _ _ => hmap.sameDevice⟩

/-! ## What a read answers -/

theorem memReadByte_eq (s : State) (a : Nat) :
    memReadByte a s = (readFault s a false).elim (.ok (storedByte s a)) (fun k => .error (.bus k a)) := by
  rw [memReadByte_of_arbitrate]
  unfold readFault storedByte
  cases arbitrate s.devices a with
  | none => rfl
  | some d => cases hr : d.kind.readable <;> simp [hr]

theorem memReadWord_eq (s : State) (a : Nat) :
    memReadWord a s = (readFault s a true).elim (.ok (storedWord s a)) (fun k => .error (.bus k a)) := by
  rw [memReadWord_of_arbitrate]
  unfold readFault storedWord
  cases arbitrate s.devices a with
  | none => rfl
  | some d =>
    cases hr : d.kind.readable with
    | false => simp [hr]
    | true => by_cases hl : a = d.last.toNat <;> simp [hr, hl, Device.wordAt, wordOfBytes]

theorem memReadByte_refused {s : State} {a : Nat} {k : BusError} (h : readFault s a false = some k) :
    memReadByte a s = .error (.bus k a) := by
  rw [memReadByte_eq, h, Option.elim_some]

theorem memReadByte_served {s : State} {a : Nat} (h : readFault s a false = none) :
    memReadByte a s = .ok (storedByte s a) := by
  rw [memReadByte_eq, h, Option.elim_none]

theorem memReadWord_refused {s : State} {a : Nat} {k : BusError} (h : readFault s a true = some k) :
    memReadWord a s = .error (.bus k a) := by
  rw [memReadWord_eq, h, Option.elim_some]

theorem memReadWord_served {s : State} {a : Nat} (h : readFault s a true = none) :
    memReadWord a s = .ok (storedWord s a) := by
  rw [memReadWord_eq, h, Option.elim_none]

/-- Settles O16: each read asks the first device that claims the address. -/
theorem busReadAnswers : Obligations.BusReadAnswers :=
  fun _ _ => ⟨fun _ => memReadByte_refused, memReadByte_served, fun _ => memReadWord_refused, memReadWord_served⟩

/-! ## What a write answers -/

theorem memWriteByte_error_iff {s : State} {a : Nat} {v : Byte} {f : Fault} :
    memWriteByte a v s = .error f ↔ ∃ k, f = .bus k a ∧ writeFault s a false = some k := by
  rw [memWriteByte_error, busRead_eq _ s.devices a (fun d => d.writeByte_none a v)]
  unfold writeFault
  cases ha : arbitrate s.devices a with
  | none => simp
  | some d => cases hw : d.kind.writable <;> simp [Device.writeByte, arbitrate_owns ha, hw]

theorem memWriteWord_error_iff {s : State} {a : Nat} {v : Word} {f : Fault} :
    memWriteWord a v s = .error f ↔ ∃ k, f = .bus k a ∧ writeFault s a true = some k := by
  rw [memWriteWord_error, busRead_eq _ s.devices a (fun d => d.writeWord_none a v)]
  unfold writeFault
  cases ha : arbitrate s.devices a with
  | none => simp
  | some d =>
    simp only [Device.writeWord, arbitrate_owns ha, if_true]
    cases d.kind.writable with
    | false => simp
    | true => by_cases hl : a = d.last.toNat <;> simp [hl]

theorem memWriteByte_served {s : State} {a : Nat} (v : Byte) (h : writeFault s a false = none) :
    ∃ t, memWriteByte a v s = .ok t ∧ Stored s t a [v] := by
  cases hw : memWriteByte a v s with
  | error f =>
    obtain ⟨k, _, hk⟩ := memWriteByte_error_iff.1 hw
    cases h.symm.trans hk
  | ok t =>
    obtain ⟨_, _, _, _, R⟩ := memWriteByte_ok hw
    exact ⟨t, rfl, R.stored⟩

theorem memWriteWord_served {s : State} {a : Nat} (v : Word) (h : writeFault s a true = none) :
    ∃ t, memWriteWord a v s = .ok t ∧ Stored s t a [hiByte v, loByte v] := by
  cases hw : memWriteWord a v s with
  | error f =>
    obtain ⟨k, _, hk⟩ := memWriteWord_error_iff.1 hw
    cases h.symm.trans hk
  | ok t =>
    obtain ⟨_, _, _, _, R, _⟩ := memWriteWord_ok hw
    exact ⟨t, rfl, R.stored⟩

/-- Settles O17: a write is refused exactly where `writeFault` says so, and one that is served stores its bytes. -/
theorem busWriteAnswers : Obligations.BusWriteAnswers :=
  fun _ _ v b =>
    ⟨fun k hk => memWriteByte_error_iff.2 ⟨k, rfl, hk⟩, memWriteByte_served b,
      fun k hk => memWriteWord_error_iff.2 ⟨k, rfl, hk⟩, memWriteWord_served v⟩

/-! ## Accesses of mixed width -/

/-- The written device goes on answering for every address it answered for: no device probed before it is equal to it,
since none of them claims the written address. -/
theorem Replaces.arbitrate_written {s t : State} {a b : Nat} {bs : List Byte} {pre post : List Device} {d : Device}
    {cells : Memory} (h : Replaces s t a bs pre d post cells) (hb : arbitrate s.devices b = some d) :
    arbitrate t.devices b = some { d with cells := cells } := by
  have howns := arbitrate_owns hb
  rw [h.devices, arbitrate, List.find?_append] at hb
  cases hpre : pre.find? (fun e => e.owns b) with
  | some e =>
    have hed : e = d := by simpa [hpre] using hb
    have := h.before d (hed ▸ List.mem_of_find?_eq_some hpre)
    rw [h.owns] at this
    cases this
  | none =>
    rw [h.next]
    exact arbitrate_append_cons (by simpa using hpre) howns

/-- A served write into one readable device that answers for all its addresses leaves its bytes there. -/
theorem Replaces.heldAt {s t : State} {a : Nat} {bs : List Byte} {pre post : List Device} {d : Device}
    {cells : Memory} (h : Replaces s t a bs pre d post cells) (hr : d.kind.readable = true)
    (hd : ∀ k < bs.length, arbitrate s.devices (a + k) = some d) : HeldAt t a bs :=
  ⟨{ d with cells := cells }, hr, fun k hk => ⟨h.arbitrate_written (hd k hk), h.inside k hk⟩⟩

theorem memWriteWord_heldAt {s t : State} {a : Nat} {v : Word} {d : Device} (hd : arbitrate s.devices a = some d)
    (hd' : arbitrate s.devices (a + 1) = some d) (hr : d.kind.readable = true) (h : memWriteWord a v s = .ok t) :
    HeldAt t a [hiByte v, loByte v] := by
  obtain ⟨_, e, _, _, R, _⟩ := memWriteWord_ok h
  obtain rfl : d = e := Option.some.inj (hd.symm.trans R.arbitrate_before)
  refine R.heldAt hr fun k hk => ?_
  match k, hk with
  | 0, _ => exact hd
  | 1, _ => exact hd'

theorem memWriteByte_twice_heldAt {s t u : State} {a : Nat} {b c : Byte} {d : Device}
    (hd : arbitrate s.devices a = some d) (hd' : arbitrate s.devices (a + 1) = some d) (hr : d.kind.readable = true)
    (h : memWriteByte a b s = .ok t) (h' : memWriteByte (a + 1) c t = .ok u) : HeldAt u a [b, c] := by
  obtain ⟨_, e, _, cells, R⟩ := memWriteByte_ok h
  obtain rfl : d = e := Option.some.inj (hd.symm.trans R.arbitrate_before)
  obtain ⟨_, e', _, cells', R'⟩ := memWriteByte_ok h'
  obtain rfl : { d with cells := cells } = e' :=
    Option.some.inj ((R.arbitrate_written hd').symm.trans R'.arbitrate_before)
  refine ⟨{ d with cells := cells' }, hr, fun k hk => ?_⟩
  match k, hk with
  | 0, _ =>
    have hkept : cells'.read a = cells.read a := R'.outside a (by omega)
    exact ⟨R'.arbitrate_written R.arbitrate_after, hkept.trans (R.inside 0 (by simp))⟩
  | 1, _ => exact ⟨R'.arbitrate_after, R'.inside 0 (by simp)⟩

/-- Settles O18: in both clauses the two bytes lie in the one readable device, which every later read asks. -/
theorem mixedWidthAccess : Obligations.MixedWidthAccess := by
  intro s a d hd hd' hr
  refine ⟨fun v t h => ?_, fun b c t u h h' => (memWriteByte_twice_heldAt hd hd' hr h h').readWord⟩
  have hheld := memWriteWord_heldAt hd hd' hr h
  exact ⟨hheld.readByte 0 (by simp), hheld.readByte 1 (by simp),
    hheld.readWord.trans (by rw [wordOfBytes_hi_lo])⟩

/-! ## The bytes an instruction leaves alone -/

/-- Every byte reads in `t` as in `s`, except within the span of the bytes stored, if there is one. -/
def SameBytesApartFrom (s t : State) : Option (Nat × Nat) → Prop
  | none => ∀ b, memReadByte b t = memReadByte b s
  | some (a, n) => SameBytesOutside s t a n

theorem SameBytesApartFrom.of_devices {s t : State} (h : t.devices = s.devices) : SameBytesApartFrom s t none :=
  memReadByte_congr h

theorem advance_devices {len : Nat} {s t : State} (h : advance len s = .ok t) : t.devices = s.devices := by
  obtain ⟨_, rfl⟩ := advance_ok.1 h
  rfl

/-! ### Operations that store nothing

`(… :)` has `advance_devices` elaborated for the state `advance` starts from; its devices are those of `s`. -/

theorem popReg_devices {a : Nibble} {s t : State} (h : popReg a s = .ok t) : t.devices = s.devices := by
  obtain ⟨_, _, _, _, hp, h⟩ := popReg_ok.1 h
  obtain ⟨_, _, rfl⟩ := pop_ok.1 hp
  exact (advance_devices h :)

theorem withOperands_devices {effect : Reg → Word → State → Except Fault State} (he : OnlyRegAndFlags effect)
    {a : Nibble} {y : Src} {s t : State} (h : withOperands effect a y s = .ok t) : t.devices = s.devices := by
  obtain ⟨_, _, _, _, _, hu, h⟩ := withOperands_ok.1 h
  obtain ⟨_, _, rfl⟩ := he _ _ _ _ hu
  exact (advance_devices h :)

theorem branch_devices {cond : Flags → Bool} {tg : Target} {s t : State} (h : branch cond tg s = .ok t) :
    t.devices = s.devices := by
  obtain ⟨_, _, ⟨_, rfl⟩ | ⟨_, h⟩⟩ := branch_ok.1 h
  · rfl
  · exact advance_devices h

theorem jump_devices {tg : Target} {s t : State} (h : jump tg s = .ok t) : t.devices = s.devices := by
  obtain ⟨_, _, rfl⟩ := jump_ok.1 h
  rfl

theorem returnSub_devices {s t : State} (h : returnSub s = .ok t) : t.devices = s.devices := by
  obtain ⟨_, _, hp, rfl⟩ := returnSub_ok.1 h
  obtain ⟨_, _, rfl⟩ := pop_ok.1 hp
  rfl

theorem requestInterrupt_devices {len : Nat} {n : Word} {s t : State} (h : requestInterrupt len n s = .ok t) :
    t.devices = s.devices := by
  obtain ⟨_, h⟩ := requestInterrupt_ok.1 h
  exact (advance_devices h :)

theorem returnFromInterrupt_devices {s t : State} (h : returnFromInterrupt s = .ok t) : t.devices = s.devices := by
  obtain ⟨_, _, _, _, h1, h2, h⟩ := returnFromInterrupt_ok.1 h
  obtain ⟨_, _, rfl⟩ := pop_ok.1 h1
  obtain ⟨_, _, rfl⟩ := pop_ok.1 h2
  obtain ⟨_, _, _, _, _, _, hdevices, _⟩ := popRegs_frame h
  exact hdevices

/-! ### Operations that store -/

/-- The span of `n` bytes from a place up, as `storeSpan` has it for the stores. -/
def Place.span (p : Place) (s : State) (n : Nat) : Option (Nat × Nat) :=
  match p with
  | .abs8 v => some (v.toNat, n)
  | .abs16 w => some (w.toNat, n)
  | .abs20 ad lo => some (ad.toNat * 0x10000 + lo.toNat, n)
  | .ind b => (Reg.ofIndex b.toNat).map (fun y => ((s.getReg y).toNat, n))

theorem Place.span_of_addr {p : Place} {s : State} {ea : Addr} (n : Nat) (h : p.addr s = .ok ea) :
    p.span s n = some (ea.toNat, n) := by
  cases p with
  | abs8 v => cases h; rw [ea8_toNat]; rfl
  | abs16 w => cases h; rw [ea16_toNat]; rfl
  | abs20 ad lo => cases h; rw [ea20_toNat]; rfl
  | ind b =>
    obtain ⟨y, hy, rfl⟩ := Place.addr_ind_ok.1 h
    simp [Place.span, hy, ea16_toNat]

theorem memWriteWord_sameBytesOutside {s t : State} {a : Nat} {v : Word} (h : memWriteWord a v s = .ok t) :
    SameBytesOutside s t a 2 := by
  obtain ⟨_, _, _, _, R, _⟩ := memWriteWord_ok h
  exact fun _ => R.memReadByte_outside

theorem memWriteByte_sameBytesOutside {s t : State} {a : Nat} {v : Byte} (h : memWriteByte a v s = .ok t) :
    SameBytesOutside s t a 1 := by
  obtain ⟨_, _, _, _, R⟩ := memWriteByte_ok h
  exact fun _ => R.memReadByte_outside

theorem push_sameBytesOutside {v : Word} {s t : State} (h : push v s = .ok t) :
    SameBytesOutside s t (spOf s) 2 := by
  obtain ⟨_, _, hw, rfl⟩ := push_ok.1 h
  exact (memWriteWord_sameBytesOutside hw).devices rfl

theorem storeWord_sameBytes {a : Nibble} {p : Place} {s t : State} (h : storeWord a p s = .ok t) :
    SameBytesApartFrom s t (p.span s 2) := by
  obtain ⟨_, _, _, _, hp, hw, h⟩ := storeWord_ok.1 h
  rw [Place.span_of_addr 2 hp]
  exact (memWriteWord_sameBytesOutside hw).devices (advance_devices h)

theorem storeByte_sameBytes {part : Word → Byte} {a : Nibble} {p : Place} {s t : State}
    (h : storeByte part a p s = .ok t) : SameBytesApartFrom s t (p.span s 1) := by
  obtain ⟨_, _, _, _, hp, hw, h⟩ := storeByte_ok.1 h
  rw [Place.span_of_addr 1 hp]
  exact (memWriteByte_sameBytesOutside hw).devices (advance_devices h)

theorem pushImm_sameBytesOutside {len : Nat} {v : Word} {s t : State} (h : pushImm len v s = .ok t) :
    SameBytesOutside s t (spOf s) 2 := by
  obtain ⟨_, hp, h⟩ := pushImm_ok.1 h
  exact (push_sameBytesOutside hp).devices (advance_devices h)

theorem pushReg_sameBytesOutside {a : Nibble} {s t : State} (h : pushReg a s = .ok t) :
    SameBytesOutside s t (spOf s) 2 := by
  obtain ⟨_, _, _, hp, h⟩ := pushReg_ok.1 h
  exact (push_sameBytesOutside hp).devices (advance_devices h)

theorem pushMem_sameBytesOutside {p : Place} {s t : State} (h : pushMem p s = .ok t) :
    SameBytesOutside s t (spOf s) 2 := by
  obtain ⟨_, _, _, _, _, hp, h⟩ := pushMem_ok.1 h
  exact (push_sameBytesOutside hp).devices (advance_devices h)

theorem callSub_sameBytesOutside {tg : Target} {s t : State} (h : callSub tg s = .ok t) :
    SameBytesOutside s t (spOf s) 2 := by
  obtain ⟨_, _, _, _, hp, rfl⟩ := callSub_ok.1 h
  exact (push_sameBytesOutside hp).devices rfl

/-! ### Every executor -/

/-- An executor changes no byte apart from those of its store span. -/
theorem exec_sameBytes {i : Instr} {s t : State} (h : exec i s = .next t) :
    SameBytesApartFrom s t (storeSpan i s) := by
  cases i with
  | stRr _ _ | stRd8 _ _ | stRd16 _ _ | stRd20 _ _ _ => exact storeWord_sameBytes (outcome_eq_next.1 h)
  | stlRr _ _ | stlRd8 _ _ | stlRd16 _ _ | stlRd20 _ _ _ | sthRr _ _ | sthRd8 _ _ | sthRd16 _ _ | sthRd20 _ _ _ =>
    exact storeByte_sameBytes (outcome_eq_next.1 h)
  | pshI8 _ | pshI16 _ => exact pushImm_sameBytesOutside (outcome_eq_next.1 h)
  | pshR _ => exact pushReg_sameBytesOutside (outcome_eq_next.1 h)
  | pshD8 _ | pshD16 _ | pshD20 _ _ => exact pushMem_sameBytesOutside (outcome_eq_next.1 h)
  | jsrD8 _ | jsrD16 _ | jsrD20 _ _ => exact callSub_sameBytesOutside (outcome_eq_next.1 h)
  | movRr _ _ =>
    obtain ⟨_, _, _, _, h⟩ := moveReg_ok.1 (outcome_eq_next.1 h)
    exact .of_devices (advance_devices h :)
  | ldRi8 _ _ | ldRi16 _ _ =>
    obtain ⟨_, _, h⟩ := loadImm_ok.1 (outcome_eq_next.1 h)
    exact .of_devices (advance_devices h :)
  | ldRr _ _ | ldRd8 _ _ | ldRd16 _ _ | ldRd20 _ _ _ =>
    obtain ⟨_, _, _, _, _, _, h⟩ := loadWord_ok.1 (outcome_eq_next.1 h)
    exact .of_devices (advance_devices h :)
  | ldbRr _ _ | ldbRd8 _ _ | ldbRd16 _ _ | ldbRd20 _ _ _ =>
    obtain ⟨_, _, _, _, _, _, h⟩ := loadByte_ok.1 (outcome_eq_next.1 h)
    exact .of_devices (advance_devices h :)
  | popR _ => exact .of_devices (popReg_devices (outcome_eq_next.1 h))
  | cmpRi8 _ _ | cmpRi16 _ _ | cmpRr _ _ =>
    exact .of_devices (withOperands_devices cmpEffect_only (outcome_eq_next.1 h))
  | addRi8 _ _ | addRi16 _ _ | addRr _ _ =>
    exact .of_devices (withOperands_devices addEffect_only (outcome_eq_next.1 h))
  | subRi8 _ _ | subRi16 _ _ | subRr _ _ =>
    exact .of_devices (withOperands_devices subEffect_only (outcome_eq_next.1 h))
  | andRi8 _ _ | andRi16 _ _ | andRr _ _ =>
    exact .of_devices (withOperands_devices andEffect_only (outcome_eq_next.1 h))
  | orRi8 _ _ | orRi16 _ _ | orRr _ _ =>
    exact .of_devices (withOperands_devices orEffect_only (outcome_eq_next.1 h))
  | xorRi8 _ _ | xorRi16 _ _ | xorRr _ _ =>
    exact .of_devices (withOperands_devices xorEffect_only (outcome_eq_next.1 h))
  | lshRi8 _ _ | lshRi16 _ _ | lshRr _ _ =>
    exact .of_devices (withOperands_devices lshEffect_only (outcome_eq_next.1 h))
  | rshRi8 _ _ | rshRi16 _ _ | rshRr _ _ =>
    exact .of_devices (withOperands_devices rshEffect_only (outcome_eq_next.1 h))
  | mulRi8 _ _ | mulRi16 _ _ | mulRr _ _ =>
    exact .of_devices (withOperands_devices mulEffect_only (outcome_eq_next.1 h))
  | modRi8 _ _ | modRi16 _ _ | modRr _ _ =>
    exact .of_devices (withOperands_devices modEffect_only (outcome_eq_next.1 h))
  | beqD8 _ | beqD16 _ | beqD20 _ _ | bgtD8 _ | bgtD16 _ | bgtD20 _ _ | bltD8 _ | bltD16 _ | bltD20 _ _
  | bofD8 _ | bofD16 _ | bofD20 _ _ | bneD8 _ | bneD16 _ | bneD20 _ _ | bgeD8 _ | bgeD16 _ | bgeD20 _ _
  | bleD8 _ | bleD16 _ | bleD20 _ _ => exact .of_devices (branch_devices (outcome_eq_next.1 h))
  | jmpD8 v => exact .of_devices (jump_devices (tg := .abs8 v) (outcome_eq_next.1 h))
  | jmpD16 w => exact .of_devices (jump_devices (tg := .abs16 w) (outcome_eq_next.1 h))
  | jmpD20 ad lo => exact .of_devices (jump_devices (tg := .abs20 ad lo) (outcome_eq_next.1 h))
  | retN => exact .of_devices (returnSub_devices (outcome_eq_next.1 h))
  | hltN => cases h; exact .of_devices rfl
  | nopN => exact .of_devices (advance_devices (outcome_eq_next.1 h))
  | intI8 _ | intI16 _ => exact .of_devices (requestInterrupt_devices (outcome_eq_next.1 h))
  | reiN => exact .of_devices (returnFromInterrupt_devices (outcome_eq_next.1 h))

/-- Settles O56: the frame of every executor, read off for the two values of its store span. -/
theorem memoryFrame : Obligations.MemoryFrame := by
  intro i s t h
  have hsame := exec_sameBytes h
  exact ⟨fun hnone => by rwa [hnone] at hsame, fun a n hsome => by rwa [hsome] at hsame⟩

end Sys2Proof.Machine

/-! PROOFS. The statements on the encoding: the decoder and the encoder undo each other under every numbering, what the
decode checks, and the reference numbering's bytes. -/

namespace Sys2Proof

open Sys2Proof.Machine

/-! ## Operand bytes and their latches -/

@[simp] theorem loByte_setWidth (b : Byte) : loByte (b.setWidth 16) = b := by
  unfold loByte
  ext i hi
  simpa [hi] using fun _ => Nat.lt_trans hi (by decide)

/-- An AD byte whose upper nibble is 0 is its lower nibble, extended (R99, R107). -/
theorem adByte_of_adHigh : ∀ t : Byte, adHigh t = 0 → (t.extractLsb' 0 4).setWidth 8 = t := by
  unfold adHigh; decide

@[simp] theorem adHigh_setWidth : ∀ ad : Nibble, adHigh (ad.setWidth 8) = 0 := by decide

@[simp] theorem adLow_setWidth : ∀ ad : Nibble, (ad.setWidth 8).extractLsb' 0 4 = ad := by decide

/-- The bytes `bs` latch as `l` with the AD upper nibble `adhi` and leave `tl`: one case for each width code (R99). -/
inductive LatchedFrom : List Byte → Latches → Nibble → List Byte → Prop where
  | byte {b0 b1 b : Byte} {tl : List Byte} (hw : widthOf (wordOfBytes b0 b1) = .byte) :
    LatchedFrom (b0 :: b1 :: b :: tl) (.ofByte (wordOfBytes b0 b1) b) 0 tl
  | word {b0 b1 hi lo : Byte} {tl : List Byte} (hw : widthOf (wordOfBytes b0 b1) = .word) :
    LatchedFrom (b0 :: b1 :: hi :: lo :: tl) (.ofWord (wordOfBytes b0 b1) (wordOfBytes hi lo)) 0 tl
  | long {b0 b1 t hi lo : Byte} {tl : List Byte} (hw : widthOf (wordOfBytes b0 b1) = .long) :
    LatchedFrom (b0 :: b1 :: t :: hi :: lo :: tl) (.ofLong (wordOfBytes b0 b1) t (wordOfBytes hi lo)) (adHigh t) tl
  | none {b0 b1 : Byte} {tl : List Byte} (hw : widthOf (wordOfBytes b0 b1) = .none) :
    LatchedFrom (b0 :: b1 :: tl) (.ofNone (wordOfBytes b0 b1)) 0 tl

theorem latchBytes_some_iff {bs tl : List Byte} {l : Latches} {adhi : Nibble} :
    latchBytes bs = some (l, adhi, tl) ↔ LatchedFrom bs l adhi tl := by
  constructor
  · intro h
    unfold latchBytes at h
    split at h
    · dsimp only at h
      split at h
      · cases h; exact .byte ‹_›
      · cases h; exact .word ‹_›
      · cases h; exact .long ‹_›
      · cases h; exact .none ‹_›
      · cases h
    · cases h
  · intro h
    cases h with
    | byte hw | word hw | long hw | none hw => simp [latchBytes, hw]

/-- The operand bytes that latched words come from (R99). -/
def Latches.operand (l : Latches) : List Byte :=
  match widthOf l.ir with
  | .byte => [loByte l.dr]
  | .word => [hiByte l.dr, loByte l.dr]
  | .long => [l.ad.setWidth 8, hiByte l.dr, loByte l.dr]
  | .none => []

/-- Latched words lose nothing of their bytes but the AD upper nibble. -/
theorem LatchedFrom.bytes {bs tl : List Byte} {l : Latches} {adhi : Nibble} (h : LatchedFrom bs l adhi tl)
    (hadhi : widthOf l.ir = .long → adhi = 0) : bs = hiByte l.ir :: loByte l.ir :: (l.operand ++ tl) := by
  cases h with
  | byte hw => simp [Latches.operand, Latches.ofByte, hw]
  | word hw => simp [Latches.operand, Latches.ofWord, hw]
  | long hw => simp [Latches.operand, Latches.ofLong, hw, adByte_of_adHigh _ (hadhi hw)]
  | none hw => simp [Latches.operand, Latches.ofNone, hw]

/-! ## The checks of the decode -/

theorem decodeLatches_none {N : Numbering} {l : Latches} (adhi : Nibble) (h : lookup N (hiByte l.ir) = none) :
    decodeLatches N l adhi = .error (.invalidOpcode (hiByte l.ir)) := by
  simp [decodeLatches, opcodeByteOf, h]

theorem decodeLatches_badForm {N : Numbering} {l : Latches} {adhi : Nibble} {row : Row}
    (h : lookup N (hiByte l.ir) = some row) (hc : checkForm row.shape.form l.ir adhi = false) :
    decodeLatches N l adhi = .error (.badForm l.ir) := by
  simp [decodeLatches, opcodeByteOf, h, hc]

theorem decodeLatches_build {N : Numbering} {l : Latches} {adhi : Nibble} {row : Row} {i : Instr}
    (h : lookup N (hiByte l.ir) = some row) (hc : checkForm row.shape.form l.ir adhi = true)
    (hb : row.shape.build l = some i) : decodeLatches N l adhi = .ok i := by
  simp [decodeLatches, opcodeByteOf, h, hc, hb]

/-- An accepted decode, inverted: the entry of the opcode byte, its checks passed, and what it builds. -/
theorem decodeLatches_ok {N : Numbering} {l : Latches} {adhi : Nibble} {i : Instr}
    (h : decodeLatches N l adhi = .ok i) :
    ∃ row, lookup N (hiByte l.ir) = some row ∧ checkForm row.shape.form l.ir adhi = true ∧
      row.shape.build l = some i := by
  cases hl : lookup N (hiByte l.ir) with
  | none => rw [decodeLatches_none adhi hl] at h; cases h
  | some row =>
    cases hc : checkForm row.shape.form l.ir adhi with
    | false => rw [decodeLatches_badForm hl hc] at h; cases h
    | true =>
      obtain ⟨j, hb⟩ := row.shape.build_isSome l (checkForm_iff.1 hc).1
      rw [decodeLatches_build hl hc hb] at h
      cases h
      exact ⟨row, rfl, hc, hb⟩

theorem Form.nibbleUnused_iff (f : Form) : f.nibbleUnused = true ↔ f = .i ∨ f = .d ∨ f = .n := by
  cases f <;> decide

/-- Settles O5: the lookup decides first, then the four checks of R107 as `checkForm_iff` lists them. -/
theorem decodeChecks : Obligations.DecodeChecks := by
  intro N l adhi
  refine ⟨decodeLatches_none adhi, fun row hrow => ?_⟩
  dsimp only
  rw [← Form.nibbleUnused_iff, ← nibbleOf, ← reservedOf, ← checkForm_iff]
  refine ⟨fun hc => decodeLatches_badForm hrow (by simpa using hc), fun hc => ?_⟩
  obtain ⟨i, hi⟩ := row.shape.build_isSome l (checkForm_iff.1 hc).1
  exact ⟨i, decodeLatches_build hrow hc hi⟩

/-- An accepted list of bytes, inverted: its latches, and their decode. -/
theorem decodeWith_ok_iff {N : Numbering} {bs rest : List Byte} {i : Instr} :
    decodeWith N bs = .ok (i, rest) ↔
      ∃ l adhi, LatchedFrom bs l adhi rest ∧ decodeLatches N l adhi = .ok i := by
  simp only [← latchBytes_some_iff, decodeWith]
  cases latchBytes bs with
  | none => simp
  | some q =>
    obtain ⟨l, adhi, tl⟩ := q
    cases hd : decodeLatches N l adhi with
    | error k => simp [Except.map, hd]
    | ok j => simp [Except.map, hd, and_comm]

/-! ## What an entry builds -/

section Build

variable {l : Latches} {i : Instr}

theorem Shape.build_rr {mk : Nibble → Byte → Instr} :
    (Shape.rr mk).build l = some i ↔ widthOf l.ir = .byte ∧ mk (nibbleOf l.ir) (loByte l.dr) = i := by
  cases hw : widthOf l.ir <;> simp [Shape.build, hw]

theorem Shape.build_ri {mk8 : Nibble → Byte → Instr} {mk16 : Nibble → Word → Instr} :
    (Shape.ri mk8 mk16).build l = some i ↔
      (widthOf l.ir = .byte ∧ mk8 (nibbleOf l.ir) (loByte l.dr) = i) ∨
        (widthOf l.ir = .word ∧ mk16 (nibbleOf l.ir) l.dr = i) := by
  cases hw : widthOf l.ir <;> simp [Shape.build, hw]

theorem Shape.build_rd {mk8 : Nibble → Byte → Instr} {mk16 : Nibble → Word → Instr}
    {mk20 : Nibble → Nibble → Word → Instr} :
    (Shape.rd mk8 mk16 mk20).build l = some i ↔
      (widthOf l.ir = .byte ∧ mk8 (nibbleOf l.ir) (loByte l.dr) = i) ∨
        (widthOf l.ir = .word ∧ mk16 (nibbleOf l.ir) l.dr = i) ∨
          (widthOf l.ir = .long ∧ mk20 (nibbleOf l.ir) l.ad l.dr = i) := by
  cases hw : widthOf l.ir <;> simp [Shape.build, hw]

theorem Shape.build_r {mk : Nibble → Instr} :
    (Shape.r mk).build l = some i ↔ widthOf l.ir = .none ∧ mk (nibbleOf l.ir) = i := by
  cases hw : widthOf l.ir <;> simp [Shape.build, hw]

theorem Shape.build_i {mk8 : Byte → Instr} {mk16 : Word → Instr} :
    (Shape.i mk8 mk16).build l = some i ↔
      (widthOf l.ir = .byte ∧ mk8 (loByte l.dr) = i) ∨ (widthOf l.ir = .word ∧ mk16 l.dr = i) := by
  cases hw : widthOf l.ir <;> simp [Shape.build, hw]

theorem Shape.build_d {mk8 : Byte → Instr} {mk16 : Word → Instr} {mk20 : Nibble → Word → Instr} :
    (Shape.d mk8 mk16 mk20).build l = some i ↔
      (widthOf l.ir = .byte ∧ mk8 (loByte l.dr) = i) ∨ (widthOf l.ir = .word ∧ mk16 l.dr = i) ∨
        (widthOf l.ir = .long ∧ mk20 l.ad l.dr = i) := by
  cases hw : widthOf l.ir <;> simp [Shape.build, hw]

theorem Shape.build_n {mk : Instr} : (Shape.n mk).build l = some i ↔ widthOf l.ir = .none ∧ mk = i := by
  cases hw : widthOf l.ir <;> simp [Shape.build, hw]

theorem Shape.legalWidth_of_build {sh : Shape} (h : sh.build l = some i) :
    sh.form.legalWidth (widthOf l.ir) = true := by
  cases sh with
  | rr => rw [(build_rr.1 h).1]; rfl
  | r => rw [(build_r.1 h).1]; rfl
  | n => rw [(build_n.1 h).1]; rfl
  | ri => obtain ⟨hw, _⟩ | ⟨hw, _⟩ := build_ri.1 h <;> rw [hw] <;> rfl
  | i => obtain ⟨hw, _⟩ | ⟨hw, _⟩ := build_i.1 h <;> rw [hw] <;> rfl
  | rd => obtain ⟨hw, _⟩ | ⟨hw, _⟩ | ⟨hw, _⟩ := build_rd.1 h <;> rw [hw] <;> rfl
  | d => obtain ⟨hw, _⟩ | ⟨hw, _⟩ | ⟨hw, _⟩ := build_d.1 h <;> rw [hw] <;> rfl

end Build

/-! ## The table's entries against the encoder -/

/-- The pieces of the encoding that latched words come from, under an entry of the table. -/
def Row.parts (row : Row) (l : Latches) : Parts := ⟨row.op, row.mode, widthOf l.ir, nibbleOf l.ir, l.operand⟩

/-- The constructors of an entry's shape are encoded with its mnemonic and mode, in its form (R101, R106). -/
def Row.Agrees (row : Row) : Prop :=
  match row.shape with
  | .rr con => row.mode = .register ∧ ∀ a b, (con a b).parts = .rr row.op a b
  | .ri con8 con16 => row.mode = .immediate ∧ (∀ a v, (con8 a v).parts = .ri8 row.op a v) ∧
      ∀ a v, (con16 a v).parts = .ri16 row.op a v
  | .rd con8 con16 con20 => row.mode = .direct ∧ (∀ a v, (con8 a v).parts = .rd8 row.op a v) ∧
      (∀ a v, (con16 a v).parts = .rd16 row.op a v) ∧ ∀ a ad lo, (con20 a ad lo).parts = .rd20 row.op a ad lo
  | .r con => row.mode = .register ∧ ∀ a, (con a).parts = .r row.op a
  | .i con8 con16 => row.mode = .immediate ∧ (∀ v, (con8 v).parts = .i8 row.op v) ∧
      ∀ v, (con16 v).parts = .i16 row.op v
  | .d con8 con16 con20 => row.mode = .direct ∧ (∀ v, (con8 v).parts = .d8 row.op v) ∧
      (∀ v, (con16 v).parts = .d16 row.op v) ∧ ∀ ad lo, (con20 ad lo).parts = .d20 row.op ad lo
  | .n con => row.mode = .discard ∧ con.parts = .n row.op

/-- The table of the decoder and the table of the encoder agree, entry by entry. -/
theorem opcodeTable_agrees : ∀ row ∈ opcodeTable, row.Agrees := by
  simp only [opcodeTable, rowsDataMovement, rowsArithLogic, rowsControl, rowsSystem, List.forall_mem_append,
    List.forall_mem_cons, List.not_mem_nil, false_imp_iff, implies_true, and_true, true_and, Row.Agrees]
  and_intros <;> intros <;> rfl

/-- What an agreeing entry builds of latched words is encoded with the pieces they come from. -/
theorem Row.Agrees.parts_of_build {row : Row} {l : Latches} {i : Instr} (h : row.Agrees)
    (hn : row.shape.form.nibbleUnused = true → nibbleOf l.ir = 0) (hb : row.shape.build l = some i) :
    i.parts = row.parts l := by
  obtain ⟨op, mode, shape⟩ := row
  unfold Row.parts Latches.operand
  cases shape with
  | rr mk =>
    obtain ⟨rfl, hmk⟩ := h
    obtain ⟨hw, rfl⟩ := Shape.build_rr.1 hb
    rw [hmk, hw, Parts.rr]
  | ri mk8 mk16 =>
    obtain ⟨rfl, hmk8, hmk16⟩ := h
    obtain ⟨hw, rfl⟩ | ⟨hw, rfl⟩ := Shape.build_ri.1 hb
    · rw [hmk8, hw, Parts.ri8]
    · rw [hmk16, hw, Parts.ri16]
  | rd mk8 mk16 mk20 =>
    obtain ⟨rfl, hmk8, hmk16, hmk20⟩ := h
    obtain ⟨hw, rfl⟩ | ⟨hw, rfl⟩ | ⟨hw, rfl⟩ := Shape.build_rd.1 hb
    · rw [hmk8, hw, Parts.rd8]
    · rw [hmk16, hw, Parts.rd16]
    · rw [hmk20, hw, Parts.rd20]
  | r mk =>
    obtain ⟨rfl, hmk⟩ := h
    obtain ⟨hw, rfl⟩ := Shape.build_r.1 hb
    rw [hmk, hw, Parts.r]
  | i mk8 mk16 =>
    obtain ⟨rfl, hmk8, hmk16⟩ := h
    obtain ⟨hw, rfl⟩ | ⟨hw, rfl⟩ := Shape.build_i.1 hb
    · rw [hmk8, hw, hn rfl, Parts.i8]
    · rw [hmk16, hw, hn rfl, Parts.i16]
  | d mk8 mk16 mk20 =>
    obtain ⟨rfl, hmk8, hmk16, hmk20⟩ := h
    obtain ⟨hw, rfl⟩ | ⟨hw, rfl⟩ | ⟨hw, rfl⟩ := Shape.build_d.1 hb
    · rw [hmk8, hw, hn rfl, Parts.d8]
    · rw [hmk16, hw, hn rfl, Parts.d16]
    · rw [hmk20, hw, hn rfl, Parts.d20]
  | n mk =>
    obtain ⟨rfl, hmk⟩ := h
    obtain ⟨hw, rfl⟩ := Shape.build_n.1 hb
    rw [hmk, hw, hn rfl, Parts.n]

/-- Settles O3: the opcode byte is the one the lookup matched, the meta byte is made of its fields once the form checks
pass, and the operand bytes are those the latches come from. -/
theorem acceptedBytesAreTheEncoding : Obligations.AcceptedBytesAreTheEncoding := by
  intro N bs i rest h
  obtain ⟨l, adhi, hl, hd⟩ := decodeWith_ok_iff.1 h
  obtain ⟨row, hrow, hc, hb⟩ := decodeLatches_ok hd
  obtain ⟨_, hreserved, hnibble, hadhi⟩ := checkForm_iff.1 hc
  obtain ⟨hmem, hopcode⟩ := lookup_some hrow
  rw [hl.bytes hadhi, encodeWith, (opcodeTable_agrees row hmem).parts_of_build hnibble hb]
  simp [Row.parts, metaByte_fields l.ir hreserved, hopcode]

/-! ## Every instruction against the table -/

/-- An opcode word with a register nibble and a width code; its opcode byte does not matter to what an entry builds. -/
def irWith (a : Nibble) (w : Width) : Word := wordOfBytes 0 (metaByte a w)

@[simp] theorem nibbleOf_irWith (a : Nibble) (w : Width) : nibbleOf (irWith a w) = a := nibbleOf_metaByte 0 a w

@[simp] theorem widthOf_irWith (a : Nibble) (w : Width) : widthOf (irWith a w) = w := widthOf_metaByte 0 a w

/-- Every instruction is built by the entry of its mnemonic and mode, from words that pass the entry's nibble check. -/
theorem Instr.built (i : Instr) :
    ∃ row, opcodeTable.find? (fun row => decide (row.op = i.parts.op ∧ row.mode = i.parts.mode)) = some row ∧
      ∃ l, row.shape.build l = some i ∧ (row.shape.form.nibbleUnused = true → nibbleOf l.ir = 0) := by
  cases i with
  | movRr a v | ldRi8 a v | ldRr a v | ldRd8 a v | ldbRr a v | ldbRd8 a v | stRr a v | stRd8 a v | stlRr a v
  | stlRd8 a v | sthRr a v | sthRd8 a v | cmpRi8 a v | cmpRr a v | addRi8 a v | addRr a v | subRi8 a v
  | subRr a v | andRi8 a v | andRr a v | orRi8 a v | orRr a v | xorRi8 a v | xorRr a v | lshRi8 a v | lshRr a v
  | rshRi8 a v | rshRr a v | mulRi8 a v | mulRr a v | modRi8 a v | modRr a v =>
    exact ⟨_, rfl, .ofByte (irWith a .byte) v, by simp [Shape.build, Latches.ofByte], nofun⟩
  | ldRi16 a w | ldRd16 a w | ldbRd16 a w | stRd16 a w | stlRd16 a w | sthRd16 a w | cmpRi16 a w | addRi16 a w
  | subRi16 a w | andRi16 a w | orRi16 a w | xorRi16 a w | lshRi16 a w | rshRi16 a w | mulRi16 a w
  | modRi16 a w =>
    exact ⟨_, rfl, .ofWord (irWith a .word) w, by simp [Shape.build, Latches.ofWord], nofun⟩
  | ldRd20 a ad lo | ldbRd20 a ad lo | stRd20 a ad lo | stlRd20 a ad lo | sthRd20 a ad lo =>
    exact ⟨_, rfl, .ofLong (irWith a .long) (ad.setWidth 8) lo, by simp [Shape.build, Latches.ofLong], nofun⟩
  | pshR a | popR a =>
    exact ⟨_, rfl, .ofNone (irWith a .none), by simp [Shape.build, Latches.ofNone], nofun⟩
  | pshI8 v | pshD8 v | beqD8 v | bgtD8 v | bltD8 v | bofD8 v | bneD8 v | jmpD8 v | jsrD8 v | intI8 v | bgeD8 v
  | bleD8 v =>
    exact ⟨_, rfl, .ofByte (irWith 0 .byte) v, by simp [Shape.build, Latches.ofByte],
      fun _ => nibbleOf_irWith 0 _⟩
  | pshI16 w | pshD16 w | beqD16 w | bgtD16 w | bltD16 w | bofD16 w | bneD16 w | jmpD16 w | jsrD16 w | intI16 w
  | bgeD16 w | bleD16 w =>
    exact ⟨_, rfl, .ofWord (irWith 0 .word) w, by simp [Shape.build, Latches.ofWord],
      fun _ => nibbleOf_irWith 0 _⟩
  | pshD20 ad lo | beqD20 ad lo | bgtD20 ad lo | bltD20 ad lo | bofD20 ad lo | bneD20 ad lo | jmpD20 ad lo
  | jsrD20 ad lo | bgeD20 ad lo | bleD20 ad lo =>
    exact ⟨_, rfl, .ofLong (irWith 0 .long) (ad.setWidth 8) lo, by simp [Shape.build, Latches.ofLong],
      fun _ => nibbleOf_irWith 0 _⟩
  | retN | hltN | nopN | reiN =>
    exact ⟨_, rfl, .ofNone (irWith 0 .none), by simp [Shape.build, Latches.ofNone],
      fun _ => nibbleOf_irWith 0 _⟩

/-! ## The encoder against the decoder -/

/-- Bytes encoded from latched words latch as words of which every shape builds the same. -/
theorem latchedFrom_encoding (b0 : Byte) (l : Latches) (tl : List Byte) :
    ∃ l', LatchedFrom (b0 :: metaByte (nibbleOf l.ir) (widthOf l.ir) :: (l.operand ++ tl)) l' 0 tl ∧
      l'.ir = wordOfBytes b0 (metaByte (nibbleOf l.ir) (widthOf l.ir)) ∧
      ∀ sh : Shape, sh.build l' = sh.build l := by
  have hmeta := widthOf_metaByte b0 (nibbleOf l.ir) (widthOf l.ir)
  cases hw : widthOf l.ir with
  | byte =>
    refine ⟨_, by simpa [Latches.operand, hw] using .byte (hw ▸ hmeta), rfl, fun sh => ?_⟩
    cases sh <;> simp [Shape.build, Latches.ofByte, hw]
  | word =>
    refine ⟨_, by simpa [Latches.operand, hw] using .word (hw ▸ hmeta), rfl, fun sh => ?_⟩
    cases sh <;> simp [Shape.build, Latches.ofWord, hw]
  | long =>
    have hlong := LatchedFrom.long (t := l.ad.setWidth 8) (hi := hiByte l.dr) (lo := loByte l.dr) (tl := tl)
      (hw ▸ hmeta)
    refine ⟨_, by simpa [Latches.operand, hw] using adHigh_setWidth l.ad ▸ hlong, rfl, fun sh => ?_⟩
    cases sh <;> simp [Shape.build, Latches.ofLong, hw]
  | none =>
    refine ⟨_, by simpa [Latches.operand, hw] using .none (hw ▸ hmeta), rfl, fun sh => ?_⟩
    cases sh <;> simp [Shape.build, Latches.ofNone, hw]

/-- Settles O2: the entry of an instruction's mnemonic and mode builds it from words whose pieces are those of its
encoding; the encoding latches as words that build the same, and an injective numbering looks up that entry. -/
theorem decodeEncodeEveryNumbering : Obligations.DecodeEncodeEveryNumbering := by
  intro N hN i rest
  obtain ⟨row, hrow, l, hb, hnibble⟩ := i.built
  have hparts := (opcodeTable_agrees row (List.mem_of_find?_eq_some hrow)).parts_of_build hnibble hb
  obtain ⟨l', hl, hir, hsame⟩ := latchedFrom_encoding (N.opcodeByte i.parts.op i.parts.mode) l rest
  have hbytes : encodeWith N i ++ rest = N.opcodeByte i.parts.op i.parts.mode ::
      metaByte (nibbleOf l.ir) (widthOf l.ir) :: (l.operand ++ rest) := by
    simp [encodeWith, hparts, Row.parts]
  refine decodeWith_ok_iff.2 ⟨l', 0, hbytes ▸ hl, decodeLatches_build (row := row) ?_ ?_ (hsame _ ▸ hb)⟩
  · rw [hir, hiByte_wordOfBytes, lookup_opcodeByte hN, hrow]
  · rw [checkForm_iff, hir, widthOf_metaByte, nibbleOf_metaByte]
    exact ⟨Shape.legalWidth_of_build hb, reservedOf_metaByte .., hnibble, fun _ => rfl⟩

/-! ## The reference numbering -/

/-- Settles O1: six concrete encodings, each evaluated both ways. -/
theorem workedEncodings : Obligations.WorkedEncodings := by
  unfold Obligations.WorkedEncodings
  decide

/-- The lookup evaluated at every opcode byte. -/
theorem legal_opcode_bytes :
    ((List.range 256).filter (fun b => (lookup Config.numbering (BitVec.ofNat 8 b)).isSome)).length = 50 := by
  decide

/-- Settles O4: the illegal bytes are those of the 256 that are not legal. -/
theorem legalOpcodeBytes : Obligations.LegalOpcodeBytes := by
  have hsplit := List.length_eq_length_filter_add (l := List.range 256)
    (fun b => (lookup Config.numbering (BitVec.ofNat 8 b)).isSome)
  simp only [legal_opcode_bytes, List.length_range, Option.not_isSome] at hsplit
  exact ⟨legal_opcode_bytes, by omega⟩

end Sys2Proof

/-! PROOFS. The statements on the tick: what the fetch latches, and that a tick runs the instruction it has fetched and
decoded, from the bytes at the PC up. -/

namespace Sys2Proof

/-- The width code of an opcode word is the one whose bits its bits 3:2 are (R94, R99). -/
theorem widthOf_eq_iff (ir : Word) (w : Width) : widthOf ir = w ↔ ir.extractLsb' 2 2 = w.bits := by
  unfold widthOf
  generalize ir.extractLsb' 2 2 = b
  revert b; cases w <;> decide

theorem Width.length_eq_five_iff (w : Width) : w.length = 5 ↔ w = .long := by cases w <;> decide

/-- The bytes that latch as `l` are as many as its length says, and the rest. -/
theorem LatchedFrom.length_eq {bs tl : List Byte} {l : Latches} {adhi : Nibble} (h : LatchedFrom bs l adhi tl) :
    bs.length = l.len + tl.length ∧ l.len = (widthOf l.ir).length := by
  cases h with
  | byte hw | word hw | long hw | none hw =>
    simp [Latches.ofByte, Latches.ofWord, Latches.ofLong, Latches.ofNone, hw, Width.length]
    omega

end Sys2Proof

namespace Sys2Proof.Machine

open Sys2Proof.Claims

/-! ## The fetch by width code -/

section Fetch

variable {s : State} {ir : Word}

theorem fetch_byte {b : Byte} (hir : memReadWord s.regs.pc.toNat s = .ok ir) (hw : widthOf ir = .byte)
    (hb : memReadByte (s.regs.pc.toNat + 2) s = .ok b) : fetch s = .ok (s.latched (.ofByte ir b), 0) := by
  simp [fetch, hir, hw, hb]

theorem fetch_word {w : Word} (hir : memReadWord s.regs.pc.toNat s = .ok ir) (hw : widthOf ir = .word)
    (hv : memReadWord (s.regs.pc.toNat + 2) s = .ok w) : fetch s = .ok (s.latched (.ofWord ir w), 0) := by
  simp [fetch, hir, hw, hv]

theorem fetch_long {t : Byte} {w : Word} (hir : memReadWord s.regs.pc.toNat s = .ok ir) (hw : widthOf ir = .long)
    (ht : memReadByte (s.regs.pc.toNat + 2) s = .ok t) (hv : memReadWord (s.regs.pc.toNat + 3) s = .ok w) :
    fetch s = .ok (s.latched (.ofLong ir t w), adHigh t) := by
  simp [fetch, hir, hw, ht, hv]

theorem fetch_none (hir : memReadWord s.regs.pc.toNat s = .ok ir) (hw : widthOf ir = .none) :
    fetch s = .ok (s.latched (.ofNone ir), 0) := by
  simp [fetch, hir, hw]

end Fetch

/-- A fetched state, its D flag written out for the width code of the opcode word. -/
theorem State.latched_eq (s : State) (l : Latches) {d : Bool} (hd : decide (widthOf l.ir = .long) = d) :
    s.latched l = { s with latches := l, flags := { s.flags with d := d } } := by
  rw [← hd]; rfl

/-- Settles O6: the fetch of each width code, its D flag evaluated. -/
theorem fetchByWidthCode : Obligations.FetchByWidthCode := by
  intro s ir hir
  refine ⟨fun hb b hv => ?_, fun hb w hv => ?_, fun hb t w ht hv => ?_, fun hb => ?_⟩
  · have hw := (widthOf_eq_iff ir .byte).2 hb
    rw [fetch_byte hir hw hv, s.latched_eq (.ofByte ir b) (d := false) (by simp [Latches.ofByte, hw])]
    rfl
  · have hw := (widthOf_eq_iff ir .word).2 hb
    rw [fetch_word hir hw hv, s.latched_eq (.ofWord ir w) (d := false) (by simp [Latches.ofWord, hw])]
    rfl
  · have hw := (widthOf_eq_iff ir .long).2 hb
    rw [fetch_long hir hw ht hv, s.latched_eq (.ofLong ir t w) (d := true) (by simp [Latches.ofLong, hw])]
    rfl
  · have hw := (widthOf_eq_iff ir .none).2 hb
    rw [fetch_none hir hw, s.latched_eq (.ofNone ir) (d := false) (by simp [Latches.ofNone, hw])]
    rfl

/-! ## The tick of a fetched and decoded instruction -/

theorem fetchDecode_of_fetch {N : Numbering} {s s' : State} {adhi : Nibble} {i : Instr}
    (hf : fetch s = .ok (s', adhi)) (hd : decodeLatches N s'.latches adhi = .ok i) :
    fetchDecode N s = .ok (s', i) := by
  simp [fetchDecode, hf, hd, decodeFault]

/-- A tick that fetches and decodes `i` is `exec i` on the latched state, and then the end of the tick (R111). -/
theorem tick_of_fetch {N : Numbering} {s s' : State} {adhi : Nibble} {i : Instr} (hfault : s.fault = none)
    (hrun : s.running = true) (hirq : s.irq.pending = false) (hf : fetch s = .ok (s', adhi))
    (hd : decodeLatches N s'.latches adhi = .ok i) : tick N s = endTick (exec i s') := by
  simp [tick, hfault, hrun, hirq, runInstr, fetchDecode_of_fetch hf hd]

/-- Settles O7, from the tick of a fetched instruction and the two ends of a tick. -/
theorem stepRunsDecodedInstruction : Obligations.StepRunsDecodedInstruction := by
  intro s s' adhi i hfault hrun hirq hf hd
  have hstep : step s = endTick (exec i s') := tick_of_fetch hfault hrun hirq hf hd
  exact ⟨fun t ht => by rw [hstep, ht]; rfl, fun k hk => by rw [hstep, hk]; rfl⟩

end Sys2Proof.Machine

namespace Sys2Proof.Claims

open Sys2Proof.Machine

/-! ## The bytes at the PC -/

theorem HeldAt.tail {s : State} {a : Nat} {b : Byte} {bs : List Byte} (h : HeldAt s a (b :: bs)) :
    HeldAt s (a + 1) bs := by
  obtain ⟨d, hr, hd⟩ := h
  refine ⟨d, hr, fun k hk => ?_⟩
  rw [Nat.add_right_comm]
  exact hd (k + 1) (Nat.succ_lt_succ hk)

/-- The first two of the held bytes are read as a word. -/
theorem HeldAt.firstWord {s : State} {a : Nat} {b c : Byte} {bs : List Byte} (h : HeldAt s a (b :: c :: bs)) :
    memReadWord a s = .ok (wordOfBytes b c) := by
  obtain ⟨d, hr, hd⟩ := h
  refine HeldAt.readWord ⟨d, hr, fun k hk => ?_⟩
  have hk' := hd k (by simp at hk ⊢; omega)
  rwa [← List.getElem_append_left (as := [b, c]) (bs := bs) hk]

/-- Held bytes are fetched as they latch. -/
theorem HeldAt.fetch {s : State} {bs tl : List Byte} {l : Latches} {adhi : Nibble}
    (h : HeldAt s s.regs.pc.toNat bs) (hl : LatchedFrom bs l adhi tl) :
    Machine.fetch s = .ok (s.latched l, adhi) := by
  cases hl with
  | byte hw => exact fetch_byte h.firstWord hw (h.readByte 2 (by simp))
  | word hw => exact fetch_word h.firstWord hw h.tail.tail.firstWord
  | long hw => exact fetch_long h.firstWord hw (h.readByte 2 (by simp)) h.tail.tail.tail.firstWord
  | none hw => exact fetch_none h.firstWord hw

end Sys2Proof.Claims

namespace Sys2Proof.Machine

/-- Settles O8: accepted bytes latch, and held at the PC they are fetched so; their number is the length of the width
code. -/
theorem stepRunsBytesAtPc : Obligations.StepRunsBytesAtPc := by
  intro s bs i hfault hrun hirq hdecode hheld
  obtain ⟨l, adhi, hl, hd⟩ := decodeWith_ok_iff.1 hdecode
  obtain ⟨hlen, hwidth⟩ := hl.length_eq
  have hd5 : decide (widthOf l.ir = .long) = decide (bs.length = 5) := by
    simp [hlen, hwidth, Width.length_eq_five_iff]
  exact ⟨s.latched l, s.latched_eq l hd5, by simp [hlen], tick_of_fetch hfault hrun hirq (hheld.fetch hl) hd⟩

end Sys2Proof.Machine

/-! PROOFS. The statements on register indices and refusals: an executor checks the indices of its instruction in order
and raises InvalidRegister for nothing else, and no instruction and no tick is refused. -/

namespace Sys2Proof.Machine

/-! ## Operations that raise no InvalidRegister -/

/-- The operation raises no InvalidRegister. -/
def NoRegisterFault {α : Type} (x : Except Fault α) : Prop := ∀ n, x ≠ .error (.invalidRegister n)

namespace NoRegisterFault

theorem ok {α : Type} (v : α) : NoRegisterFault (.ok v) := nofun

theorem bind {α β : Type} {x : Except Fault α} {f : α → Except Fault β} (hx : NoRegisterFault x)
    (hf : ∀ v, NoRegisterFault (f v)) : NoRegisterFault (x >>= f) := by
  intro n h
  rcases Except.bind_eq_error_iff.1 h with h | ⟨v, _, h⟩
  · exact hx n h
  · exact hf v n h

theorem advance (len : Nat) (s : State) : NoRegisterFault (Machine.advance len s) :=
  fun _ h => nomatch (advance_error.1 h).2

theorem memReadByte (a : Nat) (s : State) : NoRegisterFault (Machine.memReadByte a s) :=
  fun _ h => nomatch (memReadByte_error h).choose_spec

theorem memReadWord (a : Nat) (s : State) : NoRegisterFault (Machine.memReadWord a s) :=
  fun _ h => nomatch (memReadWord_error h).choose_spec

theorem memWriteByte (a : Nat) (v : Byte) (s : State) : NoRegisterFault (Machine.memWriteByte a v s) :=
  fun _ h => nomatch (memWriteByte_error.1 h).choose_spec.1

theorem memWriteWord (a : Nat) (v : Word) (s : State) : NoRegisterFault (Machine.memWriteWord a v s) :=
  fun _ h => nomatch (memWriteWord_error.1 h).choose_spec.1

theorem push (v : Word) (s : State) : NoRegisterFault (Machine.push v s) := by
  intro n h
  obtain ⟨_, ⟨⟩⟩ | ⟨_, h⟩ := push_error.1 h
  exact memWriteWord _ _ _ n h

theorem pop (s : State) : NoRegisterFault (Machine.pop s) := by
  intro n h
  obtain ⟨_, ⟨⟩⟩ | ⟨_, h⟩ := pop_error.1 h
  exact memReadWord _ _ n h

theorem popRegs (xs : List Reg) (s : State) : NoRegisterFault (Machine.popRegs xs s) := by
  intro n h
  obtain ⟨u, hu⟩ := popRegs_error h
  exact pop u n hu

theorem target (t : Target) : NoRegisterFault t.value := by
  intro n h
  obtain ⟨_, _, _, _, ⟨⟩⟩ := Target.value_error.1 h

theorem branch (cond : Flags → Bool) (t : Target) (s : State) : NoRegisterFault (Machine.branch cond t s) := by
  intro n h
  obtain h | ⟨_, _, _, h⟩ := branch_error.1 h
  · exact target t n h
  · exact advance _ _ n h

theorem jump (t : Target) (s : State) : NoRegisterFault (Machine.jump t s) :=
  fun n h => target t n (jump_error.1 h)

theorem callSub (t : Target) (s : State) : NoRegisterFault (Machine.callSub t s) := by
  intro n h
  obtain h | ⟨_, _, ⟨_, ⟨⟩⟩ | ⟨_, h⟩⟩ := callSub_error.1 h
  · exact target t n h
  · exact push _ _ n h

theorem returnSub (s : State) : NoRegisterFault (Machine.returnSub s) :=
  fun n h => pop s n (returnSub_error.1 h)

theorem requestInterrupt (len : Nat) (v : Word) (s : State) : NoRegisterFault (Machine.requestInterrupt len v s) := by
  intro n h
  obtain ⟨_, ⟨⟩⟩ | ⟨_, h⟩ := requestInterrupt_error.1 h
  exact advance _ _ n h

theorem returnFromInterrupt (s : State) : NoRegisterFault (Machine.returnFromInterrupt s) :=
  (pop s).bind fun _ => (pop _).bind fun _ => popRegs _ _

theorem pushImm (len : Nat) (v : Word) (s : State) : NoRegisterFault (Machine.pushImm len v s) :=
  (push v s).bind fun _ => advance _ _

theorem lshEffect (x : Reg) (v : Word) (s : State) : NoRegisterFault (Machine.lshEffect x v s) :=
  fun _ h => nomatch (lshEffect_error.1 h).2

theorem rshEffect (x : Reg) (v : Word) (s : State) : NoRegisterFault (Machine.rshEffect x v s) :=
  fun _ h => nomatch (rshEffect_error.1 h).2

theorem modEffect (x : Reg) (v : Word) (s : State) : NoRegisterFault (Machine.modEffect x v s) :=
  fun _ h => nomatch (modEffect_error.1 h).2

end NoRegisterFault

/-! ## Operations that check register indices first -/

/-- The operation checks these indices in order before it does anything else (R105, R336): it raises InvalidRegister
for the first of them above 8, and for nothing else. -/
def ChecksIndices {α : Type} : List Nat → Except Fault α → Prop
  | [], x => NoRegisterFault x
  | n :: ns, x => (8 < n → x = .error (.invalidRegister n)) ∧ (n ≤ 8 → ChecksIndices ns x)

namespace ChecksIndices

theorem regIndex_bind {α : Type} {n : Nat} {ns : List Nat} {f : Reg → Except Fault α}
    (hf : ∀ x, ChecksIndices ns (f x)) : ChecksIndices (n :: ns) (regIndex n >>= f) := by
  refine ⟨fun hn => by rw [regIndex_of_gt hn, Except.error_bind], fun hn => ?_⟩
  obtain ⟨x, hx⟩ := Reg.ofIndex_isSome hn
  rw [regIndex_of_some hx, Except.ok_bind]
  exact hf x

theorem bind {α β : Type} {ns : List Nat} {x : Except Fault α} {f : α → Except Fault β} (hx : ChecksIndices ns x)
    (hf : ∀ v, NoRegisterFault (f v)) : ChecksIndices ns (x >>= f) := by
  induction ns with
  | nil => exact NoRegisterFault.bind hx hf
  | cons n ns ih =>
    obtain ⟨hgt, hle⟩ := hx
    exact ⟨fun hn => by rw [hgt hn, Except.error_bind], fun hn => ih (hle hn)⟩

/-- Indices that all name registers raise no InvalidRegister. -/
theorem noRegisterFault {α : Type} {ns : List Nat} {x : Except Fault α} (hx : ChecksIndices ns x)
    (hns : ∀ n ∈ ns, n ≤ 8) : NoRegisterFault x := by
  induction ns with
  | nil => exact hx
  | cons n ns ih =>
    obtain ⟨hn, hns⟩ := List.forall_mem_cons.1 hns
    exact ih (hx.2 hn) hns

end ChecksIndices

/-- The register index of a second operand. -/
def Src.indices : Src → List Nat
  | .imm8 _ | .imm16 _ => []
  | .reg b => [b.toNat]

/-- The register index of a place. -/
def Place.indices : Place → List Nat
  | .abs8 _ | .abs16 _ | .abs20 _ _ => []
  | .ind b => [b.toNat]

namespace ChecksIndices

theorem src (y : Src) (s : State) : ChecksIndices y.indices (y.value s) := by
  cases y with
  | imm8 _ | imm16 _ => exact NoRegisterFault.ok _
  | reg b =>
    refine ⟨fun hb => Src.value_error.2 ⟨b, rfl, hb, rfl⟩, fun hb n h => ?_⟩
    obtain ⟨_, ⟨⟩, hb', _⟩ := Src.value_error.1 h
    omega

theorem place (p : Place) (s : State) : ChecksIndices p.indices (p.addr s) := by
  cases p with
  | abs8 _ | abs16 _ | abs20 _ _ => exact NoRegisterFault.ok _
  | ind b =>
    refine ⟨fun hb => Place.addr_error.2 ⟨b, rfl, hb, rfl⟩, fun hb n h => ?_⟩
    obtain ⟨_, ⟨⟩, hb', _⟩ := Place.addr_error.1 h
    omega

theorem moveReg (a : Nibble) (b : Byte) (s : State) : ChecksIndices [a.toNat, b.toNat] (Machine.moveReg a b s) :=
  regIndex_bind fun _ => regIndex_bind fun _ => NoRegisterFault.advance _ _

theorem loadImm (len : Nat) (a : Nibble) (v : Word) (s : State) :
    ChecksIndices [a.toNat] (Machine.loadImm len a v s) :=
  regIndex_bind fun _ => NoRegisterFault.advance _ _

theorem loadWord (a : Nibble) (p : Place) (s : State) :
    ChecksIndices (a.toNat :: p.indices) (Machine.loadWord a p s) :=
  regIndex_bind fun _ => (place p s).bind fun _ => (NoRegisterFault.memReadWord _ s).bind fun _ => .advance _ _

theorem loadByte (a : Nibble) (p : Place) (s : State) :
    ChecksIndices (a.toNat :: p.indices) (Machine.loadByte a p s) :=
  regIndex_bind fun _ => (place p s).bind fun _ => (NoRegisterFault.memReadByte _ s).bind fun _ => .advance _ _

theorem storeWord (a : Nibble) (p : Place) (s : State) :
    ChecksIndices (a.toNat :: p.indices) (Machine.storeWord a p s) :=
  bind (regIndex_bind fun _ => (place p s).bind fun _ => .memWriteWord _ _ s) fun _ => .advance _ _

theorem storeByte (part : Word → Byte) (a : Nibble) (p : Place) (s : State) :
    ChecksIndices (a.toNat :: p.indices) (Machine.storeByte part a p s) :=
  bind (regIndex_bind fun _ => (place p s).bind fun _ => .memWriteByte _ _ s) fun _ => .advance _ _

theorem pushReg (a : Nibble) (s : State) : ChecksIndices [a.toNat] (Machine.pushReg a s) :=
  bind (regIndex_bind fun _ => NoRegisterFault.push _ s) fun _ => .advance _ _

theorem popReg (a : Nibble) (s : State) : ChecksIndices [a.toNat] (Machine.popReg a s) :=
  regIndex_bind fun _ => (NoRegisterFault.pop s).bind fun _ => .advance _ _

theorem pushMem (p : Place) (s : State) : ChecksIndices p.indices (Machine.pushMem p s) :=
  bind ((place p s).bind fun _ => (NoRegisterFault.memReadWord _ s).bind fun _ => .push _ s) fun _ => .advance _ _

theorem withOperands {effect : Reg → Word → State → Except Fault State}
    (he : ∀ x v s, NoRegisterFault (effect x v s)) (a : Nibble) (y : Src) (s : State) :
    ChecksIndices (a.toNat :: y.indices) (Machine.withOperands effect a y s) :=
  regIndex_bind fun x => (src y s).bind fun v => (he x v s).bind fun _ => .advance _ _

end ChecksIndices

/-! ## Every executor -/

/-- The register indices of an instruction in the order its executor checks them (R105, R336). -/
def indicesOf (i : Instr) : List Nat := i.regA.toList.map BitVec.toNat ++ i.regB.toList.map BitVec.toNat

/-- Every executor is an operation that checks its instruction's indices first, and its answer is that operation's. -/
theorem exec_checksIndices (i : Instr) (s : State) : ∃ x, exec i s = outcome x ∧ ChecksIndices (indicesOf i) x := by
  cases i with
  | movRr a b => exact ⟨_, rfl, .moveReg a b s⟩
  | ldRi8 a _ | ldRi16 a _ => exact ⟨_, rfl, .loadImm _ a _ s⟩
  | ldRr a _ | ldRd8 a _ | ldRd16 a _ | ldRd20 a _ _ => exact ⟨_, rfl, .loadWord a _ s⟩
  | ldbRr a _ | ldbRd8 a _ | ldbRd16 a _ | ldbRd20 a _ _ => exact ⟨_, rfl, .loadByte a _ s⟩
  | stRr a _ | stRd8 a _ | stRd16 a _ | stRd20 a _ _ => exact ⟨_, rfl, .storeWord a _ s⟩
  | stlRr a _ | stlRd8 a _ | stlRd16 a _ | stlRd20 a _ _ | sthRr a _ | sthRd8 a _ | sthRd16 a _ | sthRd20 a _ _ =>
    exact ⟨_, rfl, .storeByte _ a _ s⟩
  | pshI8 _ | pshI16 _ => exact ⟨_, rfl, NoRegisterFault.pushImm _ _ s⟩
  | pshR a => exact ⟨_, rfl, .pushReg a s⟩
  | pshD8 v => exact ⟨_, rfl, .pushMem (.abs8 v) s⟩
  | pshD16 w => exact ⟨_, rfl, .pushMem (.abs16 w) s⟩
  | pshD20 ad lo => exact ⟨_, rfl, .pushMem (.abs20 ad lo) s⟩
  | popR a => exact ⟨_, rfl, .popReg a s⟩
  | cmpRi8 a _ | cmpRi16 a _ | cmpRr a _ | addRi8 a _ | addRi16 a _ | addRr a _ | subRi8 a _ | subRi16 a _ | subRr a _
  | andRi8 a _ | andRi16 a _ | andRr a _ | orRi8 a _ | orRi16 a _ | orRr a _ | xorRi8 a _ | xorRi16 a _ | xorRr a _
  | mulRi8 a _ | mulRi16 a _ | mulRr a _ => exact ⟨_, rfl, .withOperands (fun _ _ _ => .ok _) a _ s⟩
  | lshRi8 a _ | lshRi16 a _ | lshRr a _ => exact ⟨_, rfl, .withOperands .lshEffect a _ s⟩
  | rshRi8 a _ | rshRi16 a _ | rshRr a _ => exact ⟨_, rfl, .withOperands .rshEffect a _ s⟩
  | modRi8 a _ | modRi16 a _ | modRr a _ => exact ⟨_, rfl, .withOperands .modEffect a _ s⟩
  | beqD8 _ | beqD16 _ | beqD20 _ _ | bgtD8 _ | bgtD16 _ | bgtD20 _ _ | bltD8 _ | bltD16 _ | bltD20 _ _
  | bofD8 _ | bofD16 _ | bofD20 _ _ | bneD8 _ | bneD16 _ | bneD20 _ _ | bgeD8 _ | bgeD16 _ | bgeD20 _ _
  | bleD8 _ | bleD16 _ | bleD20 _ _ => exact ⟨_, rfl, NoRegisterFault.branch _ _ s⟩
  | jmpD8 v => exact ⟨_, rfl, NoRegisterFault.jump (.abs8 v) s⟩
  | jmpD16 w => exact ⟨_, rfl, NoRegisterFault.jump (.abs16 w) s⟩
  | jmpD20 ad lo => exact ⟨_, rfl, NoRegisterFault.jump (.abs20 ad lo) s⟩
  | jsrD8 _ | jsrD16 _ | jsrD20 _ _ => exact ⟨_, rfl, NoRegisterFault.callSub _ s⟩
  | retN => exact ⟨_, rfl, NoRegisterFault.returnSub s⟩
  | hltN => exact ⟨_, rfl, NoRegisterFault.ok _⟩
  | nopN => exact ⟨_, rfl, NoRegisterFault.advance _ s⟩
  | intI8 _ | intI16 _ => exact ⟨_, rfl, NoRegisterFault.requestInterrupt _ _ s⟩
  | reiN => exact ⟨_, rfl, NoRegisterFault.returnFromInterrupt s⟩

/-- The decoder indices 0 to 8 name the nine registers in the order of R20. -/
theorem Reg.ofIndex_eq_getElem? (n : Nat) :
    Reg.ofIndex n = [Reg.r1, .r2, .r3, .r4, .r5, .r6, .pc, .sp, .bp][n]? := by
  match n with
  | 0 | 1 | 2 | 3 | 4 | 5 | 6 | 7 | 8 => rfl
  | _ + 9 => rfl

theorem indicesOf_le_of_wellFormed {i : Instr} (h : i.WellFormed = true) : ∀ n ∈ indicesOf i, n ≤ 8 := by
  simp only [Instr.WellFormed, Bool.and_eq_true, Option.all_eq_true, decide_eq_true_eq] at h
  obtain ⟨ha, hb⟩ := h
  simp only [indicesOf, List.mem_append, List.mem_map, Option.mem_toList]
  rintro n (⟨a, hn, rfl⟩ | ⟨b, hn, rfl⟩)
  · exact ha a hn
  · exact hb b hn

/-- Settles O44: every executor checks its indices in order, nibble A before byte B, before it does anything else. -/
theorem invalidRegisterFirst : Obligations.InvalidRegisterFirst := by
  refine ⟨Reg.ofIndex_eq_getElem?, fun i s => ?_⟩
  obtain ⟨x, hexec, hx⟩ := exec_checksIndices i s
  rw [hexec]
  simp only [ne_eq, outcome_eq_fault]
  refine ⟨fun a ha hgt => ?_, fun a b ha hb hle hgt => ?_,
    fun hwf => hx.noRegisterFault (indicesOf_le_of_wellFormed hwf)⟩
  · rw [indicesOf, ha] at hx
    exact hx.1 hgt
  · rw [indicesOf, ha, hb] at hx
    exact (hx.2 hle).1 hgt

/-! ## Refusals -/

theorem exec_ne_refused (i : Instr) (s : State) (r : Refusal) : exec i s ≠ .refused r := by
  obtain ⟨x, hexec, _⟩ := exec_checksIndices i s
  rw [hexec]
  exact outcome_ne_refused x r

theorem endTick_eq_refused {o : Host.Outcome State Fault Refusal} {r : Refusal} (h : endTick o = .refused r) :
    o = .refused r := by
  cases o with
  | next _ | fault _ => cases h
  | refused _ => exact h

theorem runInstr_ne_refused (N : Numbering) (s : State) (r : Refusal) : runInstr N s ≠ .refused r := by
  unfold runInstr
  cases fetchDecode N s with
  | error _ => nofun
  | ok q => exact fun h => exec_ne_refused q.2 q.1 r (endTick_eq_refused h)

theorem tick_ne_refused (N : Numbering) (s : State) (r : Refusal) : tick N s ≠ .refused r := by
  unfold tick
  cases s.fault with
  | some _ => nofun
  | none =>
    dsimp only
    split
    · split
      · exact outcome_ne_refused _ r
      · exact runInstr_ne_refused N s r
    · nofun

/-- Settles O46: every executor and every dispatch answers a next state or a fault, and so does a tick. -/
theorem nothingRefused : Obligations.NothingRefused := ⟨exec_ne_refused, tick_ne_refused Config.numbering⟩

end Sys2Proof.Machine

/-! PROOFS. The statements on data movement: moves, loads, stores, and the stack, of single instructions and of a run of
pushes and pops. -/

namespace Sys2Proof.Machine

open Sys2Proof.Claims

/-! ## Encodings of the register and memory forms -/

theorem metaByte_byte : ∀ a : Nibble, metaByte a .byte = a ++ 0b0000#4 := by decide

theorem metaByte_word : ∀ a : Nibble, metaByte a .word = a ++ 0b0100#4 := by decide

theorem metaByte_long : ∀ a : Nibble, metaByte a .long = a ++ 0b1000#4 := by decide

theorem metaByte_none : ∀ a : Nibble, metaByte a .none = a ++ 0b1100#4 := by decide

theorem adByte_eq_append : ∀ ad : Nibble, ad.setWidth 8 = 0#4 ++ ad := by decide

/-- The reference encoding, from the pieces of an instruction. -/
theorem encode_of_parts {i : Instr} {q : Parts} (h : i.parts = q) :
    encode i = Config.numbering.opcodeByte q.op q.mode :: metaByte q.nibble q.width :: q.operand := by
  rw [← h]; rfl

section Encode

variable {i : Instr} (op : Opcode)

theorem encode_rr {a : Nibble} {b : Byte} (h : i.parts = .rr op a b) :
    encode i = [Config.numbering.opcodeByte op .register, a ++ 0b0000#4, b] := by
  simp [encode_of_parts h, Parts.rr, metaByte_byte]

theorem encode_ri8 {a : Nibble} {v : Byte} (h : i.parts = .ri8 op a v) :
    encode i = [Config.numbering.opcodeByte op .immediate, a ++ 0b0000#4, v] := by
  simp [encode_of_parts h, Parts.ri8, metaByte_byte]

theorem encode_ri16 {a : Nibble} {w : Word} (h : i.parts = .ri16 op a w) :
    encode i = [Config.numbering.opcodeByte op .immediate, a ++ 0b0100#4, hiByte w, loByte w] := by
  simp [encode_of_parts h, Parts.ri16, metaByte_word]

theorem encode_rd8 {a : Nibble} {v : Byte} (h : i.parts = .rd8 op a v) :
    encode i = [Config.numbering.opcodeByte op .direct, a ++ 0b0000#4, v] := by
  simp [encode_of_parts h, Parts.rd8, metaByte_byte]

theorem encode_rd16 {a : Nibble} {w : Word} (h : i.parts = .rd16 op a w) :
    encode i = [Config.numbering.opcodeByte op .direct, a ++ 0b0100#4, hiByte w, loByte w] := by
  simp [encode_of_parts h, Parts.rd16, metaByte_word]

theorem encode_rd20 {a ad : Nibble} {lo : Word} (h : i.parts = .rd20 op a ad lo) :
    encode i = [Config.numbering.opcodeByte op .direct, a ++ 0b1000#4, 0#4 ++ ad, hiByte lo, loByte lo] := by
  simp [encode_of_parts h, Parts.rd20, metaByte_long, adByte_eq_append]

theorem encode_r {a : Nibble} (h : i.parts = .r op a) :
    encode i = [Config.numbering.opcodeByte op .register, a ++ 0b1100#4] := by
  simp [encode_of_parts h, Parts.r, metaByte_none]

theorem encode_i8 {v : Byte} (h : i.parts = .i8 op v) :
    encode i = [Config.numbering.opcodeByte op .immediate, 0x00, v] := by
  simp [encode_of_parts h, Parts.i8, metaByte_byte]

theorem encode_i16 {w : Word} (h : i.parts = .i16 op w) :
    encode i = [Config.numbering.opcodeByte op .immediate, 0x04, hiByte w, loByte w] := by
  simp [encode_of_parts h, Parts.i16, metaByte_word]

theorem encode_d8 {v : Byte} (h : i.parts = .d8 op v) :
    encode i = [Config.numbering.opcodeByte op .direct, 0x00, v] := by
  simp [encode_of_parts h, Parts.d8, metaByte_byte]

theorem encode_d16 {w : Word} (h : i.parts = .d16 op w) :
    encode i = [Config.numbering.opcodeByte op .direct, 0x04, hiByte w, loByte w] := by
  simp [encode_of_parts h, Parts.d16, metaByte_word]

theorem encode_d20 {ad : Nibble} {lo : Word} (h : i.parts = .d20 op ad lo) :
    encode i = [Config.numbering.opcodeByte op .direct, 0x08, 0#4 ++ ad, hiByte lo, loByte lo] := by
  simp [encode_of_parts h, Parts.d20, metaByte_long, adByte_eq_append]

end Encode

/-! ## The shape of loads and stores -/

theorem Reg.le_of_ofIndex {n : Nat} {x : Reg} (h : Reg.ofIndex n = some x) : n ≤ 8 := by
  by_contra hn
  cases (Reg.ofIndex_eq_none_iff.2 (by omega)).symm.trans h

/-- The four forms of a load or store: encoded under one mnemonic, executed as one operation on a register and a place. -/
structure PlaceForms (op : Opcode) (run : Nibble → Place → State → Except Fault State)
    (rr rd8 : Nibble → Byte → Instr) (rd16 : Nibble → Word → Instr) (rd20 : Nibble → Nibble → Word → Instr) : Prop where
  parts_rr : ∀ a b, (rr a b).parts = .rr op a b
  parts_rd8 : ∀ a v, (rd8 a v).parts = .rd8 op a v
  parts_rd16 : ∀ a w, (rd16 a w).parts = .rd16 op a w
  parts_rd20 : ∀ a ad lo, (rd20 a ad lo).parts = .rd20 op a ad lo
  exec_rr : ∀ a b s, exec (rr a b) s = outcome (run a (.ind b) s)
  exec_rd8 : ∀ a v s, exec (rd8 a v) s = outcome (run a (.abs8 v) s)
  exec_rd16 : ∀ a w s, exec (rd16 a w) s = outcome (run a (.abs16 w) s)
  exec_rd20 : ∀ a ad lo s, exec (rd20 a ad lo) s = outcome (run a (.abs20 ad lo) s)

/-- The rules of a load or store follow from its operation's register checks and from the claim at each address its
place can give. -/
theorem PlaceForms.memForms {op : Opcode} {run : Nibble → Place → State → Except Fault State}
    {rr rd8 : Nibble → Byte → Instr} {rd16 : Nibble → Word → Instr} {rd20 : Nibble → Nibble → Word → Instr}
    {claim : State → Reg → Nat → Nat → Host.Outcome State Fault Refusal → Prop}
    (h : PlaceForms op run rr rd8 rd16 rd20) (hchecks : ∀ a p s, ChecksIndices (a.toNat :: p.indices) (run a p s))
    (hclaim : ∀ {a : Nibble} {x : Reg} {p : Place} {ea : Addr} {s : State}, Reg.ofIndex a.toNat = some x →
      p.addr s = .ok ea → claim s x ea.toNat p.len (outcome (run a p s))) :
    MemForms (Config.numbering.opcodeByte op .register) (Config.numbering.opcodeByte op .direct) rr rd8 rd16 rd20
      claim := by
  intro a b v w ad lo
  refine ⟨⟨encode_rr op (h.parts_rr a b), encode_rd8 op (h.parts_rd8 a v), encode_rd16 op (h.parts_rd16 a w),
    encode_rd20 op (h.parts_rd20 a ad lo)⟩, fun s => ?_⟩
  rw [h.exec_rr, h.exec_rd8, h.exec_rd16, h.exec_rd20]
  have hbadA : 8 < a.toNat → ∀ p, outcome (run a p s) = .fault (.invalidRegister a.toNat) :=
    fun hgt p => outcome_eq_fault.2 ((hchecks a p s).1 hgt)
  refine ⟨fun hgt => ⟨hbadA hgt _, hbadA hgt _, hbadA hgt _, hbadA hgt _⟩, fun x hx => ⟨fun hgt => ?_, fun y hy => ?_,
    ?_, ?_, ?_⟩⟩
  · exact outcome_eq_fault.2 (((hchecks a (.ind b) s).2 (Reg.le_of_ofIndex hx)).1 hgt)
  · exact ea16_toNat (s.getReg y) ▸ hclaim hx (Place.addr_ind_ok.2 ⟨y, hy, rfl⟩)
  · exact ea8_toNat v ▸ hclaim (p := .abs8 v) hx rfl
  · exact ea16_toNat w ▸ hclaim (p := .abs16 w) hx rfl
  · exact ea20_toNat ad lo ▸ hclaim (p := .abs20 ad lo) hx rfl

/-! ## Loads -/

/-- The refusal that the model answers is one that the rules give. -/
theorem readRefusal_of_readFault {s : State} {a : Nat} {word : Bool} {k : BusError}
    (h : readFault s a word = some k) : ReadRefusal s a word k := by
  unfold readFault at h
  unfold ReadRefusal
  cases ha : arbitrate s.devices a with
  | none => simpa [ha, eq_comm] using h
  | some d =>
    simp only [ha] at h ⊢
    split at h
    · rename_i hr
      exact .inl ⟨hr, (Option.some.inj h).symm⟩
    · split at h
      · rename_i hl
        exact .inr ⟨hl.1, hl.2, (Option.some.inj h).symm⟩
      · cases h

/-- A read and then a register write and `advance()`, where the read answers what the bus has at the address. -/
theorem loads_of_read {α : Type} {s : State} {x : Reg} {a len : Nat} {word : Bool} {value : State → Nat → Word}
    {read : Except Fault α} {stored : α} {extend : α → Word}
    (hread : read = (readFault s a word).elim (.ok stored) (fun k => .error (.bus k a)))
    (hvalue : extend stored = value s a) :
    Loads word value s x a len (outcome (read >>= fun v => advance len (s.setReg x (extend v)))) := by
  refine ⟨fun hne => ?_, fun hnone => ?_⟩
  · obtain ⟨k, hk⟩ := Option.ne_none_iff_exists'.1 hne
    refine ⟨k, readRefusal_of_readFault hk, ?_⟩
    rw [hread, hk]; rfl
  · rw [hread, hnone, ← hvalue]
    exact advancesFrom_advance len (s.setReg x (extend stored))

theorem loadWord_eq {a : Nibble} {x : Reg} {p : Place} {ea : Addr} {s : State} (hx : Reg.ofIndex a.toNat = some x)
    (hp : p.addr s = .ok ea) :
    loadWord a p s = memReadWord ea.toNat s >>= fun v => advance p.len (s.setReg x v) := by
  simp [loadWord, regIndex_of_some hx, hp]

theorem loadByte_eq {a : Nibble} {x : Reg} {p : Place} {ea : Addr} {s : State} (hx : Reg.ofIndex a.toNat = some x)
    (hp : p.addr s = .ok ea) :
    loadByte a p s = memReadByte ea.toNat s >>= fun v => advance p.len (s.setReg x (v.setWidth 16)) := by
  simp [loadByte, regIndex_of_some hx, hp]

theorem ld_placeForms : PlaceForms .ld loadWord .ldRr .ldRd8 .ldRd16 .ldRd20 := by constructor <;> intros <;> rfl

theorem ldb_placeForms : PlaceForms .ldb loadByte .ldbRr .ldbRd8 .ldbRd16 .ldbRd20 := by constructor <;> intros <;> rfl

/-- Settles O23: each form is a word read and then a register write. -/
theorem ldMemoryResult : Obligations.LdMemoryResult :=
  ld_placeForms.memForms ChecksIndices.loadWord fun {_ _ _ ea s} hx hp =>
    loadWord_eq hx hp ▸ loads_of_read (extend := id) (memReadWord_eq s ea.toNat) rfl

/-- Settles O24: each form is a byte read and then a register write of the byte, zero-extended. -/
theorem ldbResult : Obligations.LdbResult :=
  ldb_placeForms.memForms ChecksIndices.loadByte fun {_ _ _ ea s} hx hp =>
    loadByte_eq hx hp ▸ loads_of_read (memReadByte_eq s ea.toNat) rfl

/-! ## Stores -/

/-- A write and then `advance()`, where the write is refused or stores its bytes as the bus says. -/
theorem stores_of_write {s : State} {x : Reg} {a len : Nat} {bytes : Word → List Byte} {write : Except Fault State}
    (hrefused : ∀ k, writeFault s a (decide ((bytes (s.getReg x)).length = 2)) = some k → write = .error (.bus k a))
    (hserved : writeFault s a (decide ((bytes (s.getReg x)).length = 2)) = none →
      ∃ t, write = .ok t ∧ Stored s t a (bytes (s.getReg x))) :
    Stores bytes s x a len (outcome (write >>= advance len)) := by
  refine ⟨fun k hk => by rw [hrefused k hk]; rfl, fun hnone => ?_⟩
  obtain ⟨t, hw, ht⟩ := hserved hnone
  rw [hw]
  exact ⟨t, ht, advancesFrom_advance len t⟩

theorem storeWord_eq {a : Nibble} {x : Reg} {p : Place} {ea : Addr} {s : State} (hx : Reg.ofIndex a.toNat = some x)
    (hp : p.addr s = .ok ea) :
    storeWord a p s = memWriteWord ea.toNat (s.getReg x) s >>= advance p.len := by
  simp [storeWord, putWordAt, regIndex_of_some hx, hp]

theorem storeByte_eq {part : Word → Byte} {a : Nibble} {x : Reg} {p : Place} {ea : Addr} {s : State}
    (hx : Reg.ofIndex a.toNat = some x) (hp : p.addr s = .ok ea) :
    storeByte part a p s = memWriteByte ea.toNat (part (s.getReg x)) s >>= advance p.len := by
  simp [storeByte, putByteAt, regIndex_of_some hx, hp]

theorem storeWord_stores {a : Nibble} {x : Reg} {p : Place} {ea : Addr} {s : State} (hx : Reg.ofIndex a.toNat = some x)
    (hp : p.addr s = .ok ea) :
    Stores (fun v => [hiByte v, loByte v]) s x ea.toNat p.len (outcome (storeWord a p s)) :=
  storeWord_eq hx hp ▸
    stores_of_write (fun k hk => memWriteWord_error_iff.2 ⟨k, rfl, hk⟩) (memWriteWord_served (s.getReg x))

theorem storeByte_stores {part : Word → Byte} {a : Nibble} {x : Reg} {p : Place} {ea : Addr} {s : State}
    (hx : Reg.ofIndex a.toNat = some x) (hp : p.addr s = .ok ea) :
    Stores (fun v => [part v]) s x ea.toNat p.len (outcome (storeByte part a p s)) :=
  storeByte_eq hx hp ▸
    stores_of_write (fun k hk => memWriteByte_error_iff.2 ⟨k, rfl, hk⟩) (memWriteByte_served (part (s.getReg x)))

theorem st_placeForms : PlaceForms .st storeWord .stRr .stRd8 .stRd16 .stRd20 := by constructor <;> intros <;> rfl

theorem stl_placeForms : PlaceForms .stl (storeByte loByte) .stlRr .stlRd8 .stlRd16 .stlRd20 := by
  constructor <;> intros <;> rfl

theorem sth_placeForms : PlaceForms .sth (storeByte hiByte) .sthRr .sthRd8 .sthRd16 .sthRd20 := by
  constructor <;> intros <;> rfl

/-- Settles O25: each form is a word write of the register and then `advance()`. -/
theorem stResult : Obligations.StResult :=
  st_placeForms.memForms ChecksIndices.storeWord storeWord_stores

/-- Settles O26: each form is a byte write of its half of the register and then `advance()`. -/
theorem stlSthResult : Obligations.StlSthResult :=
  ⟨stl_placeForms.memForms (ChecksIndices.storeByte loByte) storeByte_stores,
    sth_placeForms.memForms (ChecksIndices.storeByte hiByte) storeByte_stores⟩

/-! ## Moves and immediate loads -/

theorem exec_invalidRegA {i : Instr} {a : Nibble} {s : State} (h : i.regA = some a) (hgt : 8 < a.toNat) :
    exec i s = .fault (.invalidRegister a.toNat) :=
  (invalidRegisterFirst.2 i s).1 a h hgt

theorem exec_invalidRegB {i : Instr} {a : Nibble} {b : Byte} {x : Reg} {s : State} (ha : i.regA = some a)
    (hb : i.regB = some b) (hx : Reg.ofIndex a.toNat = some x) (hgt : 8 < b.toNat) :
    exec i s = .fault (.invalidRegister b.toNat) :=
  (invalidRegisterFirst.2 i s).2.1 a b ha hb (Reg.le_of_ofIndex hx) hgt

theorem moveReg_eq {a : Nibble} {b : Byte} {x y : Reg} {s : State} (hx : Reg.ofIndex a.toNat = some x)
    (hy : Reg.ofIndex b.toNat = some y) : moveReg a b s = advance 3 (s.setReg x (s.getReg y)) := by
  simp [moveReg, regIndex_of_some hx, regIndex_of_some hy]

theorem loadImm_eq {len : Nat} {a : Nibble} {v : Word} {x : Reg} {s : State} (hx : Reg.ofIndex a.toNat = some x) :
    loadImm len a v s = advance len (s.setReg x v) := by
  simp [loadImm, regIndex_of_some hx]

/-- Settles O21: the register checks, and then `advance()` from the state with the register written. -/
theorem movResult : Obligations.MovResult := by
  intro a b
  refine ⟨encode_rr .mov rfl, fun s => ⟨exec_invalidRegA rfl, fun x hx => ⟨exec_invalidRegB rfl rfl hx, fun y hy => ?_⟩⟩⟩
  change AdvancesFrom (outcome (moveReg a b s)) (s.setReg x (s.getReg y)) 3
  rw [moveReg_eq hx hy]
  exact advancesFrom_advance 3 _

theorem loadImm_advances {len : Nat} {a : Nibble} {v : Word} {x : Reg} {s : State}
    (hx : Reg.ofIndex a.toNat = some x) : AdvancesFrom (outcome (loadImm len a v s)) (s.setReg x v) len :=
  loadImm_eq hx ▸ advancesFrom_advance len (s.setReg x v)

/-- Settles O22: the register check, and then `advance()` from the state with the immediate in the register. -/
theorem ldImmediateResult : Obligations.LdImmediateResult :=
  fun _ _ _ => ⟨encode_ri8 .ld rfl, encode_ri16 .ld rfl, fun _ =>
    ⟨fun hgt => ⟨exec_invalidRegA rfl hgt, exec_invalidRegA rfl hgt⟩,
      fun _ hx => ⟨loadImm_advances hx, loadImm_advances hx⟩⟩⟩

/-! ## The stack primitives -/

theorem push_refused {s : State} {f : Fault} (v : Word) (h : pushFault s = some f) : push v s = .error f := by
  unfold pushFault at h
  rw [push_error]
  split at h
  · exact .inl ⟨‹_›, (Option.some.inj h).symm⟩
  · obtain ⟨k, hk, rfl⟩ := Option.map_eq_some_iff.1 h
    exact .inr ⟨by omega, memWriteWord_error_iff.2 ⟨k, rfl, hk⟩⟩

theorem push_served {s : State} (v : Word) (h : pushFault s = none) : ∃ t, push v s = .ok t ∧ Pushed s t v := by
  unfold pushFault at h
  split at h
  · cases h
  · obtain ⟨u, hw, hu⟩ := memWriteWord_served v (Option.map_eq_none_iff.1 h)
    exact ⟨_, push_ok.2 ⟨by omega, u, hw, rfl⟩, u, hu, rfl⟩

theorem pop_refused {s : State} {f : Fault} (h : popFault s = some f) : pop s = .error f := by
  unfold popFault at h
  rw [pop_error]
  split at h
  · exact .inl ⟨‹_›, (Option.some.inj h).symm⟩
  · obtain ⟨k, hk, rfl⟩ := Option.map_eq_some_iff.1 h
    exact .inr ⟨by omega, memReadWord_refused hk⟩

theorem pop_served {s : State} (h : popFault s = none) :
    pop s = .ok (storedWord s (spOf s - 2), s.setReg .sp (s.regs.sp - 2)) := by
  unfold popFault at h
  split at h
  · cases h
  · exact pop_ok.2 ⟨by omega, memReadWord_served (Option.map_eq_none_iff.1 h), rfl⟩

/-- The fault of a pop that the model answers is one that the rules give. -/
theorem popRefusal_of_popFault {s : State} {f : Fault} (h : popFault s = some f) : PopRefusal s f := by
  unfold popFault at h
  unfold PopRefusal
  split at h
  · rw [if_pos ‹_›]
    exact (Option.some.inj h).symm
  · rw [if_neg ‹_›]
    obtain ⟨k, hk, rfl⟩ := Option.map_eq_some_iff.1 h
    exact ⟨k, readRefusal_of_readFault hk, rfl⟩

/-! ## PSH and POP -/

theorem push_advance_refused {s : State} {f : Fault} (v : Word) (len : Nat) (h : pushFault s = some f) :
    outcome (push v s >>= advance len) = .fault f := by
  rw [push_refused v h]; rfl

theorem push_advance_served {s : State} (v : Word) (len : Nat) (h : pushFault s = none) :
    ∃ t, Pushed s t v ∧ AdvancesFrom (outcome (push v s >>= advance len)) t len := by
  obtain ⟨t, hp, ht⟩ := push_served v h
  rw [hp]
  exact ⟨t, ht, advancesFrom_advance len t⟩

theorem exec_pshR_eq {a : Nibble} {x : Reg} {s : State} (hx : Reg.ofIndex a.toNat = some x) :
    exec (.pshR a) s = outcome (push (s.getReg x) s >>= advance 2) := by
  change outcome (pushReg a s) = _
  simp [pushReg, pushRegAt, regIndex_of_some hx]

/-- Settles O27: each form is a push, refused or served, and then `advance()`. -/
theorem pshResult : Obligations.PshResult := by
  refine fun a v w => ⟨⟨encode_i8 .psh rfl, encode_i16 .psh rfl, encode_r .psh rfl⟩, fun s => ⟨exec_invalidRegA rfl,
    fun k hk => ⟨push_advance_refused _ 3 hk, push_advance_refused _ 4 hk, fun x hx => ?_⟩,
    fun hnone => ⟨push_advance_served _ 3 hnone, push_advance_served _ 4 hnone, fun x hx => ?_⟩⟩⟩
  · exact exec_pshR_eq hx ▸ push_advance_refused _ 2 hk
  · exact exec_pshR_eq hx ▸ push_advance_served _ 2 hnone

theorem pushMem_eq {p : Place} {ea : Addr} {s : State} (hp : p.addr s = .ok ea) :
    pushMem p s = memReadWord ea.toNat s >>= fun v => push v s >>= advance p.len := by
  cases hv : memReadWord ea.toNat s <;> simp [pushMem, pushMemAt, hp, hv]

/-- The rules of PSH $addr at the address of its place. -/
theorem pushMem_answers {p : Place} {ea : Addr} {s : State} (hp : p.addr s = .ok ea) :
    (readFault s ea.toNat true ≠ none →
      ∃ k, ReadRefusal s ea.toNat true k ∧ outcome (pushMem p s) = .fault (.bus k ea.toNat)) ∧
    (readFault s ea.toNat true = none →
      (∀ k, pushFault s = some k → outcome (pushMem p s) = .fault k) ∧
      (pushFault s = none →
        ∃ t, Pushed s t (storedWord s ea.toNat) ∧ AdvancesFrom (outcome (pushMem p s)) t p.len)) := by
  rw [pushMem_eq hp]
  refine ⟨fun hne => ?_, fun hnone => ?_⟩
  · obtain ⟨k, hk⟩ := Option.ne_none_iff_exists'.1 hne
    rw [memReadWord_refused hk]
    exact ⟨k, readRefusal_of_readFault hk, rfl⟩
  · rw [memReadWord_served hnone, Except.ok_bind]
    exact ⟨fun _ => push_advance_refused _ p.len, push_advance_served _ p.len⟩

/-- Settles O28: the three widths are one operation at three places. -/
theorem pshMemoryResult : Obligations.PshMemoryResult := by
  refine fun v w ad lo => ⟨⟨encode_d8 .psh rfl, encode_d16 .psh rfl, encode_d20 .psh rfl⟩, fun s i a len hmem => ?_⟩
  simp only [List.mem_cons, Prod.mk.injEq, List.not_mem_nil, or_false] at hmem
  obtain ⟨rfl, rfl, rfl⟩ | ⟨rfl, rfl, rfl⟩ | ⟨rfl, rfl, rfl⟩ := hmem
  · exact ea8_toNat v ▸ pushMem_answers (p := .abs8 v) rfl
  · exact ea16_toNat w ▸ pushMem_answers (p := .abs16 w) rfl
  · exact ea20_toNat ad lo ▸ pushMem_answers (p := .abs20 ad lo) rfl

theorem exec_popR_eq {a : Nibble} {x : Reg} {s : State} (hx : Reg.ofIndex a.toNat = some x) :
    exec (.popR a) s = outcome (pop s >>= fun q => advance 2 (q.2.setReg x q.1)) := by
  change outcome (popReg a s) = _
  simp [popReg, regIndex_of_some hx]

/-- Settles O29: a pop, refused or served, and then the register write and `advance()`. -/
theorem popResult : Obligations.PopResult := by
  refine fun a => ⟨encode_r .pop rfl, fun s => ⟨exec_invalidRegA rfl, fun x hx => ?_⟩⟩
  rw [exec_popR_eq hx]
  refine ⟨fun hne => ?_, fun hnone => ?_⟩
  · obtain ⟨f, hf⟩ := Option.ne_none_iff_exists'.1 hne
    rw [pop_refused hf]
    exact ⟨f, popRefusal_of_popFault hf, rfl⟩
  · rw [pop_served hnone]
    exact advancesFrom_advance 2 ((s.setReg .sp (s.regs.sp - 2)).setReg x _)

/-! ## Instructions one after another -/

theorem execAll_cons {i : Instr} {is : List Instr} {s t : State} :
    execAll (i :: is) s = .next t ↔ ∃ u, exec i s = .next u ∧ execAll is u = .next t := by
  rw [execAll]
  cases exec i s <;> simp

theorem execAll_append {is js : List Instr} {s t : State} :
    execAll (is ++ js) s = .next t ↔ ∃ u, execAll is s = .next u ∧ execAll js u = .next t := by
  induction is generalizing s with
  | nil => simp [execAll]
  | cons i is ih =>
    simp only [List.cons_append, execAll_cons, ih]
    exact ⟨fun ⟨u, hi, v, his, hjs⟩ => ⟨v, ⟨u, hi, his⟩, hjs⟩, fun ⟨v, ⟨u, hi, his⟩, hjs⟩ => ⟨u, hi, v, his, hjs⟩⟩

/-! ## The words stored on the stack -/

theorem storedWord_congr {s t : State} (h : t.devices = s.devices) (a : Nat) : storedWord t a = storedWord s a := by
  unfold storedWord; rw [h]

theorem storedWord_of_memReadWord {s : State} {a : Nat} {v : Word} (h : memReadWord a s = .ok v) :
    storedWord s a = v := by
  rw [memReadWord_eq] at h
  cases hf : readFault s a true with
  | none => rw [hf] at h; exact Except.ok.inj h
  | some k => rw [hf] at h; cases h

theorem Replaces.storedWord_written {s t : State} {a : Nat} {v : Word} {pre post : List Device} {d : Device}
    {cells : Memory} (h : Replaces s t a [hiByte v, loByte v] pre d post cells) : storedWord t a = v := by
  have hhi : cells.read a = hiByte v := h.inside 0 (by simp)
  have hlo : cells.read (a + 1) = loByte v := h.inside 1 (by simp)
  rw [storedWord, h.arbitrate_after]
  simp only [hhi, hlo]
  exact wordOfBytes_hi_lo v

/-- A write leaves every stored word below it. -/
theorem Replaces.storedWord_below {s t : State} {a b : Nat} {bs : List Byte} {pre post : List Device} {d : Device}
    {cells : Memory} (h : Replaces s t a bs pre d post cells) (hb : b + 2 ≤ a) :
    storedWord t b = storedWord s b := by
  unfold storedWord
  obtain ⟨hs, ht⟩ | ht := h.arbitrate_cases b
  · simp only [hs, ht, h.outside b (by omega), h.outside (b + 1) (by omega)]
  · rw [ht]

theorem spOf_push {v : Word} {s t : State} (h : push v s = .ok t) : spOf t = spOf s + 2 := by
  obtain ⟨hroom, u, _, rfl⟩ := push_ok.1 h
  unfold spOf at *
  simp only [State.setReg_regs, Regs.set_sp]
  bv_omega

theorem spOf_pop {v : Word} {s t : State} (h : pop s = .ok (v, t)) : spOf s = spOf t + 2 := by
  obtain ⟨hroom, _, rfl⟩ := pop_ok.1 h
  unfold spOf at *
  simp only [State.setReg_regs, Regs.set_sp]
  bv_omega

theorem push_storedWord {v : Word} {s t : State} (h : push v s = .ok t) :
    storedWord t (spOf s) = v ∧ ∀ b, b + 2 ≤ spOf s → storedWord t b = storedWord s b := by
  obtain ⟨_, u, hw, rfl⟩ := push_ok.1 h
  obtain ⟨_, _, _, _, R, _⟩ := memWriteWord_ok hw
  exact ⟨R.storedWord_written, fun b hb => R.storedWord_below hb⟩

/-- The words on the stack below the address `a`, the top first. -/
def StackHolds (s : State) : Nat → List Word → Prop
  | _, [] => True
  | a, w :: ws => 2 ≤ a ∧ storedWord s (a - 2) = w ∧ StackHolds s (a - 2) ws

/-- The words on the stack stay where the stored words below its top do. -/
theorem StackHolds.of_below {s t : State} {a : Nat} {ws : List Word} (h : StackHolds s a ws)
    (hbelow : ∀ b, b + 2 ≤ a → storedWord t b = storedWord s b) : StackHolds t a ws := by
  induction ws generalizing a with
  | nil => trivial
  | cons w ws ih =>
    obtain ⟨ha, hw, hws⟩ := h
    exact ⟨ha, (hbelow (a - 2) (by omega)).trans hw, ih hws fun b hb => hbelow b (by omega)⟩

/-! ## N pushes and N pops -/

/-- A PSH puts its word on top of those on the stack. -/
theorem exec_pshI16_stack {w : Word} {ws : List Word} {s t : State} (h : exec (.pshI16 w) s = .next t)
    (hs : StackHolds s (spOf s) ws) : StackHolds t (spOf t) (w :: ws) ∧ spOf t = spOf s + 2 := by
  obtain ⟨u, hp, ha⟩ := pushImm_ok.1 (outcome_eq_next.1 h)
  obtain ⟨_, rfl⟩ := advance_ok.1 ha
  have hsp : spOf u = spOf s + 2 := spOf_push hp
  obtain ⟨htop, hbelow⟩ := push_storedWord hp
  refine ⟨?_, hsp⟩
  change StackHolds _ (spOf u) (w :: ws)
  rw [hsp]
  exact ⟨by omega, htop, hs.of_below hbelow⟩

/-- A POP into a register other than SP and PC takes the top word. -/
theorem exec_popR_stack {a : Nibble} {x : Reg} {w : Word} {ws : List Word} {s t : State}
    (hx : Reg.ofIndex a.toNat = some x) (hsp : x ≠ .sp) (hpc : x ≠ .pc) (h : exec (.popR a) s = .next t)
    (hs : StackHolds s (spOf s) (w :: ws)) :
    t.getReg x = w ∧ StackHolds t (spOf t) ws ∧ spOf s = spOf t + 2 := by
  obtain ⟨x', v, u, hx', hp, ha⟩ := popReg_ok.1 (outcome_eq_next.1 h)
  obtain rfl : x = x' := Option.some.inj (hx.symm.trans hx')
  obtain ⟨_, rfl⟩ := advance_ok.1 ha
  have hspt : spOf ((u.setReg x v).setReg .pc ((u.setReg x v).regs.pc + BitVec.ofNat 16 2)) = spOf u :=
    congrArg BitVec.toNat ((State.getReg_setReg_ne _ _ (by decide)).trans (State.getReg_setReg_ne u v hsp.symm))
  have hspu : spOf s = spOf u + 2 := spOf_pop hp
  obtain ⟨_, hread, rfl⟩ := pop_ok.1 hp
  obtain ⟨_, hw, hws⟩ := hs
  rw [hspt]
  refine ⟨?_, ?_, hspu⟩
  · rw [State.getReg_setReg_ne _ _ hpc, State.getReg_setReg_self, ← hw, storedWord_of_memReadWord hread]
  · rw [show spOf s - 2 = spOf (s.setReg .sp (s.regs.sp - 2)) by omega] at hws
    exact hws.of_below fun b _ => storedWord_congr rfl b

theorem execAll_pshI16_stack {vs ws : List Word} {s t : State} (h : execAll (vs.map Instr.pshI16) s = .next t)
    (hs : StackHolds s (spOf s) ws) :
    StackHolds t (spOf t) (vs.reverse ++ ws) ∧ spOf t = spOf s + 2 * vs.length := by
  induction vs generalizing s ws with
  | nil => cases h; exact ⟨hs, rfl⟩
  | cons v vs ih =>
    obtain ⟨u, hv, h⟩ := execAll_cons.1 h
    obtain ⟨hu, hspu⟩ := exec_pshI16_stack hv hs
    obtain ⟨ht, hspt⟩ := ih h hu
    refine ⟨by simpa using ht, ?_⟩
    rw [hspt, hspu, List.length_cons]
    omega

/-- The nibbles name the registers. -/
abbrev Names (as : List Nibble) (xs : List Reg) : Prop :=
  List.Forall₂ (fun (a : Nibble) (x : Reg) => Reg.ofIndex a.toNat = some x) as xs

/-- Pops write no register but those they name, SP and PC. -/
theorem execAll_popR_frame {as : List Nibble} {xs : List Reg} {y : Reg} {s t : State} (hnames : Names as xs)
    (hy : y ∉ xs) (hsp : y ≠ .sp) (hpc : y ≠ .pc) (h : execAll (as.map Instr.popR) s = .next t) :
    t.getReg y = s.getReg y := by
  induction hnames generalizing s with
  | nil => cases h; rfl
  | @cons a x as xs hx _ ih =>
    obtain ⟨hyx, hy⟩ := not_or.1 (List.mem_cons.not.1 hy)
    obtain ⟨u, ha, h⟩ := execAll_cons.1 h
    refine (ih hy h).trans (registerFrame _ _ _ ha y hpc ?_)
    rintro (hy' | ⟨a', ha', hy'⟩)
    · exact hsp hy'
    · cases ha'
      exact hyx (Option.some.inj (hy'.symm.trans hx))

theorem execAll_popR_stack {as : List Nibble} {xs : List Reg} {ws : List Word} {s t : State} (hnames : Names as xs)
    (hlen : xs.length = ws.length) (hnodup : xs.Nodup) (hsp : Reg.sp ∉ xs) (hpc : Reg.pc ∉ xs)
    (h : execAll (as.map Instr.popR) s = .next t) (hs : StackHolds s (spOf s) ws) :
    xs.map t.getReg = ws ∧ spOf s = spOf t + 2 * xs.length := by
  induction hnames generalizing s ws with
  | nil =>
    obtain rfl := List.length_eq_zero_iff.1 hlen.symm
    cases h; exact ⟨rfl, rfl⟩
  | @cons a x as xs hx hnames ih =>
    obtain ⟨w, ws, rfl⟩ := List.exists_cons_of_length_eq_add_one hlen.symm
    obtain ⟨hxs, hnodup⟩ := List.nodup_cons.1 hnodup
    obtain ⟨hspx, hsp⟩ := not_or.1 (List.mem_cons.not.1 hsp)
    obtain ⟨hpcx, hpc⟩ := not_or.1 (List.mem_cons.not.1 hpc)
    obtain ⟨u, ha, h⟩ := execAll_cons.1 h
    obtain ⟨hw, hu, hspu⟩ := exec_popR_stack hx (Ne.symm hspx) (Ne.symm hpcx) ha hs
    obtain ⟨hws, hspt⟩ := ih (by simpa using hlen) hnodup hsp hpc h hu
    refine ⟨?_, by rw [hspu, hspt, List.length_cons]; omega⟩
    rw [List.map_cons, hws, execAll_popR_frame hnames hxs (Ne.symm hspx) (Ne.symm hpcx) h, hw]

/-- Settles O51: the pushes leave their words on the stack, the last on top, and the pops take them from there. -/
theorem stackDiscipline : Obligations.StackDiscipline := by
  intro s t vs as xs hnames hlen hnodup hsp hpc h
  obtain ⟨u, hpush, hpop⟩ := execAll_append.1 h
  have hnames' : Names as xs := by
    rwa [← List.forall₂_eq_eq_eq, List.forall₂_map_left_iff, List.forall₂_map_right_iff] at hnames
  obtain ⟨hu, hspu⟩ := execAll_pshI16_stack (ws := []) hpush trivial
  rw [List.append_nil] at hu
  obtain ⟨hregs, hspt⟩ := execAll_popR_stack hnames' (by simpa using hlen) hnodup hsp hpc hpop hu
  exact ⟨BitVec.eq_of_toNat_eq (show spOf t = spOf s by omega), hregs⟩

end Sys2Proof.Machine

/-! PROOFS. The statements on compare, arithmetic and logic: a two-operand instruction is an effect run on its register
and its second operand, and a branch after a CMP is decided by the order of the two numbers. -/

namespace Sys2Proof.Machine

open Sys2Proof.Claims

/-! ## The shape of two-operand instructions -/

theorem Src.value_reg {b : Byte} {y : Reg} {s : State} (hy : Reg.ofIndex b.toNat = some y) :
    (Src.reg b).value s = .ok (s.getReg y) := by
  simp [Src.value, regIndex_of_some hy, Except.map]

theorem withOperands_eq {effect : Reg → Word → State → Except Fault State} {a : Nibble} {x : Reg} {y : Src} {v : Word}
    {s : State} (hx : Reg.ofIndex a.toNat = some x) (hv : y.value s = .ok v) :
    withOperands effect a y s = effect x v s >>= advance y.len := by
  simp [withOperands, regIndex_of_some hx, hv]

/-- The three forms of a two-operand instruction: encoded under one mnemonic, executed as one effect on a register and a
second operand. -/
structure OperandForms (op : Opcode) (effect : Reg → Word → State → Except Fault State) (ri8 : Nibble → Byte → Instr)
    (ri16 : Nibble → Word → Instr) (rr : Nibble → Byte → Instr) : Prop where
  parts_ri8 : ∀ a v, (ri8 a v).parts = .ri8 op a v
  parts_ri16 : ∀ a w, (ri16 a w).parts = .ri16 op a w
  parts_rr : ∀ a b, (rr a b).parts = .rr op a b
  exec_ri8 : ∀ a v s, exec (ri8 a v) s = outcome (withOperands effect a (.imm8 v) s)
  exec_ri16 : ∀ a w s, exec (ri16 a w) s = outcome (withOperands effect a (.imm16 w) s)
  exec_rr : ∀ a b s, exec (rr a b) s = outcome (withOperands effect a (.reg b) s)

/-- The rules of a two-operand instruction follow from the claim for its effect and then `advance()`. -/
theorem OperandForms.twoOperand {op : Opcode} {effect : Reg → Word → State → Except Fault State}
    {ri8 : Nibble → Byte → Instr} {ri16 : Nibble → Word → Instr} {rr : Nibble → Byte → Instr}
    {claim : State → Reg → Word → Nat → Host.Outcome State Fault Refusal → Prop}
    (h : OperandForms op effect ri8 ri16 rr)
    (hclaim : ∀ s x v len, claim s x v len (outcome (effect x v s >>= advance len))) :
    TwoOperand (Config.numbering.opcodeByte op .immediate) (Config.numbering.opcodeByte op .register) ri8 ri16 rr
      claim := by
  intro a v w b
  refine ⟨⟨encode_ri8 op (h.parts_ri8 a v), encode_ri16 op (h.parts_ri16 a w), encode_rr op (h.parts_rr a b)⟩,
    fun s => ?_⟩
  rw [h.exec_ri8, h.exec_ri16, h.exec_rr]
  have hbadA : 8 < a.toNat → ∀ y, outcome (withOperands effect a y s) = .fault (.invalidRegister a.toNat) :=
    fun hgt _ => outcome_eq_fault.2 (withOperands_error.2 (.inl (regIndex_of_gt hgt)))
  refine ⟨fun hgt => ⟨hbadA hgt _, hbadA hgt _, hbadA hgt _⟩, fun x hx => ?_⟩
  have hserved : ∀ {y : Src} {u : Word}, y.value s = .ok u →
      claim s x u y.len (outcome (withOperands effect a y s)) :=
    fun hu => withOperands_eq hx hu ▸ hclaim s x _ _
  refine ⟨hserved (y := .imm8 v) rfl, hserved (y := .imm16 w) rfl, fun hgt => ?_, fun y hy => hserved (Src.value_reg hy)⟩
  exact outcome_eq_fault.2 (withOperands_error.2 (.inr ⟨x, hx, .inl (Src.value_error.2 ⟨b, rfl, hgt, rfl⟩)⟩))

/-- An effect that writes a register and the flags, and then `advance()`. -/
theorem writesResult_of_ok {result : Word → Word → Word} {flags : Word → Word → Flags → Flags} {s : State} {x : Reg}
    {v r : Word} {len : Nat} {effect : Except Fault State}
    (heffect : effect = .ok ((s.setReg x r).setFlags (flags (s.getReg x) v s.flags)))
    (hresult : r = result (s.getReg x) v) :
    WritesResult result flags s x v len (outcome (effect >>= advance len)) := by
  subst heffect hresult
  exact advancesFrom_advance len _

theorem outcome_advance_of_error {effect : Except Fault State} {f : Fault} (len : Nat) (h : effect = .error f) :
    outcome (effect >>= advance len) = .fault f := by
  rw [h]; rfl

theorem word_eq_ofNat {r : Word} {n : Nat} (h : r.toNat = n) : r = BitVec.ofNat 16 n := by
  rw [← h, BitVec.ofNat_toNat, BitVec.setWidth_eq]

/-! ## CMP -/

theorem compareFlags_eq (x y : Word) (f : Flags) :
    compareFlags x y f =
      { f with z := decide (x.toNat = y.toNat), l := decide (x.toNat < y.toNat), g := decide (y.toNat < x.toNat) } := by
  simp [compareFlags, BitVec.toNat_inj]

theorem cmp_forms : OperandForms .cmp cmpEffect .cmpRi8 .cmpRi16 .cmpRr := by constructor <;> intros <;> rfl

/-- Settles O30: the effect writes the three flags from the unsigned order of its operands. -/
theorem cmpResult : Obligations.CmpResult :=
  cmp_forms.twoOperand fun s x v len =>
    compareFlags_eq (s.getReg x) v s.flags ▸ advancesFrom_advance len (s.setFlags (compareFlags (s.getReg x) v s.flags))

/-! ## ADD, SUB and MUL -/

theorem add_forms : OperandForms .add addEffect .addRi8 .addRi16 .addRr := by constructor <;> intros <;> rfl

theorem sub_forms : OperandForms .sub subEffect .subRi8 .subRi16 .subRr := by constructor <;> intros <;> rfl

theorem mul_forms : OperandForms .mul mulEffect .mulRi8 .mulRi16 .mulRr := by constructor <;> intros <;> rfl

/-- Settles O31: the effect writes the sum and O. -/
theorem addResult : Obligations.AddResult :=
  add_forms.twoOperand fun s x v _ => writesResult_of_ok rfl (word_eq_ofNat (BitVec.toNat_add (s.getReg x) v))

/-- The difference of two words is that of their unsigned values. -/
theorem word_sub_eq_ofInt (x y : Word) : x - y = BitVec.ofInt 16 ((x.toNat : Int) - (y.toNat : Int)) := by
  simp [BitVec.sub_eq_add_neg, Int.sub_eq_add_neg, BitVec.ofInt_add, BitVec.ofInt_neg]

/-- Settles O32: the effect writes the difference and O. -/
theorem subResult : Obligations.SubResult :=
  sub_forms.twoOperand fun s x v _ => writesResult_of_ok rfl (word_sub_eq_ofInt (s.getReg x) v)

/-- Settles O35: the effect writes the product's low half and O. -/
theorem mulResult : Obligations.MulResult :=
  mul_forms.twoOperand fun s x v _ => writesResult_of_ok rfl (word_eq_ofNat (BitVec.toNat_mul (s.getReg x) v))

/-! ## AND, OR and XOR -/

theorem and_forms : OperandForms .and andEffect .andRi8 .andRi16 .andRr := by constructor <;> intros <;> rfl

theorem or_forms : OperandForms .or orEffect .orRi8 .orRi16 .orRr := by constructor <;> intros <;> rfl

theorem xor_forms : OperandForms .xor xorEffect .xorRi8 .xorRi16 .xorRr := by constructor <;> intros <;> rfl

/-- Settles O33: each effect writes its word operation, which is that of the unsigned values, and no flag. -/
theorem logicResults : Obligations.LogicResults :=
  ⟨and_forms.twoOperand fun s x v _ => writesResult_of_ok rfl (word_eq_ofNat (BitVec.toNat_and (s.getReg x) v)),
    or_forms.twoOperand fun s x v _ => writesResult_of_ok rfl (word_eq_ofNat (BitVec.toNat_or (s.getReg x) v)),
    xor_forms.twoOperand fun s x v _ => writesResult_of_ok rfl (word_eq_ofNat (BitVec.toNat_xor (s.getReg x) v))⟩

/-! ## LSH, RSH and MOD -/

theorem lsh_forms : OperandForms .lsh lshEffect .lshRi8 .lshRi16 .lshRr := by constructor <;> intros <;> rfl

theorem rsh_forms : OperandForms .rsh rshEffect .rshRi8 .rshRi16 .rshRr := by constructor <;> intros <;> rfl

theorem mod_forms : OperandForms .mod modEffect .modRi8 .modRi16 .modRr := by constructor <;> intros <;> rfl

/-- Settles O34: the amount decides between the fault and the write of the shifted word. -/
theorem shiftResults : Obligations.ShiftResults :=
  ⟨lsh_forms.twoOperand fun s x _ len =>
      ⟨fun hgt => outcome_advance_of_error len (lshEffect_error.2 ⟨hgt, rfl⟩), fun hle =>
        writesResult_of_ok (lshEffect_ok.2 ⟨hle, rfl⟩) (word_eq_ofNat (BitVec.toNat_shiftLeft (x := s.getReg x)))⟩,
    rsh_forms.twoOperand fun s x v len =>
      ⟨fun hgt => outcome_advance_of_error len (rshEffect_error.2 ⟨hgt, rfl⟩), fun hle =>
        writesResult_of_ok (rshEffect_ok.2 ⟨hle, rfl⟩) (word_eq_ofNat (BitVec.toNat_ushiftRight (s.getReg x) v.toNat))⟩⟩

/-- Settles O36: the divisor decides between the fault and the write of the remainder. -/
theorem modResult : Obligations.ModResult :=
  mod_forms.twoOperand fun _ _ _ len =>
    ⟨fun hzero => outcome_advance_of_error len (modEffect_error.2 ⟨hzero, rfl⟩), fun hne =>
      writesResult_of_ok (modEffect_ok.2 ⟨hne, rfl⟩) (word_eq_ofNat BitVec.toNat_umod)⟩

/-! ## A branch after a CMP -/

/-- A CMP that is done leaves the flags of its comparison. -/
theorem withOperands_cmp_compareFlags {a : Nibble} {rx : Reg} {src : Src} {y : Word} {s t : State}
    (hx : Reg.ofIndex a.toNat = some rx) (hy : src.value s = .ok y)
    (h : outcome (withOperands cmpEffect a src s) = .next t) :
    t.flags = compareFlags (s.getReg rx) y s.flags := by
  rw [withOperands_eq hx hy] at h
  obtain ⟨_, rfl⟩ := advance_ok.1 (outcome_eq_next.1 h)
  rfl

/-- Where the address after it is in range, a branch with a 16-bit target answers a next state: only PC is written, by
the condition. -/
theorem branch_abs16_next {cond : Flags → Bool} {w : Word} {t : State} (hpc : t.regs.pc.toNat + 4 ≤ 0xFFFF) :
    outcome (branch cond (.abs16 w) t) =
      .next { t with regs := { t.regs with pc := if cond t.flags then w else t.regs.pc + 4 } } := by
  refine outcome_eq_next.2 (branch_ok.2 ⟨w, rfl, ?_⟩)
  cases cond t.flags with
  | true => exact .inl ⟨rfl, rfl⟩
  | false => exact .inr ⟨rfl, advance_ok.2 ⟨hpc, rfl⟩⟩

section Conditions

variable (x y : Word) (f : Flags)

theorem condEq_compareFlags : condEq (compareFlags x y f) = decide (x.toNat = y.toNat) := by
  rw [compareFlags_eq]; rfl

theorem condNe_compareFlags : condNe (compareFlags x y f) = decide (x.toNat ≠ y.toNat) := by
  rw [compareFlags_eq]; exact (decide_not ..).symm

theorem condGt_compareFlags : condGt (compareFlags x y f) = decide (y.toNat < x.toNat) := rfl

theorem condLt_compareFlags : condLt (compareFlags x y f) = decide (x.toNat < y.toNat) := rfl

theorem condGe_compareFlags : condGe (compareFlags x y f) = decide (y.toNat ≤ x.toNat) := by
  rw [compareFlags_eq, condGe, ← Bool.decide_or, decide_eq_decide]
  omega

theorem condLe_compareFlags : condLe (compareFlags x y f) = decide (x.toNat ≤ y.toNat) := by
  rw [compareFlags_eq, condLe, ← Bool.decide_or, decide_eq_decide]
  omega

end Conditions

/-- Settles O53: the CMP leaves the flags of its comparison, and each branch's condition on them is its order. -/
theorem branchAfterCompare : Obligations.BranchAfterCompare := by
  rintro s t c i _ y w ⟨a, rx, hx, rfl, hc⟩ hcmp hpc taken hmem
  have hflags : t.flags = compareFlags (s.getReg rx) y s.flags := by
    obtain rfl | ⟨v, rfl, rfl⟩ | ⟨b, ry, hy, rfl, rfl⟩ := hc
    · exact withOperands_cmp_compareFlags (src := .imm16 y) hx rfl hcmp
    · exact withOperands_cmp_compareFlags (src := .imm8 v) hx rfl hcmp
    · exact withOperands_cmp_compareFlags hx (Src.value_reg hy) hcmp
  have hbranch : ∀ {cond : Flags → Bool}, cond (compareFlags (s.getReg rx) y s.flags) = taken →
      outcome (branch cond (.abs16 w) t) =
        .next { t with regs := { t.regs with pc := if taken then w else t.regs.pc + 4 } } := by
    rintro cond rfl
    rw [← hflags]
    exact branch_abs16_next hpc
  simp only [List.mem_cons, Prod.mk.injEq, List.not_mem_nil, or_false] at hmem
  obtain ⟨rfl, rfl⟩ | ⟨rfl, rfl⟩ | ⟨rfl, rfl⟩ | ⟨rfl, rfl⟩ | ⟨rfl, rfl⟩ | ⟨rfl, rfl⟩ := hmem
  · exact hbranch (condEq_compareFlags _ _ _)
  · exact hbranch (condNe_compareFlags _ _ _)
  · exact hbranch (condGt_compareFlags _ _ _)
  · exact hbranch (condLt_compareFlags _ _ _)
  · exact hbranch (condGe_compareFlags _ _ _)
  · exact hbranch (condLe_compareFlags _ _ _)

end Sys2Proof.Machine

/-! PROOFS. The statements on control transfer: branches, jumps, subroutine calls and returns, of single instructions
and of a call with its return. -/

namespace Sys2Proof.Machine

open Sys2Proof.Claims

/-! ## The shape of control transfers -/

/-- The three forms of a control transfer: encoded under one mnemonic, executed as one operation on a target. -/
structure TargetForms (op : Opcode) (run : Target → State → Except Fault State) (d8 : Byte → Instr) (d16 : Word → Instr)
    (d20 : Nibble → Word → Instr) : Prop where
  parts_d8 : ∀ v, (d8 v).parts = .d8 op v
  parts_d16 : ∀ w, (d16 w).parts = .d16 op w
  parts_d20 : ∀ ad lo, (d20 ad lo).parts = .d20 op ad lo
  exec_d8 : ∀ v s, exec (d8 v) s = outcome (run (.abs8 v) s)
  exec_d16 : ∀ w s, exec (d16 w) s = outcome (run (.abs16 w) s)
  exec_d20 : ∀ ad lo s, exec (d20 ad lo) s = outcome (run (.abs20 ad lo) s)

/-- The rules of a control transfer follow from its operation's check of the target and from the claim at each value its
target can have. -/
theorem TargetForms.controlForms {op : Opcode} {run : Target → State → Except Fault State} {d8 : Byte → Instr}
    {d16 : Word → Instr} {d20 : Nibble → Word → Instr}
    {claim : State → Word → Nat → Host.Outcome State Fault Refusal → Prop} (h : TargetForms op run d8 d16 d20)
    (hrefused : ∀ {tg : Target} {s : State} {f : Fault}, tg.value = .error f → run tg s = .error f)
    (hclaim : ∀ {tg : Target} {v : Word} {s : State}, tg.value = .ok v → claim s v tg.len (outcome (run tg s))) :
    ControlForms (Config.numbering.opcodeByte op .direct) d8 d16 d20 claim := by
  intro v w ad
  refine ⟨⟨encode_d8 op (h.parts_d8 v), encode_d16 op (h.parts_d16 w), encode_d20 op (h.parts_d20 ad w)⟩, fun s => ?_⟩
  rw [h.exec_d8, h.exec_d16, h.exec_d20, h.exec_d20]
  exact ⟨hclaim (tg := .abs8 v) rfl, hclaim (tg := .abs16 w) rfl, hclaim (tg := .abs20 0 w) rfl, fun hne =>
    outcome_eq_fault.2 (hrefused (Target.value_error.2 ⟨ad, w, rfl, hne, rfl⟩))⟩

/-! ## Conditional branches -/

/-- The rules of a branch whose target is in range: its condition decides between the jump and `advance()`. -/
theorem branch_branches {cond : Flags → Bool} {holds : Flags → Prop} (hcond : ∀ f, cond f = true ↔ holds f)
    {tg : Target} {v : Word} {s : State} (hv : tg.value = .ok v) :
    Branches holds s v tg.len (outcome (branch cond tg s)) := by
  refine ⟨fun htaken => outcome_eq_next.2 (branch_ok.2 ⟨v, hv, .inl ⟨(hcond _).2 htaken, rfl⟩⟩), fun hnot => ?_⟩
  have hadvance : branch cond tg s = advance tg.len s := by
    simp [branch, hv, mt (hcond s.flags).1 hnot]
  exact hadvance ▸ advancesFrom_advance tg.len s

theorem TargetForms.branches {op : Opcode} {cond : Flags → Bool} {holds : Flags → Prop} {d8 : Byte → Instr}
    {d16 : Word → Instr} {d20 : Nibble → Word → Instr} (h : TargetForms op (branch cond) d8 d16 d20)
    (hcond : ∀ f, cond f = true ↔ holds f) :
    ControlForms (Config.numbering.opcodeByte op .direct) d8 d16 d20 (Branches holds) :=
  h.controlForms (fun hv => branch_error.2 (.inl hv)) (branch_branches hcond)

theorem beq_forms : TargetForms .beq (branch condEq) .beqD8 .beqD16 .beqD20 := by constructor <;> intros <;> rfl

theorem bgt_forms : TargetForms .bgt (branch condGt) .bgtD8 .bgtD16 .bgtD20 := by constructor <;> intros <;> rfl

theorem blt_forms : TargetForms .blt (branch condLt) .bltD8 .bltD16 .bltD20 := by constructor <;> intros <;> rfl

theorem bof_forms : TargetForms .bof (branch condOverflow) .bofD8 .bofD16 .bofD20 := by constructor <;> intros <;> rfl

theorem bne_forms : TargetForms .bne (branch condNe) .bneD8 .bneD16 .bneD20 := by constructor <;> intros <;> rfl

theorem bge_forms : TargetForms .bge (branch condGe) .bgeD8 .bgeD16 .bgeD20 := by constructor <;> intros <;> rfl

theorem ble_forms : TargetForms .ble (branch condLe) .bleD8 .bleD16 .bleD20 := by constructor <;> intros <;> rfl

/-- Settles O37: the seven branches are one operation, each with its own condition on the flags. -/
theorem branchResults : Obligations.BranchResults :=
  ⟨beq_forms.branches fun _ => Iff.rfl, bgt_forms.branches fun _ => Iff.rfl, blt_forms.branches fun _ => Iff.rfl,
    bof_forms.branches fun _ => Iff.rfl, bne_forms.branches fun f => Iff.of_eq (Bool.not_eq_true' f.z),
    bge_forms.branches fun _ => Bool.or_eq_true_iff, ble_forms.branches fun _ => Bool.or_eq_true_iff⟩

/-! ## JMP -/

theorem jmp_forms : TargetForms .jmp jump .jmpD8 .jmpD16 .jmpD20 := by constructor <;> intros <;> rfl

/-- Settles O38: the operation writes its target to PC. -/
theorem jmpResult : Obligations.JmpResult :=
  jmp_forms.controlForms jump_error.2 fun {_ v _} hv => outcome_eq_next.2 (jump_ok.2 ⟨v, hv, rfl⟩)

/-! ## JSR and RET -/

theorem jsr_forms : TargetForms .jsr callSub .jsrD8 .jsrD16 .jsrD20 := by constructor <;> intros <;> rfl

/-- The rules of JSR at a target in range: the check of the return address, then its push, refused or served. -/
theorem callSub_answers {tg : Target} {v : Word} {s : State} (hv : tg.value = .ok v) :
    (0xFFFF < s.regs.pc.toNat + tg.len → outcome (callSub tg s) = .fault (.pcOverflow s.regs.pc)) ∧
    (s.regs.pc.toNat + tg.len ≤ 0xFFFF →
      (∀ k, pushFault s = some k → outcome (callSub tg s) = .fault k) ∧
      (pushFault s = none → ∃ u, Pushed s u (s.regs.pc + BitVec.ofNat 16 tg.len) ∧
        outcome (callSub tg s) = .next { u with regs := { u.regs with pc := v } })) := by
  refine ⟨fun hgt => ?_, fun hle => ⟨fun k hk => ?_, fun hnone => ?_⟩⟩
  · exact outcome_eq_fault.2 (callSub_error.2 (.inr ⟨v, hv, .inl ⟨hgt, rfl⟩⟩))
  · exact outcome_eq_fault.2 (callSub_error.2 (.inr ⟨v, hv, .inr ⟨hle, push_refused _ hk⟩⟩))
  · obtain ⟨u, hu, hpushed⟩ := push_served (s.regs.pc + BitVec.ofNat 16 tg.len) hnone
    exact ⟨u, hpushed, outcome_eq_next.2 (callSub_ok.2 ⟨v, u, hv, hle, hu, rfl⟩)⟩

/-- Settles O39: the three widths are one operation at three targets. -/
theorem jsrResult : Obligations.JsrResult :=
  jsr_forms.controlForms (fun hv => callSub_error.2 (.inl hv)) callSub_answers

/-- Settles O40: a pop, refused or served, and then the jump to the popped word. -/
theorem retResult : Obligations.RetResult := by
  refine ⟨by decide, fun s => ⟨fun hne => ?_, fun hnone => ?_⟩⟩
  · obtain ⟨f, hf⟩ := Option.ne_none_iff_exists'.1 hne
    exact ⟨f, popRefusal_of_popFault hf, outcome_eq_fault.2 (returnSub_error.2 (pop_refused hf))⟩
  · exact outcome_eq_next.2 (returnSub_ok.2 ⟨_, _, pop_served hnone, rfl⟩)

/-! ## A RET after a JSR -/

/-- A JSR of any width is one call, whose length is the instruction's. -/
theorem exec_jsr_eq {i : Instr} (hop : i.parts.op = .jsr) (s : State) :
    ∃ tg : Target, tg.len = i.length ∧ exec i s = outcome (callSub tg s) := by
  cases i with
  | jsrD8 v => exact ⟨.abs8 v, rfl, rfl⟩
  | jsrD16 w => exact ⟨.abs16 w, rfl, rfl⟩
  | jsrD20 ad lo => exact ⟨.abs20 ad lo, rfl, rfl⟩
  | _ => cases hop

/-- A served write leaves which reads are refused: each device keeps its range and its kind. -/
theorem Replaces.readFault_eq {s t : State} {a : Nat} {bs : List Byte} {pre post : List Device} {d : Device}
    {cells : Memory} (h : Replaces s t a bs pre d post cells) (b : Nat) (word : Bool) :
    readFault t b word = readFault s b word := by
  unfold readFault
  obtain ⟨hs, ht⟩ | ht := h.arbitrate_cases b
  · rw [hs, ht]
  · rw [ht]

/-- A push changes the registers at SP alone. -/
theorem push_regs {v : Word} {s t : State} (h : push v s = .ok t) :
    t.regs = { s.regs with sp := s.regs.sp + 2 } := by
  obtain ⟨_, u, hw, rfl⟩ := push_ok.1 h
  obtain ⟨_, _, _, _, R, _⟩ := memWriteWord_ok hw
  rw [R.next]; rfl

theorem readFault_of_push {v : Word} {s t : State} (h : push v s = .ok t) (b : Nat) (word : Bool) :
    readFault t b word = readFault s b word := by
  obtain ⟨_, u, hw, rfl⟩ := push_ok.1 h
  obtain ⟨_, _, _, _, R, _⟩ := memWriteWord_ok hw
  exact R.readFault_eq b word

/-- A pop after a push is served where the word at the old SP is readable. -/
theorem popFault_of_push {v : Word} {s t : State} (h : push v s = .ok t) (hread : readFault s (spOf s) true = none) :
    popFault t = none := by
  have hsp : spOf t = spOf s + 2 := spOf_push h
  rw [popFault, if_neg (by omega), readFault_of_push h, hsp, Nat.add_sub_cancel, hread, Option.map_none]

/-- Settles O52: the JSR leaves its return address on top of the stack, and the RET pops it from there into PC. -/
theorem callThenReturn : Obligations.CallThenReturn := by
  intro s t i hop h hread
  obtain ⟨tg, hlen, hi⟩ := exec_jsr_eq hop s
  rw [hi] at h
  obtain ⟨v, u, _, _, hpush, rfl⟩ := callSub_ok.1 (outcome_eq_next.1 h)
  have hregs : u.regs = { s.regs with sp := s.regs.sp + 2 } := push_regs hpush
  have htop : storedWord u (spOf u - 2) = s.regs.pc + BitVec.ofNat 16 i.length := by
    rw [spOf_push hpush, Nat.add_sub_cancel, ← hlen]
    exact (push_storedWord hpush).1
  have hnone : popFault u = none := popFault_of_push hpush hread
  calc exec .retN (u.setReg .pc v)
      = .next { u with regs := { u.regs with sp := u.regs.sp - 2, pc := storedWord u (spOf u - 2) } } :=
        (retResult.2 (u.setReg .pc v)).2 hnone
    _ = .next { u.setReg .pc v with regs := { s.regs with pc := s.regs.pc + BitVec.ofNat 16 i.length } } := by
        rw [htop, hregs, BitVec.add_sub_cancel]; rfl

end Sys2Proof.Machine

/-! PROOFS. The statements on the system instructions: HLT and NOP, INT and the dispatch of its request by the next
tick, and REI as a run of pops. -/

namespace Sys2Proof.Machine

open Sys2Proof.Claims

/-! ## The tick of a halted machine -/

theorem tick_halted {N : Numbering} {s : State} (hfault : s.fault = none) (hrun : s.running = false) :
    tick N s = .next s := by
  simp [tick, hfault, hrun]

/-- A state that the step answers unchanged is the end of every run from it. -/
theorem run_of_step_self {s : State} (h : step s = .next s) (n : Nat) : core.run n s = .next s := by
  induction n with
  | zero => rfl
  | succ n ih =>
    simp only [Host.Core.run, show core.step s = .next s from h]
    exact ih

/-- Settles O10: a tick of a halted machine answers the state it was given. -/
theorem haltedForGood : Obligations.HaltedForGood :=
  fun _ n hrun hfault => run_of_step_self (tick_halted hfault hrun) n

/-! ## HLT and NOP -/

/-- Settles O41: HLT is the end of a run by its idle tick, NOP is `advance()`. -/
theorem hltNopResults : Obligations.HltNopResults :=
  ⟨by decide, by decide, fun s => ⟨rfl, fun hfault => tick_halted hfault rfl, advancesFrom_advance 2 s⟩⟩

/-! ## INT -/

theorem requestInterrupt_of_gt {len : Nat} {w : Word} {s : State} (h : 254 < w.toNat) :
    outcome (requestInterrupt len w s) = .fault (.invalidInterrupt w) :=
  outcome_eq_fault.2 (requestInterrupt_error.2 (.inl ⟨h, rfl⟩))

theorem requestInterrupt_of_eq {len : Nat} {w : Word} {n : Fin 255} {s : State} (h : n.val = w.toNat) :
    requestInterrupt len w s = advance len (s.setIrq ⟨true, n⟩) := by
  obtain ⟨_, hlt⟩ := n
  subst h
  exact dif_pos hlt

theorem requestInterrupt_advances {len : Nat} {w : Word} {n : Fin 255} {s : State} (h : n.val = w.toNat) :
    AdvancesFrom (outcome (requestInterrupt len w s)) (s.setIrq ⟨true, n⟩) len :=
  requestInterrupt_of_eq h ▸ advancesFrom_advance len _

theorem imm8_toNat (v : Byte) : (imm8 v).toNat = v.toNat :=
  BitVec.toNat_setWidth_of_le (by decide)

/-- Settles O42: both widths are one request of their number. -/
theorem intResult : Obligations.IntResult := by
  refine fun v w => ⟨⟨encode_i8 .int rfl, encode_i16 .int rfl⟩, fun s => ⟨fun hgt => ?_, requestInterrupt_of_gt,
    fun n hn => ?_, fun n => requestInterrupt_advances⟩⟩
  · exact requestInterrupt_of_gt (w := imm8 v) (by rwa [imm8_toNat])
  · exact requestInterrupt_advances (hn.trans (imm8_toNat v).symm)

end Sys2Proof.Machine

namespace Sys2Proof.Claims

open Sys2Proof.Machine

/-! ## A run of writable bytes -/

theorem WritableRun.writeFault_eq_none {s : State} {a n : Nat} (h : WritableRun s a (n + 2)) :
    writeFault s a true = none := by
  obtain ⟨d, hw, hd⟩ := h
  have ha : arbitrate s.devices a = some d := hd 0 (by omega)
  have hlast : a ≠ d.last.toNat := by
    have := (d.owns_iff (a + 1)).1 (arbitrate_owns (hd 1 (by omega)))
    omega
  simp [writeFault, ha, hw, hlast]

/-- What is left of a run after the word at its start. -/
theorem WritableRun.afterWord {s : State} {a n : Nat} (h : WritableRun s a (n + 2)) : WritableRun s (a + 2) n := by
  obtain ⟨d, hw, hd⟩ := h
  refine ⟨d, hw, fun k hk => ?_⟩
  rw [Nat.add_assoc]
  exact hd (2 + k) (by omega)

/-- A write at the start of a run is served by the run's device, which goes on answering for the run. -/
theorem WritableRun.memWriteWord {s t : State} {a n : Nat} {v : Word} (h : WritableRun s a (n + 2))
    (hw : Machine.memWriteWord a v s = .ok t) : WritableRun t a (n + 2) := by
  obtain ⟨d, hd, hrun⟩ := h
  obtain ⟨_, e, _, cells, R, _⟩ := memWriteWord_ok hw
  obtain rfl : d = e := Option.some.inj ((hrun 0 (by omega)).symm.trans R.arbitrate_before)
  exact ⟨{ d with cells := cells }, hd, fun k hk => R.arbitrate_written (hrun k hk)⟩

theorem WritableRun.push {s t : State} {v : Word} {n : Nat} (h : WritableRun s (spOf s) (n + 2))
    (hp : Machine.push v s = .ok t) : WritableRun t (spOf t) n := by
  rw [spOf_push hp]
  obtain ⟨_, u, hw, rfl⟩ := push_ok.1 hp
  exact (h.memWriteWord hw).afterWord

end Sys2Proof.Claims

namespace Sys2Proof.Machine

open Sys2Proof.Claims

/-! ## A run of pushes -/

/-- Pushes are served where there is room for their words in one writable device. -/
theorem pushAll_served {vs : List Word} {s : State} (hroom : spOf s + 2 * vs.length ≤ 0xFFFF)
    (hw : WritableRun s (spOf s) (2 * vs.length)) : ∃ t, pushAll vs s = .ok t := by
  induction vs generalizing s with
  | nil => exact ⟨s, rfl⟩
  | cons v vs ih =>
    rw [List.length_cons, Nat.mul_succ] at hroom hw
    have hnone : pushFault s = none := by
      rw [pushFault, if_neg (by omega), hw.writeFault_eq_none, Option.map_none]
    obtain ⟨u, hu, _⟩ := push_served v hnone
    obtain ⟨t, ht⟩ := ih (by rw [spOf_push hu]; omega) (hw.push hu)
    exact ⟨t, Except.bind_eq_ok_iff.2 ⟨u, hu, ht⟩⟩

theorem push_stack {v : Word} {ws : List Word} {s t : State} (h : push v s = .ok t) (hs : StackHolds s (spOf s) ws) :
    StackHolds t (spOf t) (v :: ws) := by
  obtain ⟨htop, hbelow⟩ := push_storedWord h
  rw [spOf_push h]
  exact ⟨by omega, htop, hs.of_below hbelow⟩

/-- Pushes put their words on top of those on the stack, the last on top. -/
theorem pushAll_stack {vs ws : List Word} {s t : State} (h : pushAll vs s = .ok t) (hs : StackHolds s (spOf s) ws) :
    StackHolds t (spOf t) (vs.reverse ++ ws) ∧ spOf t = spOf s + 2 * vs.length := by
  induction vs generalizing s ws with
  | nil => cases h; exact ⟨hs, rfl⟩
  | cons v vs ih =>
    obtain ⟨u, hp, h⟩ := Except.bind_eq_ok_iff.1 h
    obtain ⟨ht, hsp⟩ := ih h (push_stack hp hs)
    refine ⟨by simpa using ht, ?_⟩
    rw [hsp, spOf_push hp, List.length_cons]
    omega

/-! ## The dispatch of a request -/

theorem tick_pending {N : Numbering} {s : State} (hfault : s.fault = none) (hrun : s.running = true)
    (hirq : s.irq.pending = true) : tick N s = outcome (interruptDispatch s) := by
  simp [tick, hfault, hrun, hirq]

theorem vectorAddr_eq (n : Fin 255) : vectorAddr n = 2 * n.val := Nat.zero_add _

/-- A dispatch through a vector that is not 0: the frame is pushed, and the PC is the vector. -/
theorem interruptDispatch_eq {s : State} (hread : readFault s (2 * s.irq.number.val) true = none)
    (hne : storedWord s (2 * s.irq.number.val) ≠ 0) :
    interruptDispatch s = pushAll (interruptFrame s) s >>= fun t =>
      .ok (t.setReg .pc (storedWord s (2 * s.irq.number.val))).clearIrq := by
  rw [interruptDispatch, vectorAddr_eq, memReadWord_served hread, Except.ok_bind, if_neg hne]

/-- The frame's last word, the PC, is the top of the stack after its pushes (R345). -/
theorem pushAll_interruptFrame_top {s t : State} (h : pushAll (interruptFrame s) s = .ok t) :
    storedWord t (spOf s + 14) = s.regs.pc := by
  obtain ⟨hstack, hsp⟩ := pushAll_stack (ws := []) h trivial
  obtain ⟨_, htop, _⟩ : StackHolds t (spOf t) (s.regs.pc :: _) := hstack
  have h16 : spOf t = spOf s + 16 := hsp
  rwa [h16] at htop

/-- Settles O11: the INT leaves its request and advances, and the next tick dispatches the request, its frame served by
the run of writable bytes. -/
theorem intIsDispatchedNextTick : Obligations.IntIsDispatchedNextTick := by
  intro s n hfault hrun hn hpc hread hne hroom hw
  let q : Irq := ⟨true, ⟨n.toNat, by omega⟩⟩
  let t : State := (s.setIrq q).setReg .pc (s.regs.pc + 3)
  have hint : exec (.intI8 n) s = .next t :=
    (requestInterrupt_advances (n := q.number) (imm8_toNat n).symm).1 hpc
  obtain ⟨u, hu⟩ : ∃ u, pushAll (interruptFrame t) t = .ok u := pushAll_served hroom hw
  have hdispatch : step t = .next (u.setReg .pc (storedWord s (2 * n.toNat))).clearIrq := by
    refine (tick_pending (s := t) hfault hrun rfl).trans (outcome_eq_next.2 ?_)
    rw [interruptDispatch_eq hread hne, hu]
    rfl
  exact ⟨t, _, hint, hdispatch, rfl, rfl, pushAll_interruptFrame_top hu⟩

/-! ## A run of pops -/

theorem pop_eq {s : State} {a : Nat} {v : Word} (hsp : spOf s = a + 2) (hread : memReadWord a s = .ok v) :
    pop s = .ok (v, s.setReg .sp (s.regs.sp - 2)) :=
  pop_ok.2 ⟨by omega, by rwa [hsp, Nat.add_sub_cancel], rfl⟩

theorem spOf_pop_eq {s t : State} {a : Nat} {v : Word} (hsp : spOf s = a + 2) (h : pop s = .ok (v, t)) : spOf t = a :=
  Nat.add_right_cancel ((spOf_pop h).symm.trans hsp)

theorem spOf_setReg_ne (s : State) {x : Reg} (v : Word) (h : Reg.sp ≠ x) : spOf (s.setReg x v) = spOf s :=
  congrArg BitVec.toNat (State.getReg_setReg_ne s v h)

theorem spOf_setFlags (s : State) (f : Flags) : spOf (s.setFlags f) = spOf s := rfl

/-- The register file after a run of words is popped into `xs`: the first register takes the last word. -/
def poppedRegs (word : Nat → Word) : List Reg → Regs → Regs
  | [], r => r
  | x :: xs, r => poppedRegs word xs ((r.set .sp (r.sp - 2)).set x (word xs.length))

/-- Pops are served where the words below SP, from the address `a` up, can be read. -/
theorem popRegs_served {word : Nat → Word} {xs : List Reg} {s : State} {a : Nat} (hxs : Reg.sp ∉ xs)
    (hsp : spOf s = a + 2 * xs.length) (hread : ∀ k < xs.length, memReadWord (a + 2 * k) s = .ok (word k)) :
    popRegs xs s = .ok { s with regs := poppedRegs word xs s.regs } := by
  induction xs generalizing s with
  | nil => rfl
  | cons x xs ih =>
    obtain ⟨hx, hxs⟩ := not_or.1 (List.mem_cons.not.1 hxs)
    have hlen : xs.length < (x :: xs).length := Nat.lt_succ_self _
    have hp := pop_eq hsp (hread xs.length hlen)
    rw [popRegs, hp, Except.ok_bind]
    refine ih hxs ?_ fun k hk => (memReadWord_congr rfl _).trans (hread k (Nat.lt_trans hk hlen))
    exact (spOf_setReg_ne _ _ hx).trans (spOf_pop_eq hsp hp)

/-- Every word below SP can be read, down to the last that a pop takes. -/
def StackReadable (s : State) : Prop := ∀ k, 1 ≤ k → 2 * k ≤ spOf s → readFault s (spOf s - 2 * k) true = none

theorem readFault_congr {s t : State} (h : t.devices = s.devices) (a : Nat) (word : Bool) :
    readFault t a word = readFault s a word := by
  unfold readFault; rw [h]

theorem StackReadable.of_eq {s t : State} (h : StackReadable s) (hsp : spOf t = spOf s)
    (hdevices : t.devices = s.devices) : StackReadable t := by
  intro k hk hle
  rw [hsp] at hle ⊢
  rw [readFault_congr hdevices]
  exact h k hk hle

/-- On a readable stack a pop underflows, or it is served and leaves a readable stack. -/
theorem StackReadable.pop {s : State} (h : StackReadable s) :
    (∃ w, Machine.pop s = .error (.stackUnderflow w)) ∨
      ∃ v t, Machine.pop s = .ok (v, t) ∧ StackReadable t ∧ spOf s = spOf t + 2 := by
  obtain hlt | hle := Nat.lt_or_ge (spOf s) 2
  · exact .inl ⟨_, pop_error.2 (.inl ⟨hlt, rfl⟩)⟩
  · have hp := pop_ok.2 ⟨hle, memReadWord_served (h 1 (by omega) hle), rfl⟩
    have hsp := spOf_pop hp
    refine .inr ⟨_, _, hp, fun k hk hlek => ?_, hsp⟩
    have hread := h (k + 1) (by omega) (by omega)
    rwa [hsp, Nat.mul_succ, Nat.add_sub_add_right] at hread

theorem StackReadable.popRegs_underflow {xs : List Reg} {s : State} (h : StackReadable s) (hxs : Reg.sp ∉ xs)
    (hlt : spOf s < 2 * xs.length) : ∃ w, popRegs xs s = .error (.stackUnderflow w) := by
  induction xs generalizing s with
  | nil => exact absurd hlt (Nat.not_lt_zero _)
  | cons x xs ih =>
    obtain ⟨hx, hxs⟩ := not_or.1 (List.mem_cons.not.1 hxs)
    rw [popRegs]
    obtain ⟨w, hp⟩ | ⟨v, t, hp, ht, hsp⟩ := h.pop
    · exact ⟨w, by rw [hp]; rfl⟩
    · rw [hp, Except.ok_bind]
      have hspt := spOf_setReg_ne t v hx
      rw [List.length_cons] at hlt
      exact ih (ht.of_eq hspt rfl) hxs (by omega)

/-! ## REI -/

theorem sp_not_mem_savedRegs : Reg.sp ∉ savedRegs.reverse := by decide

theorem returnFromInterrupt_error {s : State} {f : Fault} :
    returnFromInterrupt s = .error f ↔
      pop s = .error f ∨ ∃ ret s1, pop s = .ok (ret, s1) ∧
        (pop (s1.setReg .pc ret) = .error f ∨ ∃ w s2, pop (s1.setReg .pc ret) = .ok (w, s2) ∧
          popRegs savedRegs.reverse (s2.setFlags (flagsOfWord w)) = .error f) := by
  simp [returnFromInterrupt, Except.bind_eq_error_iff]

/-- REI where the eight words below SP, from the address `a` up, can be read (R310). -/
theorem returnFromInterrupt_served {word : Nat → Word} {s : State} {a : Nat} (hsp : spOf s = a + 16)
    (hread : ∀ k < 8, memReadWord (a + 2 * k) s = .ok (word k)) :
    returnFromInterrupt s = .ok
      { s with
        regs := ⟨word 0, word 1, word 2, word 3, word 4, word 5, word 7, s.regs.sp - 16, s.regs.bp⟩
        flags := flagsOfWord (word 6) } := by
  have hread' : ∀ {t : State}, t.devices = s.devices → ∀ k < 8, memReadWord (a + 2 * k) t = .ok (word k) :=
    fun ht k hk => (memReadWord_congr ht _).trans (hread k hk)
  have hpc := pop_eq hsp (hread' rfl 7 (by decide))
  have hsp14 : spOf ((s.setReg .sp (s.regs.sp - 2)).setReg .pc (word 7)) = a + 14 :=
    (spOf_setReg_ne _ _ (by decide)).trans (spOf_pop_eq hsp hpc)
  have hflags := pop_eq hsp14 (hread' rfl 6 (by decide))
  have hsp12 := (spOf_setFlags _ (flagsOfWord (word 6))).trans (spOf_pop_eq hsp14 hflags)
  have hregs := popRegs_served sp_not_mem_savedRegs hsp12 fun k hk => hread' rfl k (Nat.lt_trans hk (by decide))
  refine returnFromInterrupt_ok.2 ⟨_, _, _, _, hpc, hflags, hregs.trans ?_⟩
  simp [poppedRegs, savedRegs, Regs.set, BitVec.sub_sub]

theorem StackReadable.returnFromInterrupt_underflow {s : State} (h : StackReadable s) (hlt : spOf s < 16) :
    ∃ w, returnFromInterrupt s = .error (.stackUnderflow w) := by
  obtain ⟨w, hp⟩ | ⟨ret, t, hp, ht, hspt⟩ := h.pop
  · exact ⟨w, returnFromInterrupt_error.2 (.inl hp)⟩
  have hspt' : spOf (t.setReg .pc ret) = spOf t := rfl
  obtain ⟨w, hp'⟩ | ⟨fl, u, hp', hu, hspu⟩ := StackReadable.pop (ht.of_eq hspt' rfl)
  · exact ⟨w, returnFromInterrupt_error.2 (.inr ⟨ret, t, hp, .inl hp'⟩)⟩
  have hu' : StackReadable (u.setFlags (flagsOfWord fl)) := hu.of_eq rfl rfl
  have hltu : spOf u < 12 := by omega
  obtain ⟨w, hp''⟩ := hu'.popRegs_underflow sp_not_mem_savedRegs hltu
  exact ⟨w, returnFromInterrupt_error.2 (.inr ⟨ret, t, hp, .inr ⟨fl, u, hp', hp''⟩⟩)⟩

/-- Settles O43: eight pops that are served, or pops on a readable stack that ends before the eighth. -/
theorem reiResult : Obligations.ReiResult := by
  refine ⟨by decide, fun s => ⟨fun hle hread => ?_, fun hlt hread => ?_⟩⟩
  · have hsp : spOf s = spOf s - 16 + 16 := by omega
    exact outcome_eq_next.2 (returnFromInterrupt_served hsp fun k hk => memReadWord_served (hread k hk))
  · obtain ⟨w, hw⟩ := StackReadable.returnFromInterrupt_underflow hread hlt
    exact ⟨w, outcome_eq_fault.2 hw⟩

end Sys2Proof.Machine

/-! PROOFS. The statements on exceptions: the faults of a fetch and of a decode, the faults that an executor may raise,
interrupt entry as a run of pushes, and REI right after it. -/

namespace Sys2Proof.Machine

open Sys2Proof.Claims

/-! ## The faults of a fetch -/

section FetchFault

variable {s : State} {ir : Word} {k : Fault}

theorem fetch_opcodeWord_error (hir : memReadWord s.regs.pc.toNat s = .error k) : fetch s = .error k := by
  simp [fetch, hir]

theorem fetch_firstByte_error (hir : memReadWord s.regs.pc.toNat s = .ok ir)
    (hw : widthOf ir = .byte ∨ widthOf ir = .long) (hb : memReadByte (s.regs.pc.toNat + 2) s = .error k) :
    fetch s = .error k := by
  obtain hw | hw := hw <;> simp [fetch, hir, hw, hb]

theorem fetch_word_error (hir : memReadWord s.regs.pc.toNat s = .ok ir) (hw : widthOf ir = .word)
    (hv : memReadWord (s.regs.pc.toNat + 2) s = .error k) : fetch s = .error k := by
  simp [fetch, hir, hw, hv]

theorem fetch_longWord_error {b : Byte} (hir : memReadWord s.regs.pc.toNat s = .ok ir) (hw : widthOf ir = .long)
    (hb : memReadByte (s.regs.pc.toNat + 2) s = .ok b) (hv : memReadWord (s.regs.pc.toNat + 3) s = .error k) :
    fetch s = .error k := by
  simp [fetch, hir, hw, hb, hv]

end FetchFault

/-! ## The tick of a fetch or a decode that faults -/

theorem fetchDecode_of_fetch_error {N : Numbering} {s : State} {k : Fault} (hf : fetch s = .error k) :
    fetchDecode N s = .error k := by
  simp [fetchDecode, hf]

theorem fetchDecode_of_decode_error {N : Numbering} {s s' : State} {adhi : Nibble} {r : DecodeReject}
    (hf : fetch s = .ok (s', adhi)) (hd : decodeLatches N s'.latches adhi = .error r) :
    fetchDecode N s = .error (rejectFault r) := by
  simp [fetchDecode, hf, hd, decodeFault]

theorem tick_of_fetchDecode_error {N : Numbering} {s : State} {k : Fault} (hfault : s.fault = none)
    (hrun : s.running = true) (hirq : s.irq.pending = false) (h : fetchDecode N s = .error k) :
    tick N s = .fault k := by
  simp [tick, hfault, hrun, hirq, runInstr, h]

/-- Settles O9: a read of the fetch that faults is the fetch's fault, and the decode is reached only where the fetch is
done. -/
theorem fetchAndDecodeFaultsInOrder : Obligations.FetchAndDecodeFaultsInOrder := by
  intro s hfault hrun hirq
  have hstep : ∀ {k}, fetchDecode Config.numbering s = .error k → step s = .fault k :=
    tick_of_fetchDecode_error hfault hrun hirq
  have hfetch : ∀ {k}, fetch s = .error k → step s = .fault k := fun h => hstep (fetchDecode_of_fetch_error h)
  exact ⟨fun _ hir => hfetch (fetch_opcodeWord_error hir),
    fun _ _ hir hw hb => hfetch (fetch_firstByte_error hir hw hb),
    fun _ _ hir hw hv => hfetch (fetch_word_error hir hw hv),
    fun _ _ _ hir hw hb hv => hfetch (fetch_longWord_error hir hw hb hv),
    fun _ _ _ hf hd => hstep (fetchDecode_of_decode_error hf hd),
    fun _ _ _ hf hd => hstep (fetchDecode_of_decode_error hf hd)⟩

/-! ## The faults of the memory primitives -/

/-- No read is refused as ReadOnly, and no byte read straddles. -/
theorem readFault_kind {s : State} {a : Nat} {word : Bool} {k : BusError} (h : readFault s a word = some k) :
    k ≠ .readOnly ∧ (word = false → k ≠ .straddle) := by
  unfold readFault at h
  split at h
  · cases h; exact ⟨nofun, fun _ => nofun⟩
  · split at h
    · cases h; exact ⟨nofun, fun _ => nofun⟩
    · split at h
      next hlast => obtain ⟨rfl, _⟩ := hlast; cases h; exact ⟨nofun, nofun⟩
      next => cases h

/-- No write is refused as WriteOnly, and no byte write straddles. -/
theorem writeFault_kind {s : State} {a : Nat} {word : Bool} {k : BusError} (h : writeFault s a word = some k) :
    k ≠ .writeOnly ∧ (word = false → k ≠ .straddle) := by
  unfold writeFault at h
  split at h
  · cases h; exact ⟨nofun, fun _ => nofun⟩
  · split at h
    · cases h; exact ⟨nofun, fun _ => nofun⟩
    · split at h
      next hlast => obtain ⟨rfl, _⟩ := hlast; cases h; exact ⟨nofun, nofun⟩
      next => cases h

theorem memReadByte_error_iff {s : State} {a : Nat} {f : Fault} :
    memReadByte a s = .error f ↔ ∃ k, f = .bus k a ∧ readFault s a false = some k := by
  rw [memReadByte_eq]
  cases readFault s a false <;> simp [eq_comm]

theorem memReadWord_error_iff {s : State} {a : Nat} {f : Fault} :
    memReadWord a s = .error f ↔ ∃ k, f = .bus k a ∧ readFault s a true = some k := by
  rw [memReadWord_eq]
  cases readFault s a true <;> simp [eq_comm]

/-! ## Operations that raise what an instruction may raise -/

/-- Every fault of the operation other than InvalidRegister is one that the instruction may raise. -/
def RaisesListed {α : Type} (i : Instr) (x : Except Fault α) : Prop :=
  ∀ f, x = .error f → (∀ n, f ≠ .invalidRegister n) → mayRaise i f

namespace RaisesListed

variable {i : Instr} {s : State}

theorem ok {α : Type} (v : α) : RaisesListed i (.ok v) := nofun

theorem bind {α β : Type} {x : Except Fault α} {f : α → Except Fault β} (hx : RaisesListed i x)
    (hf : ∀ v, RaisesListed i (f v)) : RaisesListed i (x >>= f) := by
  intro e h hreg
  rcases Except.bind_eq_error_iff.1 h with h | ⟨v, _, h⟩
  · exact hx e h hreg
  · exact hf v e h hreg

theorem regIndex (n : Nat) : RaisesListed i (Machine.regIndex n) :=
  fun _ h hreg => absurd (regIndex_error.1 h).2 (hreg n)

theorem place (p : Place) : RaisesListed i (p.addr s) := by
  intro f h hreg
  obtain ⟨b, _, _, hf⟩ := Place.addr_error.1 h
  exact absurd hf (hreg b.toNat)

theorem src (y : Src) : RaisesListed i (y.value s) := by
  intro f h hreg
  obtain ⟨b, _, _, hf⟩ := Src.value_error.1 h
  exact absurd hf (hreg b.toNat)

theorem advance {len : Nat} (hop : i.parts.op ∉ [Opcode.jmp, .ret, .hlt, .rei]) :
    RaisesListed i (Machine.advance len s) := by
  intro f h _
  obtain ⟨_, rfl⟩ := advance_error.1 h
  exact hop

theorem memReadWord {a : Nat}
    (hop : (i.parts.op ∈ [Opcode.ld, .pop, .ret, .rei] ∧ i.parts.mode ≠ .immediate) ∨
      (i.parts.op = .psh ∧ i.parts.mode = .direct)) : RaisesListed i (Machine.memReadWord a s) := by
  intro f h _
  obtain ⟨k, rfl, hk⟩ := memReadWord_error_iff.1 h
  have hro := (readFault_kind hk).1
  simp only [List.mem_cons, List.not_mem_nil, or_false] at hop
  obtain ⟨hop | hop | hop | hop, hmode⟩ | ⟨hop, hmode⟩ := hop <;> simp [mayRaise, hop, hmode, hro]

theorem memReadByte {a : Nat} (hop : i.parts.op = .ldb) : RaisesListed i (Machine.memReadByte a s) := by
  intro f h _
  obtain ⟨k, rfl, hk⟩ := memReadByte_error_iff.1 h
  obtain ⟨hro, hst⟩ := readFault_kind hk
  simp [mayRaise, hop, hro, hst rfl]

theorem memWriteWord {a : Nat} {v : Word} (hop : i.parts.op ∈ [Opcode.st, .psh, .jsr]) :
    RaisesListed i (Machine.memWriteWord a v s) := by
  intro f h _
  obtain ⟨k, rfl, hk⟩ := memWriteWord_error_iff.1 h
  have hwo := (writeFault_kind hk).1
  simp only [List.mem_cons, List.not_mem_nil, or_false] at hop
  obtain hop | hop | hop := hop <;> simp [mayRaise, hop, hwo]

theorem memWriteByte {a : Nat} {v : Byte} (hop : i.parts.op ∈ [Opcode.stl, .sth]) :
    RaisesListed i (Machine.memWriteByte a v s) := by
  intro f h _
  obtain ⟨k, rfl, hk⟩ := memWriteByte_error_iff.1 h
  obtain ⟨hwo, hst⟩ := writeFault_kind hk
  simp only [List.mem_cons, List.not_mem_nil, or_false] at hop
  obtain hop | hop := hop <;> simp [mayRaise, hop, hwo, hst rfl]

theorem push {v : Word} (hop : i.parts.op ∈ [Opcode.psh, .jsr]) : RaisesListed i (Machine.push v s) := by
  intro f h hreg
  obtain ⟨_, rfl⟩ | ⟨_, h⟩ := push_error.1 h
  · exact hop
  · exact memWriteWord (List.mem_cons_of_mem _ hop) f h hreg

theorem pop (hop : i.parts.op ∈ [Opcode.pop, .ret, .rei]) (hmode : i.parts.mode ≠ .immediate) :
    RaisesListed i (Machine.pop s) := by
  intro f h hreg
  obtain ⟨_, rfl⟩ | ⟨_, h⟩ := pop_error.1 h
  · exact hop
  · exact memReadWord (.inl ⟨List.mem_cons_of_mem _ hop, hmode⟩) f h hreg

theorem target {t : Target} (hop : i.parts.op ∈ [Opcode.beq, .bgt, .blt, .bof, .bne, .bge, .ble, .jmp, .jsr]) :
    RaisesListed i t.value := by
  intro f h _
  obtain ⟨_, _, _, _, rfl⟩ := Target.value_error.1 h
  exact hop

/-! ### The shared operations -/

theorem moveReg (hop : i.parts.op = .mov) (a : Nibble) (b : Byte) (s : State) :
    RaisesListed i (Machine.moveReg a b s) :=
  (regIndex _).bind fun _ => (regIndex _).bind fun _ => advance (by simp [hop])

theorem loadImm (hop : i.parts.op = .ld) (len : Nat) (a : Nibble) (v : Word) (s : State) :
    RaisesListed i (Machine.loadImm len a v s) :=
  (regIndex _).bind fun _ => advance (by simp [hop])

theorem loadWord (hop : i.parts.op = .ld) (hmode : i.parts.mode ≠ .immediate) (a : Nibble) (p : Place) (s : State) :
    RaisesListed i (Machine.loadWord a p s) :=
  (regIndex _).bind fun _ => (place p).bind fun _ => (memReadWord (.inl ⟨by simp [hop], hmode⟩)).bind fun _ =>
    advance (by simp [hop])

theorem loadByte (hop : i.parts.op = .ldb) (a : Nibble) (p : Place) (s : State) :
    RaisesListed i (Machine.loadByte a p s) :=
  (regIndex _).bind fun _ => (place p).bind fun _ => (memReadByte hop).bind fun _ => advance (by simp [hop])

theorem storeWord (hop : i.parts.op = .st) (a : Nibble) (p : Place) (s : State) :
    RaisesListed i (Machine.storeWord a p s) :=
  bind ((regIndex _).bind fun _ => (place p).bind fun _ => memWriteWord (by simp [hop])) fun _ =>
    advance (by simp [hop])

theorem storeByte (hop : i.parts.op = .stl ∨ i.parts.op = .sth) (part : Word → Byte) (a : Nibble) (p : Place)
    (s : State) : RaisesListed i (Machine.storeByte part a p s) :=
  bind ((regIndex _).bind fun _ => (place p).bind fun _ => memWriteByte (by simpa using hop)) fun _ =>
    advance (by obtain hop | hop := hop <;> simp [hop])

theorem pushImm (hop : i.parts.op = .psh) (len : Nat) (v : Word) (s : State) :
    RaisesListed i (Machine.pushImm len v s) :=
  (push (by simp [hop])).bind fun _ => advance (by simp [hop])

theorem pushReg (hop : i.parts.op = .psh) (a : Nibble) (s : State) : RaisesListed i (Machine.pushReg a s) :=
  bind ((regIndex _).bind fun _ => push (by simp [hop])) fun _ => advance (by simp [hop])

theorem pushMem (hop : i.parts.op = .psh) (hmode : i.parts.mode = .direct) (p : Place) (s : State) :
    RaisesListed i (Machine.pushMem p s) :=
  bind ((place p).bind fun _ => (memReadWord (.inr ⟨hop, hmode⟩)).bind fun _ => push (by simp [hop])) fun _ =>
    advance (by simp [hop])

theorem popReg (hop : i.parts.op = .pop) (hmode : i.parts.mode ≠ .immediate) (a : Nibble) (s : State) :
    RaisesListed i (Machine.popReg a s) :=
  (regIndex _).bind fun _ => (pop (by simp [hop]) hmode).bind fun _ => advance (by simp [hop])

theorem withOperands {effect : Reg → Word → State → Except Fault State}
    (hop : i.parts.op ∉ [Opcode.jmp, .ret, .hlt, .rei]) (he : ∀ x v s, RaisesListed i (effect x v s)) (a : Nibble)
    (y : Src) (s : State) : RaisesListed i (Machine.withOperands effect a y s) :=
  (regIndex _).bind fun x => (src y).bind fun v => (he x v s).bind fun _ => advance hop

theorem lshEffect (hop : i.parts.op = .lsh) (x : Reg) (v : Word) (s : State) :
    RaisesListed i (Machine.lshEffect x v s) := by
  intro f h _
  obtain ⟨hgt, rfl⟩ := lshEffect_error.1 h
  exact ⟨by simp [hop], hgt⟩

theorem rshEffect (hop : i.parts.op = .rsh) (x : Reg) (v : Word) (s : State) :
    RaisesListed i (Machine.rshEffect x v s) := by
  intro f h _
  obtain ⟨hgt, rfl⟩ := rshEffect_error.1 h
  exact ⟨by simp [hop], hgt⟩

theorem modEffect (hop : i.parts.op = .mod) (x : Reg) (v : Word) (s : State) :
    RaisesListed i (Machine.modEffect x v s) := by
  intro f h _
  obtain ⟨_, rfl⟩ := modEffect_error.1 h
  exact hop

theorem branch (hop : i.parts.op ∈ [Opcode.beq, .bgt, .blt, .bof, .bne, .bge, .ble]) (cond : Flags → Bool)
    (t : Target) (s : State) : RaisesListed i (Machine.branch cond t s) := by
  have hadvances : i.parts.op ∉ [Opcode.jmp, .ret, .hlt, .rei] := by
    simp only [List.mem_cons, List.not_mem_nil, or_false] at hop
    obtain hop | hop | hop | hop | hop | hop | hop := hop <;> simp [hop]
  intro f h hreg
  obtain h | ⟨_, _, _, h⟩ := branch_error.1 h
  · exact target (List.mem_append_left [.jmp, .jsr] hop) f h hreg
  · exact advance hadvances f h hreg

theorem jump (hop : i.parts.op = .jmp) (t : Target) (s : State) : RaisesListed i (Machine.jump t s) :=
  fun f h hreg => target (by simp [hop]) f (jump_error.1 h) hreg

theorem callSub (hop : i.parts.op = .jsr) (t : Target) (s : State) : RaisesListed i (Machine.callSub t s) := by
  intro f h hreg
  obtain h | ⟨_, _, ⟨_, rfl⟩ | ⟨_, h⟩⟩ := callSub_error.1 h
  · exact target (by simp [hop]) f h hreg
  · simp [mayRaise, hop]
  · exact push (by simp [hop]) f h hreg

theorem returnSub (hop : i.parts.op = .ret) (hmode : i.parts.mode ≠ .immediate) (s : State) :
    RaisesListed i (Machine.returnSub s) :=
  fun f h hreg => pop (by simp [hop]) hmode f (returnSub_error.1 h) hreg

theorem requestInterrupt (hop : i.parts.op = .int) (len : Nat) (v : Word) (s : State) :
    RaisesListed i (Machine.requestInterrupt len v s) := by
  intro f h hreg
  obtain ⟨hgt, rfl⟩ | ⟨_, h⟩ := requestInterrupt_error.1 h
  · exact ⟨hop, hgt⟩
  · exact advance (by simp [hop]) f h hreg

theorem returnFromInterrupt (hop : i.parts.op = .rei) (hmode : i.parts.mode ≠ .immediate) (s : State) :
    RaisesListed i (Machine.returnFromInterrupt s) := by
  have hpop : ∀ {u : State}, RaisesListed i (Machine.pop u) := pop (by simp [hop]) hmode
  refine hpop.bind fun _ => hpop.bind fun _ f h => ?_
  obtain ⟨u, hu⟩ := popRegs_error h
  exact hpop f hu

end RaisesListed

/-! ## Every executor -/

/-- Every executor is an operation that raises, InvalidRegister apart, only what its mnemonic may raise. -/
theorem exec_raisesListed (i : Instr) (s : State) : ∃ x, exec i s = outcome x ∧ RaisesListed i x := by
  cases i with
  | movRr a b => exact ⟨_, rfl, .moveReg rfl a b s⟩
  | ldRi8 a _ | ldRi16 a _ => exact ⟨_, rfl, .loadImm rfl _ a _ s⟩
  | ldRr a _ | ldRd8 a _ | ldRd16 a _ | ldRd20 a _ _ => exact ⟨_, rfl, .loadWord rfl (of_decide_eq_true rfl) a _ s⟩
  | ldbRr a _ | ldbRd8 a _ | ldbRd16 a _ | ldbRd20 a _ _ => exact ⟨_, rfl, .loadByte rfl a _ s⟩
  | stRr a _ | stRd8 a _ | stRd16 a _ | stRd20 a _ _ => exact ⟨_, rfl, .storeWord rfl a _ s⟩
  | stlRr a _ | stlRd8 a _ | stlRd16 a _ | stlRd20 a _ _ => exact ⟨_, rfl, .storeByte (.inl rfl) _ a _ s⟩
  | sthRr a _ | sthRd8 a _ | sthRd16 a _ | sthRd20 a _ _ => exact ⟨_, rfl, .storeByte (.inr rfl) _ a _ s⟩
  | pshI8 _ | pshI16 _ => exact ⟨_, rfl, .pushImm rfl _ _ s⟩
  | pshR a => exact ⟨_, rfl, .pushReg rfl a s⟩
  | pshD8 _ | pshD16 _ | pshD20 _ _ => exact ⟨_, rfl, .pushMem rfl rfl _ s⟩
  | popR a => exact ⟨_, rfl, .popReg rfl (of_decide_eq_true rfl) a s⟩
  | cmpRi8 a _ | cmpRi16 a _ | cmpRr a _ | addRi8 a _ | addRi16 a _ | addRr a _ | subRi8 a _ | subRi16 a _ | subRr a _
  | andRi8 a _ | andRi16 a _ | andRr a _ | orRi8 a _ | orRi16 a _ | orRr a _ | xorRi8 a _ | xorRi16 a _ | xorRr a _
  | mulRi8 a _ | mulRi16 a _ | mulRr a _ =>
    exact ⟨_, rfl, .withOperands (of_decide_eq_true rfl) (fun _ _ _ => .ok _) a _ s⟩
  | lshRi8 a _ | lshRi16 a _ | lshRr a _ =>
    exact ⟨_, rfl, .withOperands (of_decide_eq_true rfl) (.lshEffect rfl) a _ s⟩
  | rshRi8 a _ | rshRi16 a _ | rshRr a _ =>
    exact ⟨_, rfl, .withOperands (of_decide_eq_true rfl) (.rshEffect rfl) a _ s⟩
  | modRi8 a _ | modRi16 a _ | modRr a _ =>
    exact ⟨_, rfl, .withOperands (of_decide_eq_true rfl) (.modEffect rfl) a _ s⟩
  | beqD8 _ | beqD16 _ | beqD20 _ _ | bgtD8 _ | bgtD16 _ | bgtD20 _ _ | bltD8 _ | bltD16 _ | bltD20 _ _
  | bofD8 _ | bofD16 _ | bofD20 _ _ | bneD8 _ | bneD16 _ | bneD20 _ _ | bgeD8 _ | bgeD16 _ | bgeD20 _ _
  | bleD8 _ | bleD16 _ | bleD20 _ _ => exact ⟨_, rfl, .branch (of_decide_eq_true rfl) _ _ s⟩
  | jmpD8 v => exact ⟨_, rfl, .jump rfl (.abs8 v) s⟩
  | jmpD16 w => exact ⟨_, rfl, .jump rfl (.abs16 w) s⟩
  | jmpD20 ad lo => exact ⟨_, rfl, .jump rfl (.abs20 ad lo) s⟩
  | jsrD8 _ | jsrD16 _ | jsrD20 _ _ => exact ⟨_, rfl, .callSub rfl _ s⟩
  | retN => exact ⟨_, rfl, .returnSub rfl (of_decide_eq_true rfl) s⟩
  | hltN => exact ⟨_, rfl, .ok _⟩
  | nopN => exact ⟨_, rfl, .advance (of_decide_eq_true rfl)⟩
  | intI8 _ | intI16 _ => exact ⟨_, rfl, .requestInterrupt rfl _ _ s⟩
  | reiN => exact ⟨_, rfl, .returnFromInterrupt rfl (of_decide_eq_true rfl) s⟩

/-- An operation that checks indices first raises InvalidRegister only for one of them above 8. -/
theorem ChecksIndices.invalidRegister {α : Type} {ns : List Nat} {x : Except Fault α} {n : Nat}
    (hx : ChecksIndices ns x) (h : x = .error (.invalidRegister n)) : 8 < n ∧ n ∈ ns := by
  induction ns with
  | nil => exact absurd h (hx n)
  | cons m ns ih =>
    obtain ⟨hgt, hle⟩ := hx
    obtain hm | hm := Nat.lt_or_ge 8 m
    · cases (hgt hm).symm.trans h
      exact ⟨hm, List.mem_cons_self⟩
    · obtain ⟨hn, hmem⟩ := ih (hle hm)
      exact ⟨hn, List.mem_cons_of_mem m hmem⟩

theorem exec_invalidRegister {i : Instr} {s : State} {n : Nat} (h : exec i s = .fault (.invalidRegister n)) :
    mayRaise i (.invalidRegister n) := by
  obtain ⟨x, hexec, hx⟩ := exec_checksIndices i s
  obtain ⟨hn, hmem⟩ := hx.invalidRegister (outcome_eq_fault.1 (hexec ▸ h))
  refine ⟨hn, ?_⟩
  simpa [indicesOf] using hmem

/-- Settles O45: InvalidRegister by the indices that an executor checks, every other fault by its operation. -/
theorem onlyListedFaults : Obligations.OnlyListedFaults := by
  intro i s k h
  by_cases hreg : ∃ n, k = .invalidRegister n
  · obtain ⟨n, rfl⟩ := hreg
    exact exec_invalidRegister h
  · obtain ⟨x, hexec, hx⟩ := exec_raisesListed i s
    exact hx k (outcome_eq_fault.1 (hexec ▸ h)) (not_exists.1 hreg)

/-! ## What a run of pushes leaves -/

/-- A push changes SP and the devices alone. -/
theorem push_frame {v : Word} {s t : State} (h : push v s = .ok t) :
    t = { s with regs := { s.regs with sp := s.regs.sp + 2 }, devices := t.devices } := by
  obtain ⟨_, u, hw, rfl⟩ := push_ok.1 h
  obtain ⟨_, _, _, _, R, _⟩ := memWriteWord_ok hw
  rw [R.next]; rfl

/-- Pushes change SP and the devices alone. -/
theorem pushAll_frame {vs : List Word} {s t : State} (h : pushAll vs s = .ok t) :
    t = { s with
      regs := { s.regs with sp := s.regs.sp + BitVec.ofNat 16 (2 * vs.length) }
      devices := t.devices } := by
  induction vs generalizing s with
  | nil => cases h; simp
  | cons v vs ih =>
    obtain ⟨u, hp, h⟩ := Except.bind_eq_ok_iff.1 h
    have hsp : s.regs.sp + 2 + BitVec.ofNat 16 (2 * vs.length) =
        s.regs.sp + BitVec.ofNat 16 (2 * (v :: vs).length) := by
      rw [List.length_cons, Nat.mul_succ, Nat.add_comm, BitVec.ofNat_add, BitVec.add_assoc]; rfl
    rw [← hsp]
    refine (ih h).trans ?_
    rw [push_frame hp]

theorem pushAll_storedWord_below {vs : List Word} {s t : State} {b : Nat} (h : pushAll vs s = .ok t)
    (hb : b + 2 ≤ spOf s) : storedWord t b = storedWord s b := by
  induction vs generalizing s with
  | nil => cases h; rfl
  | cons v vs ih =>
    obtain ⟨u, hp, h⟩ := Except.bind_eq_ok_iff.1 h
    have hsp := spOf_push hp
    exact (ih h (by omega)).trans ((push_storedWord hp).2 b hb)

/-- Pushes store their words upward from the old SP. -/
theorem pushAll_storedWord {vs : List Word} {s t : State} (h : pushAll vs s = .ok t) (k : Nat) (hk : k < vs.length) :
    storedWord t (spOf s + 2 * k) = vs[k] := by
  induction vs generalizing s k with
  | nil => exact absurd hk (Nat.not_lt_zero k)
  | cons v vs ih =>
    obtain ⟨u, hp, h⟩ := Except.bind_eq_ok_iff.1 h
    have hsp := spOf_push hp
    cases k with
    | zero => exact (pushAll_storedWord_below h (by omega)).trans (push_storedWord hp).1
    | succ k =>
      rw [show spOf s + 2 * (k + 1) = spOf u + 2 * k by omega]
      exact ih h k (Nat.lt_of_succ_lt_succ hk)

theorem pushAll_sameBytesOutside {vs : List Word} {s t : State} (h : pushAll vs s = .ok t) :
    SameBytesOutside s t (spOf s) (2 * vs.length) := by
  induction vs generalizing s with
  | nil => cases h; exact fun _ _ => rfl
  | cons v vs ih =>
    obtain ⟨u, hp, h⟩ := Except.bind_eq_ok_iff.1 h
    have hsp := spOf_push hp
    intro b hb
    rw [List.length_cons] at hb
    exact (ih h b (by omega)).trans (push_sameBytesOutside hp b (by omega))

theorem readFault_of_pushAll {vs : List Word} {s t : State} (h : pushAll vs s = .ok t) (b : Nat) (word : Bool) :
    readFault t b word = readFault s b word := by
  induction vs generalizing s with
  | nil => cases h; rfl
  | cons v vs ih =>
    obtain ⟨u, hp, h⟩ := Except.bind_eq_ok_iff.1 h
    exact (ih h).trans (readFault_of_push hp b word)

/-! ## Interrupt entry -/

/-- A dispatch through a vector that is not 0 is served where one writable device takes the frame (R340). -/
theorem step_entry {s : State} (hfault : s.fault = none) (hrun : s.running = true) (hirq : s.irq.pending = true)
    (hread : readFault s (2 * s.irq.number.val) true = none) (hne : storedWord s (2 * s.irq.number.val) ≠ 0)
    (hroom : spOf s + 16 ≤ 0xFFFF) (hw : WritableRun s (spOf s) 16) :
    ∃ u, pushAll (interruptFrame s) s = .ok u ∧
      step s = .next (u.setReg .pc (storedWord s (2 * s.irq.number.val))).clearIrq := by
  obtain ⟨u, hu⟩ : ∃ u, pushAll (interruptFrame s) s = .ok u := pushAll_served hroom hw
  refine ⟨u, hu, (tick_pending hfault hrun hirq).trans (outcome_eq_next.2 ?_)⟩
  rw [interruptDispatch_eq hread hne, hu]
  rfl

/-- The words of the frame lie upward from the old SP (R345). -/
theorem pushAll_interruptFrame_word {s t : State} (h : pushAll (interruptFrame s) s = .ok t) (k : Fin 8) :
    storedWord t (spOf s + 2 * k) = (interruptFrame s)[k.val]'k.isLt :=
  pushAll_storedWord h k k.isLt

/-- Settles O47: the frame is a run of eight pushes. -/
theorem dispatchEntry : Obligations.DispatchEntry := by
  intro s hfault hrun hirq hread hne hroom hw
  obtain ⟨u, hu, hstep⟩ := step_entry hfault hrun hirq hread hne hroom hw
  have hword := pushAll_interruptFrame_word hu
  refine ⟨_, hstep, rfl, ?_, (pushAll_sameBytesOutside hu).devices rfl, hword 0, hword 1, hword 2, hword 3, hword 4,
    hword 5, hword 6, hword 7⟩
  rw [pushAll_frame hu]
  rfl

/-! ## A request that is dropped or whose vector cannot be read -/

theorem interruptDispatch_refused {s : State} {k : BusError}
    (hread : readFault s (2 * s.irq.number.val) true = some k) :
    interruptDispatch s = .error (.bus k (2 * s.irq.number.val)) := by
  rw [interruptDispatch, vectorAddr_eq, memReadWord_refused hread, Except.error_bind]

theorem interruptDispatch_dropped {s : State} (hread : readFault s (2 * s.irq.number.val) true = none)
    (hzero : storedWord s (2 * s.irq.number.val) = 0) : interruptDispatch s = .ok s.clearIrq := by
  rw [interruptDispatch, vectorAddr_eq, memReadWord_served hread, Except.ok_bind, if_pos hzero]

/-- Settles O48: the read of the vector is the first thing a dispatch does, and a vector of 0 ends it. -/
theorem dispatchZeroOrUnreadableVector : Obligations.DispatchZeroOrUnreadableVector := by
  intro s hfault hrun hirq
  have hstep : step s = outcome (interruptDispatch s) := tick_pending hfault hrun hirq
  rw [hstep]
  exact ⟨fun k hk => outcome_eq_fault.2 (interruptDispatch_refused hk),
    fun hread hzero => ⟨s.clearIrq, outcome_eq_next.2 (interruptDispatch_dropped hread hzero), rfl, rfl⟩⟩

/-! ## An entry and the REI after it -/

theorem flagsOfWord_flagsWord (f : Flags) : flagsOfWord (flagsWord f) = f := by
  obtain ⟨z, o, l, g, d⟩ := f
  obtain ⟨hz, ho, hl, hg, hd, _⟩ := flagsWord_bits z o l g d
  rw [flagsOfWord, hz, ho, hl, hg, hd]

/-- Settles O50: the REI pops the words of the frame from where the entry has pushed them. -/
theorem dispatchThenReiRestores : Obligations.DispatchThenReiRestores := by
  intro s hfault hrun hirq hread hne hroom hw hstack
  obtain ⟨u, hu, hstep⟩ := step_entry hfault hrun hirq hread hne hroom hw
  have hsp : spOf u = spOf s + 16 := (pushAll_stack (ws := []) hu trivial).2
  have hregs : u.regs = { s.regs with sp := s.regs.sp + 16 } := congrArg State.regs (pushAll_frame hu)
  have hwords : ∀ k < 8, memReadWord (spOf s + 2 * k) u = .ok ((interruptFrame s).getD k 0) := by
    intro k hk
    have hlt : k < (interruptFrame s).length := hk
    rw [memReadWord_served ((readFault_of_pushAll hu _ true).trans (hstack k hk)), pushAll_storedWord hu k hlt,
      List.getD_eq_getElem _ _ hlt]
  refine ⟨_, _, hstep, outcome_eq_next.2 (returnFromInterrupt_served hsp hwords), ?_, flagsOfWord_flagsWord s.flags⟩
  change Regs.mk _ _ _ _ _ _ _ (u.regs.sp - 16) u.regs.bp = s.regs
  rw [hregs, BitVec.add_sub_cancel]
  rfl

end Sys2Proof.Machine

/-! PROOFS. The statement on an interrupt entry that faults: the pushes before the fault, and what the record of the
tick keeps of them. -/

namespace Sys2Proof.Machine

open Sys2Proof.Claims

/-! ## A run of pushes that ends in a fault -/

/-- A served write leaves which writes are refused: each device keeps its range and its kind. -/
theorem Replaces.writeFault_eq {s t : State} {a : Nat} {bs : List Byte} {pre post : List Device} {d : Device}
    {cells : Memory} (h : Replaces s t a bs pre d post cells) (b : Nat) (word : Bool) :
    writeFault t b word = writeFault s b word := by
  unfold writeFault
  obtain ⟨hs, ht⟩ | ht := h.arbitrate_cases b
  · rw [hs, ht]
  · rw [ht]

theorem writeFault_of_pushAll {vs : List Word} {s t : State} (h : pushAll vs s = .ok t) (b : Nat) (word : Bool) :
    writeFault t b word = writeFault s b word := by
  induction vs generalizing s with
  | nil => cases h; rfl
  | cons v vs ih =>
    obtain ⟨u, hp, h⟩ := Except.bind_eq_ok_iff.1 h
    obtain ⟨_, _, hw, rfl⟩ := push_ok.1 hp
    obtain ⟨_, _, _, _, R, _⟩ := memWriteWord_ok hw
    exact (ih h).trans (R.writeFault_eq b word)

/-- The push after served ones is refused where SP leaves no room or the write at the new SP is not served. -/
theorem pushFault_of_pushAll {vs : List Word} {s t : State} (h : pushAll vs s = .ok t)
    (hnext : 0xFFFD < spOf s + 2 * vs.length ∨ writeFault s (spOf s + 2 * vs.length) true ≠ none) :
    ∃ k, pushFault t = some k := by
  have hsp : spOf t = spOf s + 2 * vs.length := (pushAll_stack (ws := []) h trivial).2
  rw [← hsp, ← writeFault_of_pushAll h] at hnext
  rw [← Option.ne_none_iff_exists', pushFault]
  split
  · exact nofun
  · next hroom => exact mt Option.map_eq_none_iff.1 (hnext.resolve_left hroom)

/-- After served pushes the rest of the words is pushed, a fault of one of them included. -/
theorem pushAll_append {vs : List Word} {s t : State} (h : pushAll vs s = .ok t) (ws : List Word) :
    pushAll (vs ++ ws) s = pushAll ws t := by
  induction vs generalizing s with
  | nil => cases h; rfl
  | cons v vs ih =>
    obtain ⟨u, hp, h⟩ := Except.bind_eq_ok_iff.1 h
    rw [List.cons_append, pushAll, hp, Except.ok_bind, ih h]

theorem pushSome_append {vs : List Word} {s t : State} (h : pushAll vs s = .ok t) (ws : List Word) :
    pushSome (vs ++ ws) s = pushSome ws t := by
  induction vs generalizing s with
  | nil => cases h; rfl
  | cons v vs ih =>
    obtain ⟨u, hp, h⟩ := Except.bind_eq_ok_iff.1 h
    rw [List.cons_append, pushSome, hp]
    exact ih h

theorem pushAll_refused {vs : List Word} {s t : State} {k : Fault} (h : pushAll vs s = .ok t)
    (hk : pushFault t = some k) (v : Word) (ws : List Word) : pushAll (vs ++ v :: ws) s = .error k := by
  rw [pushAll_append h, pushAll, push_refused v hk, Except.error_bind]

theorem pushSome_refused {vs : List Word} {s t : State} {k : Fault} (h : pushAll vs s = .ok t)
    (hk : pushFault t = some k) (v : Word) (ws : List Word) : pushSome (vs ++ v :: ws) s = t := by
  rw [pushSome_append h, pushSome, push_refused v hk]

/-! ## An entry whose frame is not pushed whole -/

theorem dispatchPushes_eq {s : State} (hread : readFault s (2 * s.irq.number.val) true = none)
    (hne : storedWord s (2 * s.irq.number.val) ≠ 0) : dispatchPushes s = pushSome (interruptFrame s) s := by
  rw [dispatchPushes, vectorAddr_eq, memReadWord_served hread]
  exact if_neg hne

/-- A dispatch whose frame faults after the pushes `ws` ends the run, and its record has the devices as these pushes
leave them (R332, R340). -/
theorem entry_refused {N : Numbering} {s t : State} {k : Fault} {ws rest : List Word} {v : Word}
    (hfault : s.fault = none) (hrun : s.running = true) (hirq : s.irq.pending = true)
    (hread : readFault s (2 * s.irq.number.val) true = none) (hne : storedWord s (2 * s.irq.number.val) ≠ 0)
    (hframe : interruptFrame s = ws ++ v :: rest) (ht : pushAll ws s = .ok t) (hk : pushFault t = some k) :
    tick N s = .fault k ∧ recordTick N s = (s.setDevices t.devices).setFault (some k) := by
  have htick : tick N s = .fault k := by
    rw [tick_pending hfault hrun hirq, interruptDispatch_eq hread hne, hframe, pushAll_refused ht hk]
    rfl
  have hdevices : devicesAtFault N s = t.devices := by
    simp only [devicesAtFault, hfault, hirq, if_true]
    rw [dispatchPushes_eq hread hne, hframe, pushSome_refused ht hk]
  exact ⟨htick, by rw [recordTick, htick, hdevices]⟩

/-- Settles O49: the first `j` pushes are served by the run of writable bytes, the next is refused, and the record keeps
the devices as the served ones leave them. -/
theorem faultedEntryKeepsEarlierPushes : Obligations.FaultedEntryKeepsEarlierPushes := by
  intro s j hfault hrun hirq hread hne hj hroom hw hnext
  have hlt : j < (interruptFrame s).length := hj
  have hlen : ((interruptFrame s).take j).length = j := List.length_take_of_le hlt.le
  have hframe : interruptFrame s =
      (interruptFrame s).take j ++ (interruptFrame s)[j] :: (interruptFrame s).drop (j + 1) := by
    rw [← List.drop_eq_getElem_cons hlt, List.take_append_drop]
  obtain ⟨t, ht⟩ : ∃ t, pushAll ((interruptFrame s).take j) s = .ok t :=
    pushAll_served (by rwa [hlen]) (by rwa [hlen])
  obtain ⟨k, hk⟩ := pushFault_of_pushAll ht (by rwa [hlen])
  obtain ⟨htick, hrecord⟩ := entry_refused hfault hrun hirq hread hne hframe ht hk
  rw [hrecord]
  refine ⟨k, htick, rfl, hlen ▸ (pushAll_sameBytesOutside ht).devices rfl, fun i hi => ?_⟩
  have hword : storedWord t (spOf s + 2 * i) = (interruptFrame s)[i] :=
    (pushAll_storedWord ht i (by rwa [hlen])).trans List.getElem_take
  exact (List.getElem?_eq_getElem (hi.trans hlt)).trans (congrArg some hword.symm)

end Sys2Proof.Machine
